-- ==== Sys2Proof/Word.lean ====
section
/-! DEFINITION. The bit vectors the spec names: command words and results (32 bits, R60, R27), bytes and
characters (8 bits, R11, R45), the 16-bit operand of CKADD16 (R63), nibbles (4 bits, R13). -/

namespace Sys2Proof

/-- A 32-bit command word, result or window value (R60, R23, R27). -/
abbrev Word := BitVec 32

/-- A byte value, or a character "holding an ASCII code" (R11). -/
abbrev Byte := BitVec 8

/-- The 16-bit operand of CKADD16 (R63) and the fields the encoder writes as four digits (R226, R227). -/
abbrev Half := BitVec 16

/-- "a 4-bit value 0 to 15, the value of one hex digit" (R13). -/
abbrev Nibble := BitVec 4

/-- The address width code of formats W: legal values 1, 2, 3 (R8, R64). -/
abbrev WidthCode := BitVec 2

end Sys2Proof
end

