-- ==== Sys2Proof/Config.lean ====
section
/-! DEFINITION. The parameters of 00_scope.md R7. The four open ones are a record that State carries and no
step changes (R33; log 1); the fixed ones are constants. -/

namespace Sys2Proof

/-- `WINDOW_FILL` (R7, R121, D8). -/
inductive WindowFill where
  | zeroFill
  | asRead
deriving DecidableEq, Repr

/-- The open parameters of R7: "A model takes each as a configuration argument." -/
structure Config where
  /-- `HEX_LOWER`: whether `a`-`f` decode as hex digits (R100, D6). -/
  hexLower : Bool
  /-- `WINDOW_FILL`: value of the window when fewer than 8 digits were scanned (R121, D8). -/
  windowFill : WindowFill
  /-- `DATA_CKSUM_TYPE`: the type-code summand of a data record's checksum (R156, D15); a byte, log 13. -/
  dataCksumType : Byte
  /-- `ANNOUNCE_EVERY_CHUNK_IF_WIDE` (R225, D17). -/
  announceEveryChunkIfWide : Bool
deriving DecidableEq, Repr

/-- The "this spec" column of R7. -/
def Config.thisSpec : Config :=
  { hexLower := true, windowFill := .zeroFill, dataCksumType := 0, announceEveryChunkIfWide := false }

/-- `WIN_DIGITS` (R7, fixed). -/
abbrev winDigits : Nat := 8

/-- `LINE_MAX` (R7, fixed): longest input line, line break excluded. -/
abbrev lineMax : Nat := 255

/-- `CHUNK_MAX` (R7, fixed): most payload bytes per encoded data record. -/
abbrev chunkMax : Nat := 32

/-- `BLOCK_SIZE` (R7, fixed): size of an address block. -/
abbrev blockSize : Nat := 65536

/-- The line feed, `0x0A` (R81). -/
abbrev lineFeed : Byte := 0x0A

/-- The record sentinel `'S'`, `0x53` (R72). -/
abbrev sentinel : Byte := 0x53

end Sys2Proof
end

