-- ==== Sys2Proof/Syntax.lean ====
section
/-! DEFINITION. The commands: one constructor per row of spec/opcode_table.json (30_encoding.md R65). -/

namespace Sys2Proof

/-- One command of the block with its operands (R65, R66). The three reserved opcodes are rows of the opcode
table too: they carry the 28 bits the table leaves free (R172). -/
inductive Instr where
  | nop
  | hexnib (b : Byte)
  | hexbyte (hi lo : Byte)
  | wclr
  | wpush (b : Byte)
  | unpack (c : WidthCode)
  | classify (b : Byte)
  | plen (c : WidthCode) (len : Byte)
  | ckclr
  | ckadd (b : Byte)
  | ckadd16 (h : Half)
  | ckfin (b : Byte)
  | clrst
  | reservedD (x : BitVec 28)
  | reservedE (x : BitVec 28)
  | reservedF (x : BitVec 28)
deriving DecidableEq, Repr

/-- The pseudo-instruction WSCAN (R70): `WCLR`, then always eight `WPUSH`; characters missing from the string
are line feeds. -/
def wscan (text : List Byte) : List Instr :=
  .wclr :: (List.range winDigits).map fun k => .wpush (text.getD k lineFeed)

/-- The pseudo-instruction CKREC (R70). -/
def ckrec (len : Byte) (half : Half) (type : Byte) (payload : List Byte) (bias : Byte) : List Instr :=
  [.ckclr, .ckadd len, .ckadd16 half, .ckadd type] ++ payload.map .ckadd ++ [.ckfin bias]

end Sys2Proof
end

