-- ==== Sys2Proof/WellFormed.lean ====
section
/-! DEFINITION. The check an instruction term must pass to be a word of the encoding (30_encoding.md R67). Operand
widths are types already; the one check left is that a width code is 1, 2 or 3 (R8, R64). -/

namespace Sys2Proof

/-- An address width code is legal when it is not 0 (R8, R67, D10). -/
def legalCode (c : WidthCode) : Bool := c != 0

/-- The operands are ones the encoding admits. The reserved rows of the opcode table are well formed as
syntax: any 28 bits (R172). -/
def Instr.wellFormed : Instr → Bool
  | .nop => true
  | .hexnib _ => true
  | .hexbyte _ _ => true
  | .wclr => true
  | .wpush _ => true
  | .unpack c => legalCode c
  | .classify _ => true
  | .plen c _ => legalCode c
  | .ckclr => true
  | .ckadd _ => true
  | .ckadd16 _ => true
  | .ckfin _ => true
  | .clrst => true
  | .reservedD _ => true
  | .reservedE _ => true
  | .reservedF _ => true

/-- The command is one of the thirteen legal ones, not a reserved opcode (R65, R172). -/
def Instr.reserved : Instr → Bool
  | .nop => false
  | .hexnib _ => false
  | .hexbyte _ _ => false
  | .wclr => false
  | .wpush _ => false
  | .unpack _ => false
  | .classify _ => false
  | .plen _ _ => false
  | .ckclr => false
  | .ckadd _ => false
  | .ckadd16 _ => false
  | .ckfin _ => false
  | .clrst => false
  | .reservedD _ => true
  | .reservedE _ => true
  | .reservedF _ => true

end Sys2Proof
end

