-- ==== Sys2Proof/Decode.lean ====
section
/-! DEFINITION. The decoder of command words, total, rejecting by name (30_encoding.md R60 to R68), and after it
the encoder, written from the same formats. -/

namespace Sys2Proof

/-- `OP = cmd[31:28]` (R60). -/
def opcode (w : Word) : BitVec 4 := w.extractLsb' 28 4

/-- `b = lo = len = cmd[7:0]` (R66). -/
def lowByte (w : Word) : Byte := w.extractLsb' 0 8

/-- `hi = cmd[15:8]` (R66). -/
def highByte (w : Word) : Byte := w.extractLsb' 8 8

/-- `h = cmd[15:0]` (R66). -/
def lowHalf (w : Word) : Half := w.extractLsb' 0 16

/-- `c = cmd[25:24]` (R66). -/
def widthField (w : Word) : WidthCode := w.extractLsb' 24 2

/-- `cmd[27:0]`: the must-be-zero field of format N (R61), and the free bits of the reserved rows (R172). -/
def below28 (w : Word) : BitVec 28 := w.extractLsb' 0 28

/-- Format N's check: `cmd[27:0]` is zero (R61). -/
def zeroN (w : Word) : Bool := below28 w == 0

/-- Format B's check: `cmd[27:8]` is zero (R62). -/
def zeroB (w : Word) : Bool := w.extractLsb' 8 20 == 0

/-- Format H's check: `cmd[27:16]` is zero (R63). -/
def zeroH (w : Word) : Bool := w.extractLsb' 16 12 == 0

/-- Format W's check: `cmd[27:26]` and `cmd[23:8]` are zero (R64). -/
def zeroW (w : Word) : Bool := w.extractLsb' 26 2 == 0 && w.extractLsb' 8 16 == 0

/-- Why a word is illegal, apart from a reserved opcode (R67). -/
inductive Illegal where
  /-- "a bit marked 'must be zero' in its format is 1". -/
  | mustBeZero
  /-- "the format is W and `c == 0`". -/
  | widthCodeZero
  /-- "the command is `UNPACK` and `len != 0`". -/
  | unpackLength
deriving DecidableEq, Repr

/-- The command if the format's must-be-zero bits are zero (R67). -/
def ifZero (ok : Bool) (i : Instr) : Except Illegal Instr :=
  if ok then .ok i else .error .mustBeZero

/-- UNPACK's word: format W with `len` zero (R64, R67). -/
def decodeUnpack (w : Word) : Except Illegal Instr :=
  if !zeroW w then .error .mustBeZero
  else if widthField w == 0 then .error .widthCodeZero
  else if lowByte w != 0 then .error .unpackLength
  else .ok (.unpack (widthField w))

/-- PLEN's word: format W (R64, R67). -/
def decodePlen (w : Word) : Except Illegal Instr :=
  if !zeroW w then .error .mustBeZero
  else if widthField w == 0 then .error .widthCodeZero
  else .ok (.plen (widthField w) (lowByte w))

/-- "A decoder of command words is total" (R68), over the opcode map of R65. The reserved opcodes decode to the
opcode table's reserved rows; every other illegal word is rejected by name. -/
def decode (w : Word) : Except Illegal Instr :=
  match (opcode w).toNat with
  | 0x0 => ifZero (zeroN w) .nop
  | 0x1 => ifZero (zeroB w) (.hexnib (lowByte w))
  | 0x2 => ifZero (zeroH w) (.hexbyte (highByte w) (lowByte w))
  | 0x3 => ifZero (zeroN w) .wclr
  | 0x4 => ifZero (zeroB w) (.wpush (lowByte w))
  | 0x5 => decodeUnpack w
  | 0x6 => ifZero (zeroB w) (.classify (lowByte w))
  | 0x7 => decodePlen w
  | 0x8 => ifZero (zeroN w) .ckclr
  | 0x9 => ifZero (zeroB w) (.ckadd (lowByte w))
  | 0xA => ifZero (zeroH w) (.ckadd16 (lowHalf w))
  | 0xB => ifZero (zeroB w) (.ckfin (lowByte w))
  | 0xC => ifZero (zeroN w) .clrst
  | 0xD => .ok (.reservedD (below28 w))
  | 0xE => .ok (.reservedE (below28 w))
  | _ => .ok (.reservedF (below28 w))

/-- What the decoder reads from a row's bits, numbered as spec/opcode_table.json numbers them: a command is one
32-bit word (R60), bit 0 its least significant bit (R9). -/
def decodeTableWord (nbits w : Nat) : Option Instr :=
  match decode (BitVec.ofNat 32 (w % 2 ^ nbits)) with
  | .ok i => some i
  | .error _ => none

/-- Format N (R61). -/
def formatN (op : BitVec 4) : Word := op ++ (0 : BitVec 28)

/-- Format B (R62). -/
def formatB (op : BitVec 4) (b : Byte) : Word := op ++ (0 : BitVec 20) ++ b

/-- Format H (R63). -/
def formatH (op : BitVec 4) (h : Half) : Word := op ++ (0 : BitVec 12) ++ h

/-- Format W (R64). -/
def formatW (op : BitVec 4) (c : WidthCode) (len : Byte) : Word :=
  op ++ (0 : BitVec 2) ++ c ++ (0 : BitVec 16) ++ len

/-- The word of an instruction (R60 to R65). -/
def encode : Instr → Word
  | .nop => formatN 0x0
  | .hexnib b => formatB 0x1 b
  | .hexbyte hi lo => formatH 0x2 (hi ++ lo)
  | .wclr => formatN 0x3
  | .wpush b => formatB 0x4 b
  | .unpack c => formatW 0x5 c 0
  | .classify b => formatB 0x6 b
  | .plen c len => formatW 0x7 c len
  | .ckclr => formatN 0x8
  | .ckadd b => formatB 0x9 b
  | .ckadd16 h => formatH 0xA h
  | .ckfin b => formatB 0xB b
  | .clrst => formatN 0xC
  | .reservedD x => (0xD : BitVec 4) ++ x
  | .reservedE x => (0xE : BitVec 4) ++ x
  | .reservedF x => (0xF : BitVec 4) ++ x

/-- One hex digit of assembler text, in upper case. -/
def asmDigit (n : Nat) : String := ["0","1","2","3","4","5","6","7","8","9","A","B","C","D","E","F"].getD n "?"

/-- A byte as assembler text (R69: "a hex byte (`0x41`)"). -/
def asmByte (b : Byte) : String := "0x" ++ asmDigit (b.toNat / 16) ++ asmDigit (b.toNat % 16)

/-- A 16-bit value as assembler text (R69). -/
def asmHalf (h : Half) : String :=
  "0x" ++ asmDigit (h.toNat / 4096) ++ asmDigit (h.toNat / 256 % 16) ++ asmDigit (h.toNat / 16 % 16) ++
    asmDigit (h.toNat % 16)

/-- The assembler syntax of R69, character operands in their hex form. A reserved word has no mnemonic there and
is written under the opcode table's row name. -/
def Instr.assembly : Instr → String
  | .nop => "NOP"
  | .hexnib b => "HEXNIB " ++ asmByte b
  | .hexbyte hi lo => "HEXBYTE " ++ asmByte hi ++ ", " ++ asmByte lo
  | .wclr => "WCLR"
  | .wpush b => "WPUSH " ++ asmByte b
  | .unpack c => "UNPACK " ++ asmDigit c.toNat
  | .classify b => "CLASSIFY " ++ asmByte b
  | .plen c len => "PLEN " ++ asmDigit c.toNat ++ ", " ++ asmByte len
  | .ckclr => "CKCLR"
  | .ckadd b => "CKADD " ++ asmByte b
  | .ckadd16 h => "CKADD16 " ++ asmHalf h
  | .ckfin b => "CKFIN " ++ asmByte b
  | .clrst => "CLRST"
  | .reservedD _ => "RESERVED_D"
  | .reservedE _ => "RESERVED_E"
  | .reservedF _ => "RESERVED_F"

end Sys2Proof
end

