-- ==== Sys2Proof/Machine/State.lean ====
section
/-! DEFINITION. The state of the machine: the block's registers (10_state.md R23 to R28, R37), its parameters
(00_scope.md R7), and the host that drives it (48_host_sequencing.md R200 to R230). Plain data. -/

namespace Sys2Proof.Machine

/-- The host's buffer, "a byte array covering the half-open address range `[start, end)`" (R43): `size` bytes
indexed from 0. `cells` is sparse: indices strictly rising, and no entry holds 0, which is what an unlisted index
reads as (log 10). -/
structure Memory where
  size : Nat
  cells : List Host.Cell
deriving DecidableEq, Repr

/-- Why a decode call failed (60_exceptions.md R265). -/
inductive CallError where
  /-- "header or payload hex fields do not parse at the expected width": line number, and the payload byte offset
  when mid-payload (R213). -/
  | malformedRecord (line : Nat) (offset : Option Nat)
  /-- "a Count record's length field is not exactly 3" (R211). -/
  | malformedCountRecord (line : Nat)
  /-- "a data record's address (or its upper end) falls outside `[start, end)`" (R214). -/
  | addressOutOfRange (address : Nat) (line : Nat)
  /-- "a Count record's declared total disagrees with the number of data records actually observed" (R217). -/
  | recordCountMismatch (expected : Nat) (seen : Nat)
deriving DecidableEq, Repr

/-- What a finished call gives its caller. A failed decode gives no buffer: "the caller-supplied buffer is
released" (R218). -/
inductive CallResult where
  /-- `Ok(n)`, with the buffer returned (R200, R217). -/
  | decoded (n : Nat) (buffer : Memory)
  /-- `Err(kind, info)` (R200, R218). -/
  | failed (error : CallError)
  /-- The text of a finished encode, line feeds included (R220, R229, R230). -/
  | encoded (text : List Byte)
deriving DecidableEq, Repr

/-- The decoder's ScanState (R201). -/
structure ScanState where
  lineNumber : Nat
  dataRecordsSeen : Nat
  expectedDataRecords : Option Nat
  highestAddressWritten : Nat
deriving DecidableEq, Repr

/-- What the header of the current record said (R207): class number, width code, length field `L`. -/
structure RecordHead where
  cls : BitVec 4
  c : WidthCode
  len : Byte
deriving DecidableEq, Repr

/-- The point the decoder has reached: what it does in its next step. -/
inductive DecodePhase where
  /-- `CLRST` at the start of the call (R202). -/
  | callClrst
  /-- `WCLR` at the start of the call (R202). -/
  | callWclr
  /-- `CKCLR` at the start of the call (R202). -/
  | callCkclr
  /-- Read the next line, or end the stream (R203, R205, R217); no command. -/
  | nextLine
  /-- `CLASSIFY ch(1)` (R206, R207). -/
  | classify
  /-- `HEXBYTE ch(2), ch(3)` (R206, R207). -/
  | length (cls : BitVec 4) (c : WidthCode)
  /-- `HEXNIB ch(4)` (R206), then the dispatch (R208). -/
  | firstDigit (r : RecordHead)
  /-- The commands of `WSCAN ch(4) .. ch(11)` left to issue, and after them `UNPACK` (R209, R211). -/
  | window (r : RecordHead) (todo : List Instr)
  /-- `PLEN c, L` (R210), the address being known. -/
  | payloadLength (r : RecordHead) (address : Nat)
  /-- `HEXBYTE` of payload byte `i` of `p` (R212 to R214). -/
  | payload (r : RecordHead) (address p i : Nat)
deriving DecidableEq, Repr

/-- A decode call in progress (R200 to R218). -/
structure DecodeCall where
  /-- `start` of the MemoryWindow. -/
  start : Nat
  /-- `end` of the MemoryWindow. -/
  stop : Nat
  buffer : Memory
  /-- The lines not yet read, without their line feeds (R81, R203). -/
  lines : List (List Byte)
  /-- The current line. -/
  line : List Byte
  scan : ScanState
  phase : DecodePhase
deriving DecidableEq, Repr

/-- The line the encoder is computing a checksum for. -/
inductive LineJob where
  /-- The announcement of block `idx`, before the data record of `n` bytes (R226). -/
  | announce (idx : Half) (n : Nat)
  /-- The data record of these payload bytes (R227). -/
  | data (payload : List Byte)
deriving DecidableEq, Repr

/-- The point the encoder has reached. -/
inductive EncodePhase where
  /-- `CLRST` at the start of the call (R221, R293). -/
  | callClrst
  /-- `WCLR` at the start of the call (R202, R293; log 14). -/
  | callWclr
  /-- `CKCLR` at the start of the call (R221, R293). -/
  | callCkclr
  /-- Choose the next chunk and whether it is announced, or end (R222 to R225, R229); no command. -/
  | chunk
  /-- The commands of a `CKREC` left to issue; when none is left, write the line (R226, R227). -/
  | checksum (job : LineJob) (todo : List Instr)
deriving DecidableEq, Repr

/-- An encode call in progress (R220 to R230). -/
structure EncodeCall where
  start : Nat
  stop : Nat
  buffer : Memory
  /-- EncodeCursor `currentAddress` (R221). -/
  currentAddress : Nat
  /-- EncodeCursor `currentBlockBase` (R221): a block number, or none. -/
  currentBlockBase : Option Nat
  /-- The text written so far, line feeds included (R230). -/
  out : List Byte
  phase : EncodePhase
deriving DecidableEq, Repr

/-- What the host is doing. ScanState and EncodeCursor exist only during a call (R201, R221). -/
inductive HostCall where
  | idle
  | decoding (d : DecodeCall)
  | encoding (e : EncodeCall)
deriving DecidableEq, Repr

/-- What the host will do next, when no call is in progress. -/
inductive HostAction where
  /-- Issue one command word on the command port (R34). -/
  | command (w : Word)
  /-- `decode(stream, buffer, start, end)` (R200). -/
  | decodeCall (stream : List Byte) (buffer : Memory) (start stop : Nat)
  /-- `encode(stream, buffer, start, end)` (R220). -/
  | encodeCall (buffer : Memory) (start stop : Nat)
deriving DecidableEq, Repr

/-- The whole machine. -/
structure State where
  /-- The parameters of R7, "fixed for the life of a model instance" (R33); log 1. -/
  cfg : Config
  /-- `WACC[31:0]`, the window accumulator (R23). -/
  wacc : Word
  /-- `WCNT[3:0]`, the window digit count (R24). -/
  wcnt : BitVec 4
  /-- `WSTOP`, the window stop flag (R25). -/
  wstop : Bool
  /-- `CKACC[7:0]`, the checksum accumulator (R26). -/
  ckacc : Byte
  /-- `RES[31:0]`, the result register (R27). -/
  res : Word
  /-- `STATUS.OK` (R28, R29). -/
  ok : Bool
  /-- `STATUS.ERRS` (R28, R30). -/
  errs : Bool
  /-- `STATUS.ILL` (R28, R31). -/
  ill : Bool
  /-- The call in progress, if any (R200, R220). -/
  host : HostCall
  /-- The last finished call's result: the model's own field, log 6. -/
  result : Option CallResult
  /-- What the host does next, oldest first: the model's own field, log 2. -/
  port : List HostAction
  /-- The reset input, sampled before each step, next sample first; not asserted when the list is empty: the
  model's own field, log 4. -/
  resetInput : List Bool
deriving DecidableEq, Repr

/-- Why the machine stops. Both are safe, and neither is reached from reset. -/
inductive Fault where
  /-- Raised by UNPACK under ZERO_FILL when `WCNT` is 9 to 15, a value "never reached" (R24) that the spec treats
  as "stuck" (I13); log 5. Safe. -/
  | windowCount
  /-- Raised by the host's BufRead or BufWrite at an index outside the buffer, which does not exist (R43); log 10.
  Safe. -/
  | bufferIndex
deriving DecidableEq, Repr

/-- Why a step has no meaning. -/
inductive Refusal where
  /-- Raised by an instruction that has no meaning yet: none is left. Safe. -/
  | notModelled (mnemonic : String)
  /-- Raised by a decode or encode call whose preconditions fail (R200, R220); log 12. Safe. -/
  | callPrecondition
  /-- Raised by a decode call whose stream has a line of more than 255 characters: "A model refuses such a
  stream" (R204); log 9. Safe. -/
  | lineTooLong
deriving DecidableEq, Repr

/-- The machine right after reset, with the parameters of R7's "this spec" column: every register 0 (R37, R290),
the host idle and nothing issued (log 6). -/
def State.reset : State :=
  { cfg := Config.thisSpec
    wacc := 0x00000000
    wcnt := 0
    wstop := false
    ckacc := 0x00
    res := 0x00000000
    ok := false
    errs := false
    ill := false
    host := .idle
    result := none
    port := []
    resetInput := [] }

end Sys2Proof.Machine
end

