-- ==== Sys2Proof/Machine/Operands.lean ====
section
/-! DEFINITION. The values the commands compute from their operands and the window: the nibble function (40, R100,
R103), the shift table and the window function (41, R120, R121), the class table (30, R73), the payload length
(41, R130), the checksum arithmetic (42, R151 to R153). -/

namespace Sys2Proof.Machine

/-- `hexval(c)` (R100): a nibble, or none for "invalid". `lower` is `HEX_LOWER`. -/
def hexval (lower : Bool) (c : Byte) : Option Nibble :=
  if 0x30 ≤ c ∧ c ≤ 0x39 then some ((c - 0x30).setWidth 4)
  else if 0x41 ≤ c ∧ c ≤ 0x46 then some ((c - 0x41 + 10).setWidth 4)
  else if 0x61 ≤ c ∧ c ≤ 0x66 ∧ lower = true then some ((c - 0x61 + 10).setWidth 4)
  else none

/-- `ishex(c)` (R103). -/
def ishex (lower : Bool) (c : Byte) : Bool := (hexval lower c).isSome

/-- The byte of a hex pair, high nibble first (R102, R41): none when either character is invalid. -/
def hexpair (lower : Bool) (hi lo : Byte) : Option Byte :=
  match hexval lower hi, hexval lower lo with
  | some h, some l => some (h ++ l)
  | _, _ => none

/-- `W = c + 1`, the byte width of the address field (R8). -/
def addressBytes (c : WidthCode) : Nat := c.toNat + 1

/-- `shamt(c) = 8 * (3 - c)` (R120). -/
def shamt (c : WidthCode) : Nat := 8 * (3 - c.toNat)

/-- `fillwin()` (R121). None where R121 gives nothing: ZERO_FILL with `WCNT` above 8, never reached (I13; log 5). -/
def fillwin (s : State) : Option Word :=
  if s.wcnt = 0 then some 0
  else
    match s.cfg.windowFill with
    | .zeroFill => if s.wcnt ≤ 8 then some (s.wacc <<< (4 * (8 - s.wcnt.toNat))) else none
    | .asRead => some s.wacc

/-- The classes of records (R73). -/
inductive RecordClass where
  | header
  | data16
  | data24
  | data32
  | reserved
  | count
  | terminator
  | other
deriving DecidableEq, Repr

/-- The class number, as CLASSIFY returns it (R73). -/
def RecordClass.number : RecordClass → BitVec 4
  | .header => 0
  | .data16 => 1
  | .data24 => 2
  | .data32 => 3
  | .reserved => 4
  | .count => 5
  | .terminator => 6
  | .other => 7

/-- `CLASS[n]`: the class of a type digit (R73, R128). -/
def classOf (n : Nibble) : RecordClass :=
  match n.toNat with
  | 0 => .header
  | 1 => .data16
  | 2 => .data24
  | 3 => .data32
  | 4 => .reserved
  | 5 => .count
  | 6 => .other
  | 7 => .terminator
  | 8 => .terminator
  | 9 => .terminator
  | _ => .other

/-- `WIDTH[class]`: the width code, 0 for none (R73, R128). -/
def RecordClass.widthCode : RecordClass → WidthCode
  | .header => 0
  | .data16 => 1
  | .data24 => 2
  | .data32 => 3
  | .reserved => 0
  | .count => 1
  | .terminator => 0
  | .other => 0

/-- CLASSIFY's result: `RES[5:4] = c`, `RES[3:0] = class` (R128). -/
def classWord (k : RecordClass) : Word := (k.widthCode ++ k.number).setWidth 32

/-- `p = len - c - 2`, a mathematical integer (R130). -/
def payloadLen (c : WidthCode) (len : Byte) : Int := (len.toNat : Int) - c.toNat - 2

/-- The sum after a byte: addition modulo 256, not XOR (R151, C1). -/
def ckSum (acc b : Byte) : Byte := acc + b

/-- The finalised checksum: two's complement, masked to 8 bits, less the bias modulo 256 (R153, C5, D14). -/
def ckFinal (acc bias : Byte) : Byte := (~~~acc + 1) - bias

/-- `cksum(len, a16, type, payload, bias)` (R154). -/
def cksum (len : Byte) (a16 : Half) (type : Byte) (payload : List Byte) (bias : Byte) : Byte :=
  ckFinal (payload.foldl ckSum (len + a16.extractLsb' 0 8 + a16.extractLsb' 8 8 + type)) bias

end Sys2Proof.Machine
end

