-- ==== Sys2Proof/Machine/Flags.lean ====
section
/-! DEFINITION. The result register and the status flags: `setres` (10_state.md R27, R29, R30) and what the two
output ports show (R28, R32, R34). -/

namespace Sys2Proof.Machine

/-- `setres(v, ok)` (R27): `RES <- v`, `STATUS.OK <- ok`, and `STATUS.ERRS <- 1` when `ok` is 0. -/
def setres (v : Word) (ok : Bool) (s : State) : State :=
  { s with res := v, ok := ok, errs := s.errs || !ok }

/-- The result write of WPUSH (R123): `RES` and `STATUS.OK`, with `ERRS` unchanged (R29). -/
def setresQuiet (v : Word) (ok : Bool) (s : State) : State :=
  { s with res := v, ok := ok }

/-- The `RES` output port (R34). A read has no side effect (R46). -/
def readRes (s : State) : Word := s.res

/-- The `STATUS` output port: `OK`, `ERRS`, `ILL`, the mirrors of `WSTOP` and `WCNT`, and zeros (R28, R32). -/
def readStatus (s : State) : Word :=
  (0 : BitVec 24) ++ s.wcnt ++ BitVec.ofBool s.wstop ++ BitVec.ofBool s.ill ++ BitVec.ofBool s.errs ++
    BitVec.ofBool s.ok

end Sys2Proof.Machine
end

