-- ==== Sys2Proof/Machine/Ops.lean ====
section
/-! DEFINITION. The shared operations over the block's registers: the illegal-command outcome (60_exceptions.md
R262), the reset event (70_reset_and_hazards.md R290), the writes of the window, the checksum accumulator and the
sticky flags. There is no trap entry and no return (R268, R269): R262 is all an exception does here. -/

namespace Sys2Proof.Machine

/-- `raise ILL` (R262): "sets `STATUS.ILL <- 1` and changes nothing else". -/
def raiseIll (s : State) : State := { s with ill := true }

/-- The sticky flags cleared (R171): `ERRS` and `ILL`. -/
def clearSticky (s : State) : State := { s with errs := false, ill := false }

/-- The window registers written together (R122, R123). -/
def setWindow (wacc : Word) (wcnt : BitVec 4) (wstop : Bool) (s : State) : State :=
  { s with wacc := wacc, wcnt := wcnt, wstop := wstop }

/-- The checksum accumulator written (R150 to R152). -/
def setCkacc (v : Byte) (s : State) : State := { s with ckacc := v }

/-- The reset event (R290): every register of the block at its value of R37; the parameters stay, and so does the
host, which is outside the block (log 4). -/
def resetBlock (s : State) : State :=
  { s with
    wacc := 0x00000000, wcnt := 0, wstop := false, ckacc := 0x00, res := 0x00000000,
    ok := false, errs := false, ill := false }

end Sys2Proof.Machine
end

