-- ==== Sys2Proof/Machine/AddressUnpack.lean ====
section
/-! DEFINITION. The address-field unpacker's commands (41_address_unpack.md). -/

namespace Sys2Proof.Machine

/-- WCLR (R122). -/
def execWclr (s : State) : Host.Outcome State Fault Refusal :=
  .next (setres 0x00000000 true (setWindow 0x00000000 0 false s))

/-- A consumed digit (R123, the middle branch): `RES` is the new `WACC`, and the eighth digit ends the scan. -/
def pushDigit (n : Nibble) (s : State) : State :=
  setresQuiet (s.wacc <<< 4 ||| n.setWidth 32) true
    (setWindow (s.wacc <<< 4 ||| n.setWidth 32) (s.wcnt + 1) (s.wstop || s.wcnt + 1 == 8) s)

/-- WPUSH (R123): the greedy scan of one character; `ERRS` is never set. -/
def execWpush (b : Byte) (s : State) : Host.Outcome State Fault Refusal :=
  if s.wstop then .next (setresQuiet s.wacc false s)
  else
    match hexval s.cfg.hexLower b with
    | some n => .next (pushDigit n s)
    | none => .next (setresQuiet s.wacc false (setWindow s.wacc s.wcnt true s))

/-- UNPACK (R125). Code 0 is an illegal command (R67, R262). -/
def execUnpack (c : WidthCode) (s : State) : Host.Outcome State Fault Refusal :=
  if c = 0 then .next (raiseIll s)
  else
    match fillwin s with
    | some v => .next (setres (v >>> shamt c) (decide (2 * addressBytes c ≤ s.wcnt.toNat)) s)
    | none => .fault .windowCount

/-- CLASSIFY (R128): class and width code of a type digit; 7 with `OK = 0` for an invalid one. -/
def execClassify (b : Byte) (s : State) : Host.Outcome State Fault Refusal :=
  match hexval s.cfg.hexLower b with
  | some n => .next (setres (classWord (classOf n)) true s)
  | none => .next (setres 0x00000007 false s)

/-- PLEN (R130): the payload length, or its 32-bit two's complement with `OK = 0` when negative. Code 0 is an
illegal command (R67, R262). -/
def execPlen (c : WidthCode) (len : Byte) (s : State) : Host.Outcome State Fault Refusal :=
  if c = 0 then .next (raiseIll s)
  else .next (setres (BitVec.ofInt 32 (payloadLen c len)) (decide (0 ≤ payloadLen c len)) s)

end Sys2Proof.Machine
end

