-- ==== Sys2Proof/Machine/Checksum.lean ====
section
/-! DEFINITION. The checksum accumulator's commands (42_checksum.md). -/

namespace Sys2Proof.Machine

/-- `CKACC <- v` and `setres(zext_32(v), 1)`: how R150 to R152 end. -/
def writeSum (v : Byte) (s : State) : State := setres (v.setWidth 32) true (setCkacc v s)

/-- CKCLR (R150). -/
def execCkclr (s : State) : Host.Outcome State Fault Refusal := .next (writeSum 0x00 s)

/-- CKADD (R151): the carry out of bit 7 is discarded. -/
def execCkadd (b : Byte) (s : State) : Host.Outcome State Fault Refusal := .next (writeSum (ckSum s.ckacc b) s)

/-- CKADD16 (R152): adds `h[7:0]` and `h[15:8]`. -/
def execCkadd16 (h : Half) (s : State) : Host.Outcome State Fault Refusal :=
  .next (writeSum (ckSum (ckSum s.ckacc (h.extractLsb' 0 8)) (h.extractLsb' 8 8)) s)

/-- CKFIN (R153): `CKACC` is not changed. -/
def execCkfin (b : Byte) (s : State) : Host.Outcome State Fault Refusal :=
  .next (setres ((ckFinal s.ckacc b).setWidth 32) true s)

end Sys2Proof.Machine
end

