-- ==== Sys2Proof/Machine/Control.lean ====
section
/-! DEFINITION. The control commands and the reserved opcodes (43_control.md). -/

namespace Sys2Proof.Machine

/-- NOP (R170): "no state changes; `RES` and `STATUS` keep their values". -/
def execNop (s : State) : Host.Outcome State Fault Refusal := .next s

/-- CLRST (R171). -/
def execClrst (s : State) : Host.Outcome State Fault Refusal := .next (clearSticky s)

/-- Reserved opcode `0xD` (R172): the illegal-command outcome, whatever its other bits. -/
def execReservedD (_x : BitVec 28) (s : State) : Host.Outcome State Fault Refusal := .next (raiseIll s)

/-- Reserved opcode `0xE` (R172). -/
def execReservedE (_x : BitVec 28) (s : State) : Host.Outcome State Fault Refusal := .next (raiseIll s)

/-- Reserved opcode `0xF` (R172). -/
def execReservedF (_x : BitVec 28) (s : State) : Host.Outcome State Fault Refusal := .next (raiseIll s)

end Sys2Proof.Machine
end

