-- ==== Sys2Proof/Machine/HexDecode.lean ====
section
/-! DEFINITION. The hex-to-nibble decoder's commands (40_hex_decode.md). -/

namespace Sys2Proof.Machine

/-- HEXNIB (R101): one character to a nibble; 0 with `OK = 0` for an invalid one. -/
def execHexnib (b : Byte) (s : State) : Host.Outcome State Fault Refusal :=
  match hexval s.cfg.hexLower b with
  | some n => .next (setres (n.setWidth 32) true s)
  | none => .next (setres 0x00000000 false s)

/-- HEXBYTE (R102): a hex pair to a byte, high nibble first; 0 with `OK = 0` when either is invalid. -/
def execHexbyte (hi lo : Byte) (s : State) : Host.Outcome State Fault Refusal :=
  match hexpair s.cfg.hexLower hi lo with
  | some v => .next (setres (v.setWidth 32) true s)
  | none => .next (setres 0x00000000 false s)

end Sys2Proof.Machine
end

