-- ==== Sys2Proof/Machine/Dispatch.lean ====
section
/-! DEFINITION. One arm per command (30_encoding.md R65). -/

namespace Sys2Proof.Machine

/-- The meaning of a command. -/
def exec (i : Instr) (s : State) : Host.Outcome State Fault Refusal :=
  match i with
  | .nop => Sys2Proof.Machine.execNop s
  | .hexnib b => Sys2Proof.Machine.execHexnib b s
  | .hexbyte hi lo => Sys2Proof.Machine.execHexbyte hi lo s
  | .wclr => Sys2Proof.Machine.execWclr s
  | .wpush b => Sys2Proof.Machine.execWpush b s
  | .unpack c => Sys2Proof.Machine.execUnpack c s
  | .classify b => Sys2Proof.Machine.execClassify b s
  | .plen c len => Sys2Proof.Machine.execPlen c len s
  | .ckclr => Sys2Proof.Machine.execCkclr s
  | .ckadd b => Sys2Proof.Machine.execCkadd b s
  | .ckadd16 h => Sys2Proof.Machine.execCkadd16 h s
  | .ckfin b => Sys2Proof.Machine.execCkfin b s
  | .clrst => Sys2Proof.Machine.execClrst s
  | .reservedD x => Sys2Proof.Machine.execReservedD x s
  | .reservedE x => Sys2Proof.Machine.execReservedE x s
  | .reservedF x => Sys2Proof.Machine.execReservedF x s

end Sys2Proof.Machine
end

