-- ==== Sys2Proof/Machine/Command.lean ====
section
/-! DEFINITION. One command word performed by the block (00_scope.md R3; 30_encoding.md R68; 60_exceptions.md R260,
R262, R263), and how the host issues a command and reads its result (48_host_sequencing.md, `blk(X)`). -/

namespace Sys2Proof.Machine

/-- The block performs one command word: the command it decodes to, or the illegal-command outcome (R68, R262). The
legality check comes first (R264). -/
def command (w : Word) (s : State) : Host.Outcome State Fault Refusal :=
  match decode w with
  | .ok i => exec i s
  | .error _ => .next (raiseIll s)

/-- `blk(X)`: the host drives the word of `X` on the command port and goes on with what the block leaves. -/
def issue (i : Instr) (andThen : State → Host.Outcome State Fault Refusal) (s : State) :
    Host.Outcome State Fault Refusal :=
  match command (encode i) s with
  | .next t => andThen t
  | .fault f => .fault f
  | .refused r => .refused r

/-- The causes of an invalid result, by the spec's codes (R263). -/
inductive Cause where
  /-- HEXNIB: the character is not a hex digit. -/
  | b1
  /-- HEXBYTE: one or both characters are not hex digits. -/
  | b2
  /-- UNPACK: the window holds fewer digits than the address field needs. -/
  | b3
  /-- CLASSIFY: the type character is not a hex digit. -/
  | b4
  /-- PLEN: the payload length is negative. -/
  | b5
  /-- WPUSH: the scan is over, or the character is not a hex digit; not an error. -/
  | b6
  /-- Illegal command word. -/
  | b7
deriving DecidableEq, Repr

/-- The cause code of a command on a state, none for a valid result (R263). -/
def causeOf (i : Instr) (s : State) : Option Cause :=
  match i with
  | .nop => none
  | .hexnib b => if ishex s.cfg.hexLower b then none else some .b1
  | .hexbyte hi lo => if ishex s.cfg.hexLower hi && ishex s.cfg.hexLower lo then none else some .b2
  | .wclr => none
  | .wpush b => if !s.wstop && ishex s.cfg.hexLower b then none else some .b6
  | .unpack c => if c = 0 then some .b7 else if s.wcnt.toNat < 2 * (c.toNat + 1) then some .b3 else none
  | .classify b => if ishex s.cfg.hexLower b then none else some .b4
  | .plen c len => if c = 0 then some .b7 else if len.toNat < c.toNat + 2 then some .b5 else none
  | .ckclr => none
  | .ckadd _ => none
  | .ckadd16 _ => none
  | .ckfin _ => none
  | .clrst => none
  | .reservedD _ => some .b7
  | .reservedE _ => some .b7
  | .reservedF _ => some .b7

/-- The cause code of a command word (R263): B7 for an illegal one. -/
def wordCause (w : Word) (s : State) : Option Cause :=
  match decode w with
  | .ok i => causeOf i s
  | .error _ => some .b7

end Sys2Proof.Machine
end

