-- ==== Sys2Proof/Machine/HostText.lean ====
section
/-! DEFINITION. The text of records as the host reads and writes it: line framing (30_encoding.md R81), upper-case
hex digits (R79), and the three lines the encoder writes (R76 to R78; 48_host_sequencing.md R226, R227, R229). -/

namespace Sys2Proof.Machine

/-- The lines of a stream: separated by line feeds, which belong to no line (R81). Text after the last line feed
is a line when it is not empty (log 8). -/
def splitLines : List Byte → List (List Byte)
  | [] => []
  | c :: rest =>
    if c = lineFeed then [] :: splitLines rest
    else
      match splitLines rest with
      | [] => [[c]]
      | l :: ls => (c :: l) :: ls

/-- `ch(i)`: the character at a position, a line feed past the end of the line (48_host_sequencing.md). -/
def charAt (line : List Byte) (i : Nat) : Byte := line.getD i lineFeed

/-- One upper-case hex digit (R79). -/
def hexDigit (n : Nibble) : Byte :=
  if n ≤ 9 then 0x30 + n.setWidth 8 else 0x41 + (n.setWidth 8 - 10)

/-- `HEX2(v)`: two digits, most significant first (R230). -/
def hex2 (v : Byte) : List Byte := [hexDigit (v.extractLsb' 4 4), hexDigit (v.extractLsb' 0 4)]

/-- `HEX4(v)`: four digits, most significant first (R230). -/
def hex4 (v : Half) : List Byte := hex2 (v.extractLsb' 8 8) ++ hex2 (v.extractLsb' 0 8)

/-- `"S0" ++ "02" ++ "0000" ++ HEX4(idx) ++ HEX2(k)` (R76, R226). -/
def announcementText (idx : Half) (k : Byte) : List Byte :=
  [0x53, 0x30] ++ [0x30, 0x32] ++ [0x30, 0x30, 0x30, 0x30] ++ hex4 idx ++ hex2 k

/-- `"S1" ++ HEX2(n + 3) ++ HEX4(a16) ++ HEX2(pay[0]) ++ ... ++ HEX2(k)` (R77, R227). -/
def dataText (a16 : Half) (payload : List Byte) (k : Byte) : List Byte :=
  [0x53, 0x31] ++ hex2 (BitVec.ofNat 8 (payload.length + 3)) ++ hex4 a16 ++ payload.flatMap hex2 ++ hex2 k

/-- The literal `S9030000FC` (R78, R229). -/
def terminatorText : List Byte := [0x53, 0x39, 0x30, 0x33, 0x30, 0x30, 0x30, 0x30, 0x46, 0x43]

/-- A written line ends with one line feed (R81, R230). -/
def withLineFeed (line : List Byte) : List Byte := line ++ [lineFeed]

end Sys2Proof.Machine
end

