-- ==== Sys2Proof/Machine/Memory.lean ====
section
/-! DEFINITION. The host's buffer: BufRead and BufWrite (00_scope.md R10; 20_memory.md R43), one byte at a time
(R45), and the canonical form of its cells (log 10). -/

namespace Sys2Proof.Machine

/-- What an index that is not listed reads as (log 10). -/
def unlistedByte : Byte := 0

/-- Cells at indices of at least `lo` and below `size`, strictly rising, none holding the unlisted byte. -/
def cellsWf (size lo : Nat) : List Host.Cell → Bool
  | [] => true
  | (a, v) :: rest => decide (lo ≤ a) && decide (a < size) && v != unlistedByte && cellsWf size (a + 1) rest

/-- The canonical form: equal contents are equal data. -/
def Memory.wf (m : Memory) : Bool := cellsWf m.size 0 m.cells

/-- The byte at an index. -/
def cellsRead : List Host.Cell → Nat → Byte
  | [], _ => unlistedByte
  | (a, v) :: rest, i => if a = i then v else cellsRead rest i

/-- The cells after a byte is written at an index. -/
def cellsWrite : List Host.Cell → Nat → Byte → List Host.Cell
  | [], i, b => if b = unlistedByte then [] else [(i, b)]
  | (a, v) :: rest, i, b =>
    if i < a then (if b = unlistedByte then (a, v) :: rest else (i, b) :: (a, v) :: rest)
    else if i = a then (if b = unlistedByte then rest else (i, b) :: rest)
    else (a, v) :: cellsWrite rest i b

/-- `BufRead(i)` (R10): none when the index is outside the buffer, which has no such byte (R43). -/
def Memory.read (m : Memory) (i : Nat) : Option Byte :=
  if i < m.size then some (cellsRead m.cells i) else none

/-- `BufWrite(i, b)` (R10): none when the index is outside the buffer (R43). -/
def Memory.write (m : Memory) (i : Nat) (b : Byte) : Option Memory :=
  if i < m.size then some { m with cells := cellsWrite m.cells i b } else none

/-- `n` bytes from index `i` on. -/
def Memory.readBytes (m : Memory) (i : Nat) : Nat → Option (List Byte)
  | 0 => some []
  | n + 1 =>
    match m.read i, m.readBytes (i + 1) n with
    | some b, some rest => some (b :: rest)
    | _, _ => none

end Sys2Proof.Machine
end

