-- ==== Sys2Proof/Machine/HostDecode.lean ====
section
/-! DEFINITION. The host's decoder around the block (48_host_sequencing.md R200 to R219), one step at a time: each
step issues at most one command and acts on its result (log 7). -/

namespace Sys2Proof.Machine

/-- The code this spec gives an error kind (60_exceptions.md R265). -/
def CallError.code : CallError → Nat
  | .malformedRecord _ _ => 1
  | .malformedCountRecord _ => 2
  | .addressOutOfRange _ _ => 3
  | .recordCountMismatch _ _ => 4

/-- The decode call goes on with this state of the routine. -/
def goDecode (d : DecodeCall) (s : State) : Host.Outcome State Fault Refusal :=
  .next { s with host := .decoding d }

/-- The call in progress ends with a result; the host is idle again (R217, R218, R222). -/
def finishCall (r : CallResult) (s : State) : Host.Outcome State Fault Refusal :=
  .next { s with host := .idle, result := some r }

/-- `fail <Kind>(info)`: the call ends at once and the buffer is released (R218). -/
def failCall (e : CallError) (s : State) : Host.Outcome State Fault Refusal := finishCall (.failed e) s

/-- `MalformedRecord` on the current line, with the payload byte offset when there is one (R206, R209, R210, R213). -/
def malformed (d : DecodeCall) (offset : Option Nat) (s : State) : Host.Outcome State Fault Refusal :=
  failCall (.malformedRecord d.scan.lineNumber offset) s

/-- The preconditions of R200 on the buffer and the range (D23), with the buffer in canonical form (log 10, 12). -/
def callOk (buffer : Memory) (start stop : Nat) : Bool :=
  decide (start ≤ stop) && decide (stop ≤ 2 ^ 32) && decide (buffer.size = stop - start) && buffer.wf

/-- No line of the stream has more than 255 characters (R81, R204). -/
def linesOk (lines : List (List Byte)) : Bool := lines.all fun l => decide (l.length ≤ lineMax)

/-- `decode(stream, buffer, start, end)` is called (R200, R201): ScanState is created. A stream with a line of more
than 255 characters is refused (R204; log 9). -/
def startDecode (stream : List Byte) (buffer : Memory) (start stop : Nat) (s : State) :
    Host.Outcome State Fault Refusal :=
  if !callOk buffer start stop then .refused .callPrecondition
  else if !linesOk (splitLines stream) then .refused .lineTooLong
  else
    goDecode
      { start := start, stop := stop, buffer := buffer, lines := splitLines stream, line := []
        scan :=
          { lineNumber := 0, dataRecordsSeen := 0, expectedDataRecords := none, highestAddressWritten := start }
        phase := .callClrst } s

/-- The end of the stream (R217). -/
def endOfStream (d : DecodeCall) (s : State) : Host.Outcome State Fault Refusal :=
  match d.scan.expectedDataRecords with
  | none => finishCall (.decoded (d.scan.highestAddressWritten - d.start) d.buffer) s
  | some n =>
    if n = d.scan.dataRecordsSeen then
      finishCall (.decoded (d.scan.highestAddressWritten - d.start) d.buffer) s
    else failCall (.recordCountMismatch n d.scan.dataRecordsSeen) s

/-- The next line is counted, noise included (R203), and skipped when it is noise (R205). -/
def nextLine (d : DecodeCall) (s : State) : Host.Outcome State Fault Refusal :=
  match d.lines with
  | [] => endOfStream d s
  | l :: rest =>
    goDecode
      { d with
        lines := rest, line := l, scan := { d.scan with lineNumber := d.scan.lineNumber + 1 }
        phase := if l.head? = some sentinel then .classify else .nextLine } s

/-- After `CLASSIFY ch(1)` (R206, R207): `RES[3:0]` is the class, `RES[5:4]` the width code. -/
def afterClassify (d : DecodeCall) (s : State) : Host.Outcome State Fault Refusal :=
  if s.ok then goDecode { d with phase := .length (s.res.extractLsb' 0 4) (s.res.extractLsb' 4 2) } s
  else malformed d none s

/-- After `HEXBYTE ch(2), ch(3)` (R206, R207): the length field. -/
def afterLength (d : DecodeCall) (cls : BitVec 4) (c : WidthCode) (s : State) : Host.Outcome State Fault Refusal :=
  if s.ok then goDecode { d with phase := .firstDigit { cls := cls, c := c, len := s.res.extractLsb' 0 8 } } s
  else malformed d none s

/-- DATA16, DATA24 and DATA32 (R208). -/
def isDataClass (cls : BitVec 4) : Bool :=
  cls == RecordClass.data16.number || cls == RecordClass.data24.number || cls == RecordClass.data32.number

/-- COUNT (R208). -/
def isCountClass (cls : BitVec 4) : Bool := cls == RecordClass.count.number

/-- The characters the window reads, `ch(4) .. ch(11)` (R209). -/
def windowText (line : List Byte) : List Byte := (List.range winDigits).map fun k => charAt line (4 + k)

/-- After `HEXNIB ch(4)` (R206), the dispatch on the class (R208), with the count record's length check (R211). -/
def dispatch (d : DecodeCall) (r : RecordHead) (s : State) : Host.Outcome State Fault Refusal :=
  if !s.ok then malformed d none s
  else if isDataClass r.cls then goDecode { d with phase := .window r (wscan (windowText d.line)) } s
  else if isCountClass r.cls then
    if r.len ≠ 3 then failCall (.malformedCountRecord d.scan.lineNumber) s
    else goDecode { d with phase := .window r (wscan (windowText d.line)) } s
  else goDecode { d with phase := .nextLine } s

/-- The code UNPACK is issued with: `c` for a data record (R209), 1 for a count record (R131, R211). -/
def unpackCode (r : RecordHead) : WidthCode := if isCountClass r.cls then 1 else r.c

/-- After UNPACK: the address digits check (R209, R211), and the count (R211). -/
def afterUnpack (d : DecodeCall) (r : RecordHead) (s : State) : Host.Outcome State Fault Refusal :=
  if !s.ok then malformed d none s
  else if isCountClass r.cls then
    goDecode { d with scan := { d.scan with expectedDataRecords := some s.res.toNat }, phase := .nextLine } s
  else goDecode { d with phase := .payloadLength r s.res.toNat } s

/-- A data record passed all its checks (R215). -/
def recordDone (d : DecodeCall) (address p : Nat) : DecodeCall :=
  { d with
    scan :=
      { d.scan with
        highestAddressWritten :=
          if 1 ≤ p then max d.scan.highestAddressWritten (address + p) else d.scan.highestAddressWritten
        dataRecordsSeen := d.scan.dataRecordsSeen + 1 }
    phase := .nextLine }

/-- After PLEN (R210): the payload, or the end of a record that has none (R215). -/
def afterPayloadLength (d : DecodeCall) (r : RecordHead) (address : Nat) (s : State) :
    Host.Outcome State Fault Refusal :=
  if !s.ok then malformed d none s
  else if s.res.toNat = 0 then goDecode (recordDone d address 0) s
  else goDecode { d with phase := .payload r address s.res.toNat 0 } s

/-- After the HEXBYTE of payload byte `i` (R213, R214): the pair first, then the range, then the write. -/
def afterPayloadByte (d : DecodeCall) (r : RecordHead) (address p i : Nat) (s : State) :
    Host.Outcome State Fault Refusal :=
  if !s.ok then malformed d (some i) s
  else if ¬(d.start ≤ address ∧ address + p ≤ d.stop) then
    failCall (.addressOutOfRange address d.scan.lineNumber) s
  else
    match d.buffer.write (address - d.start + i) (s.res.extractLsb' 0 8) with
    | none => .fault .bufferIndex
    | some m =>
      if i + 1 < p then goDecode { d with buffer := m, phase := .payload r address p (i + 1) } s
      else goDecode (recordDone { d with buffer := m } address p) s

/-- The position of payload byte `i`'s first character, `4 + 2W + 2i` (R212). -/
def payloadAt (c : WidthCode) (i : Nat) : Nat := 4 + 2 * addressBytes c + 2 * i

/-- One step of a decode call. -/
def decodeStep (d : DecodeCall) (s : State) : Host.Outcome State Fault Refusal :=
  match d.phase with
  | .callClrst => issue .clrst (goDecode { d with phase := .callWclr }) s
  | .callWclr => issue .wclr (goDecode { d with phase := .callCkclr }) s
  | .callCkclr => issue .ckclr (goDecode { d with phase := .nextLine }) s
  | .nextLine => nextLine d s
  | .classify => issue (.classify (charAt d.line 1)) (afterClassify d) s
  | .length cls c => issue (.hexbyte (charAt d.line 2) (charAt d.line 3)) (afterLength d cls c) s
  | .firstDigit r => issue (.hexnib (charAt d.line 4)) (dispatch d r) s
  | .window r (i :: todo) => issue i (goDecode { d with phase := .window r todo }) s
  | .window r [] => issue (.unpack (unpackCode r)) (afterUnpack d r) s
  | .payloadLength r address => issue (.plen r.c r.len) (afterPayloadLength d r address) s
  | .payload r address p i =>
    issue (.hexbyte (charAt d.line (payloadAt r.c i)) (charAt d.line (payloadAt r.c i + 1)))
      (afterPayloadByte d r address p i) s

end Sys2Proof.Machine
end

