-- ==== Sys2Proof/Machine/HostEncode.lean ====
section
/-! DEFINITION. The host's encoder around the block (48_host_sequencing.md R220 to R230), one step at a time: each
step issues at most one command (log 7). -/

namespace Sys2Proof.Machine

/-- The encode call goes on with this state of the routine. -/
def goEncode (e : EncodeCall) (s : State) : Host.Outcome State Fault Refusal :=
  .next { s with host := .encoding e }

/-- `encode(stream, buffer, start, end)` is called (R220, R221): the EncodeCursor is created. -/
def startEncode (buffer : Memory) (start stop : Nat) (s : State) : Host.Outcome State Fault Refusal :=
  if !callOk buffer start stop then .refused .callPrecondition
  else
    goEncode
      { start := start, stop := stop, buffer := buffer, currentAddress := start, currentBlockBase := none
        out := [], phase := .callClrst } s

/-- The block number of an address, `a >> 16` (20_memory.md R47). -/
def blockOf (a : Nat) : Nat := a / blockSize

/-- The chunk length: `min(32, end - currentAddress)` (R223), clamped at a 64K boundary (R224). -/
def chunkLength (address stop : Nat) : Nat :=
  if address % blockSize + min chunkMax (stop - address) > blockSize - 1 then blockSize - address % blockSize
  else min chunkMax (stop - address)

/-- The announcement condition (R225). -/
def announces (cfg : Config) (e : EncodeCall) : Bool :=
  decide (e.currentBlockBase ≠ some (blockOf e.currentAddress)) ||
    (cfg.announceEveryChunkIfWide && decide (e.stop - e.start > blockSize))

/-- `idx = currentAddress >> 16` (R226). -/
def blockIndex (address : Nat) : Half := BitVec.ofNat 16 (blockOf address)

/-- `a16 = currentAddress mod 65536` (R227). -/
def lowAddress (address : Nat) : Half := BitVec.ofNat 16 (address % blockSize)

/-- The commands of the announcement's checksum (R155, R226). -/
def announcementSum (idx : Half) : List Instr :=
  ckrec 0x02 0x0000 0x04 [idx.extractLsb' 8 8, idx.extractLsb' 0 8] 0x00

/-- The commands of the data record's checksum (R156, R227). -/
def dataSum (cfg : Config) (a16 : Half) (payload : List Byte) : List Instr :=
  ckrec (BitVec.ofNat 8 payload.length) a16 cfg.dataCksumType payload 0x04

/-- The data record of the chunk of `n` bytes at the cursor begins (R227). -/
def startData (e : EncodeCall) (n : Nat) (s : State) : Host.Outcome State Fault Refusal :=
  match e.buffer.readBytes (e.currentAddress - e.start) n with
  | none => .fault .bufferIndex
  | some payload =>
    goEncode
      { e with phase := .checksum (.data payload) (dataSum s.cfg (lowAddress e.currentAddress) payload) } s

/-- The announcement before the chunk of `n` bytes at the cursor begins (R226). -/
def startAnnouncement (e : EncodeCall) (n : Nat) (s : State) : Host.Outcome State Fault Refusal :=
  goEncode
    { e with
      phase :=
        .checksum (.announce (blockIndex e.currentAddress) n) (announcementSum (blockIndex e.currentAddress)) } s

/-- The next chunk (R222 to R225), or the terminator at the end of the range (R222, R229). -/
def nextChunk (e : EncodeCall) (s : State) : Host.Outcome State Fault Refusal :=
  if e.currentAddress = e.stop then finishCall (.encoded (e.out ++ withLineFeed terminatorText)) s
  else if announces s.cfg e then startAnnouncement e (chunkLength e.currentAddress e.stop) s
  else startData e (chunkLength e.currentAddress e.stop) s

/-- The announcement is written with the checksum `RES` holds, and the block is the last announced (R226); the
chunk's data record follows. -/
def writeAnnouncement (e : EncodeCall) (idx : Half) (n : Nat) (s : State) : Host.Outcome State Fault Refusal :=
  startData
    { e with
      out := e.out ++ withLineFeed (announcementText idx (s.res.extractLsb' 0 8))
      currentBlockBase := some idx.toNat } n s

/-- The data record is written with the checksum `RES` holds (R227), and the cursor moves on (R228). -/
def writeData (e : EncodeCall) (payload : List Byte) (s : State) : Host.Outcome State Fault Refusal :=
  goEncode
    { e with
      out :=
        e.out ++ withLineFeed (dataText (lowAddress e.currentAddress) payload (s.res.extractLsb' 0 8))
      currentAddress := e.currentAddress + payload.length
      phase := .chunk } s

/-- One step of an encode call, which begins with `CLRST`, `WCLR`, `CKCLR` as every call does (R202, R221, R293). -/
def encodeStep (e : EncodeCall) (s : State) : Host.Outcome State Fault Refusal :=
  match e.phase with
  | .callClrst => issue .clrst (goEncode { e with phase := .callWclr }) s
  | .callWclr => issue .wclr (goEncode { e with phase := .callCkclr }) s
  | .callCkclr => issue .ckclr (goEncode { e with phase := .chunk }) s
  | .chunk => nextChunk e s
  | .checksum job (i :: todo) => issue i (goEncode { e with phase := .checksum job todo }) s
  | .checksum (.announce idx n) [] => writeAnnouncement e idx n s
  | .checksum (.data payload) [] => writeData e payload s

end Sys2Proof.Machine
end

