-- ==== Sys2Proof/Machine/Port.lean ====
section
/-! DEFINITION. Where the next command comes from (10_state.md R20, R21, R34): the call in progress, or the command
port. -/

namespace Sys2Proof.Machine

/-- The word of an idle command port: "a host that drives an idle command port with zero changes nothing" (R170;
log 3). -/
def idleWord : Word := 0x00000000

/-- No call is in progress: the host's next action (R21, R34). -/
def portStep (s : State) : Host.Outcome State Fault Refusal :=
  match s.port with
  | [] => command idleWord s
  | .command w :: rest => command w { s with port := rest }
  | .decodeCall stream buffer start stop :: rest => startDecode stream buffer start stop { s with port := rest }
  | .encodeCall buffer start stop :: rest => startEncode buffer start stop { s with port := rest }

/-- One step of the host, and of the block where the host issues a command. -/
def hostStep (s : State) : Host.Outcome State Fault Refusal :=
  match s.host with
  | .idle => portStep s
  | .decoding d => decodeStep d s
  | .encoding e => encodeStep e s

/-- The reset input is sampled between two commands (R290): asserted, it resets the block and no command is
performed in this step. -/
def sampleReset (s : State) : Host.Outcome State Fault Refusal :=
  match s.resetInput with
  | [] => hostStep s
  | false :: rest => hostStep { s with resetInput := rest }
  | true :: rest => .next (resetBlock { s with resetInput := rest })

end Sys2Proof.Machine
end

