-- ==== Sys2Proof/Machine/Step.lean ====
section
/-! DEFINITION. One step of the machine (00_scope.md R3). -/

namespace Sys2Proof.Machine

/-- One step. -/
def step (s : State) : Host.Outcome State Fault Refusal := sampleReset s

/-- The state whose next step performs this command word: the reset input not asserted, no call in progress, and
the word at the head of the command port (log 2). -/
def State.withFetchWord (s : State) (nbits w : Nat) : State :=
  { s with
    host := .idle
    port := .command (BitVec.ofNat 32 (w % 2 ^ nbits)) :: s.port
    resetInput := [] }

end Sys2Proof.Machine
end

