-- ==== Sys2Proof/Safety.lean ====
section
/-! DEFINITION. The terms statements use: runs, the spec's readings of words and characters written without the
machine's own functions, the invariant, and the text an encode call writes. -/

namespace Sys2Proof.Machine

/-! ### Runs -/

/-- Commands performed one after the other, each seeing every effect of the one before (R48). -/
def runCommands : List Instr → State → Host.Outcome State Fault Refusal
  | [], s => .next s
  | i :: rest, s =>
    match exec i s with
    | .next t => runCommands rest t
    | .fault f => .fault f
    | .refused r => .refused r

/-- `k` steps of the machine. -/
def runSteps : Nat → State → Host.Outcome State Fault Refusal
  | 0, s => .next s
  | k + 1, s =>
    match step s with
    | .next t => runSteps k t
    | .fault f => .fault f
    | .refused r => .refused r

/-- Some number of steps leads from one state to the other. -/
def Reaches (s t : State) : Prop := ∃ k, runSteps k s = .next t

/-! ### The spec's own readings -/

/-- The character is a hex digit of this value (R100), `lower` being `HEX_LOWER`. -/
def DigitValue (lower : Bool) (c : Byte) (n : Nat) : Prop :=
  (n < 10 ∧ c.toNat = 0x30 + n) ∨ (10 ≤ n ∧ n < 16 ∧ c.toNat = 0x41 + (n - 10)) ∨
    (10 ≤ n ∧ n < 16 ∧ c.toNat = 0x61 + (n - 10) ∧ lower = true)

/-- The character is no hex digit (R100, last row). -/
def NotDigit (lower : Bool) (c : Byte) : Prop := ∀ n, ¬DigitValue lower c n

/-- The value of digits, most significant first: the sum of `d_j * 16^(k-1-j)` (R12, R23). -/
def hexValue : List Nat → Nat
  | [] => 0
  | d :: rest => d * 16 ^ rest.length + hexValue rest

/-- A hex pair stands for this byte, high nibble first (R102). -/
def PairValue (lower : Bool) (pair : Byte × Byte) (v : Byte) : Prop :=
  ∃ h l, DigitValue lower pair.1 h ∧ DigitValue lower pair.2 l ∧ v.toNat = 16 * h + l

/-- The word is illegal (R67), by its bits: `w.toNat / 2 ^ 28` is `OP`. -/
def IllegalWord (w : Word) : Prop :=
  0xD ≤ w.toNat / 2 ^ 28 ∨
    (w.toNat / 2 ^ 28 ∈ [0x0, 0x3, 0x8, 0xC] ∧ w.toNat % 2 ^ 28 ≠ 0) ∨
    (w.toNat / 2 ^ 28 ∈ [0x1, 0x4, 0x6, 0x9, 0xB] ∧ w.toNat / 2 ^ 8 % 2 ^ 20 ≠ 0) ∨
    (w.toNat / 2 ^ 28 ∈ [0x2, 0xA] ∧ w.toNat / 2 ^ 16 % 2 ^ 12 ≠ 0) ∨
    (w.toNat / 2 ^ 28 ∈ [0x5, 0x7] ∧
      (w.toNat / 2 ^ 26 % 4 ≠ 0 ∨ w.toNat / 2 ^ 8 % 2 ^ 16 ≠ 0 ∨ w.toNat / 2 ^ 24 % 4 = 0)) ∨
    (w.toNat / 2 ^ 28 = 0x5 ∧ w.toNat % 2 ^ 8 ≠ 0)

/-- The sum of bytes as numbers. -/
def byteSum : List Byte → Nat
  | [] => 0
  | b :: rest => b.toNat + byteSum rest

/-- The checksum of R154 as a number, from the sum of its summands and its bias. -/
def checksumNat (sum bias : Nat) : Nat := (512 - sum % 256 - bias % 256) % 256

/-- The window function of R121 as a number: what the shift of UNPACK acts on. -/
def State.windowNat (s : State) : Nat :=
  if s.wcnt = 0 then 0
  else
    match s.cfg.windowFill with
    | .zeroFill => s.wacc.toNat * 2 ^ (4 * (8 - s.wcnt.toNat)) % 2 ^ 32
    | .asRead => s.wacc.toNat

/-- The preconditions of a decode or encode call (R200, R220; log 12). -/
abbrev CallPrecondition (buffer : Memory) (start stop : Nat) : Prop :=
  start ≤ stop ∧ stop ≤ 2 ^ 32 ∧ buffer.size = stop - start ∧ buffer.wf = true

/-! ### Invariants -/

/-- The window registers as R23 to R25 describe them. -/
def State.WindowOk (s : State) : Prop :=
  s.wcnt.toNat ≤ 8 ∧ (s.wcnt.toNat = 8 → s.wstop = true) ∧ s.wacc.toNat < 16 ^ s.wcnt.toNat

/-- A data record's header carries a legal width code (R73, R207). -/
def headOk (cls : BitVec 4) (c : WidthCode) : Prop := isDataClass cls = true → c ≠ 0

/-- What holds of a decode call at each point of the routine. -/
def DecodeCall.PhaseOk (d : DecodeCall) : Prop :=
  match d.phase with
  | .callClrst => True
  | .callWclr => True
  | .callCkclr => True
  | .nextLine => True
  | .classify => True
  | .length cls c => headOk cls c
  | .firstDigit r => headOk r.cls r.c
  | .window r todo =>
    headOk r.cls r.c ∧ (isDataClass r.cls = true ∨ isCountClass r.cls = true) ∧
      ∀ i ∈ todo, i.wellFormed = true ∧ i.reserved = false
  | .payloadLength r address => isDataClass r.cls = true ∧ r.c ≠ 0 ∧ address < 2 ^ 32
  | .payload r address p i =>
    isDataClass r.cls = true ∧ r.c ≠ 0 ∧ address < 2 ^ 32 ∧ r.len.toNat = p + r.c.toNat + 2 ∧ i < p ∧
      (0 < i → d.start ≤ address ∧ address + p ≤ d.stop)

/-- What holds of a decode call in progress (R200, R201, R204, R214, R215). -/
def DecodeCall.Ok (d : DecodeCall) : Prop :=
  callOk d.buffer d.start d.stop = true ∧ linesOk d.lines = true ∧
    d.start ≤ d.scan.highestAddressWritten ∧ d.scan.highestAddressWritten ≤ d.stop ∧ d.PhaseOk

/-- What holds of the line the encoder works on (R224, R226, R227). -/
def EncodeCall.JobOk (e : EncodeCall) : LineJob → Prop
  | .announce idx n =>
    e.currentAddress < e.stop ∧ idx.toNat = blockOf e.currentAddress ∧ n = chunkLength e.currentAddress e.stop
  | .data payload =>
    1 ≤ payload.length ∧ payload.length ≤ chunkMax ∧ e.currentAddress + payload.length ≤ e.stop ∧
      e.currentAddress % blockSize + payload.length ≤ blockSize

/-- What holds of an encode call at each point of the routine. -/
def EncodeCall.PhaseOk (e : EncodeCall) : Prop :=
  match e.phase with
  | .callClrst => True
  | .callWclr => True
  | .callCkclr => True
  | .chunk => True
  | .checksum job todo => e.JobOk job ∧ ∀ i ∈ todo, i.wellFormed = true ∧ i.reserved = false

/-- What holds of an encode call in progress (R220, R221). -/
def EncodeCall.Ok (e : EncodeCall) : Prop :=
  callOk e.buffer e.start e.stop = true ∧ e.start ≤ e.currentAddress ∧ e.currentAddress ≤ e.stop ∧ e.PhaseOk

/-- What holds of the host. -/
def HostCall.Ok : HostCall → Prop
  | .idle => True
  | .decoding d => d.Ok
  | .encoding e => e.Ok

/-- What holds of the last result: the count is of bytes of the buffer, whose cells are canonical (R217). -/
def resultOk : Option CallResult → Prop
  | none => True
  | some (.decoded n buffer) => n ≤ buffer.size ∧ buffer.wf = true
  | some (.failed _) => True
  | some (.encoded _) => True

/-- The invariant of the machine. -/
def State.Inv (s : State) : Prop := s.WindowOk ∧ s.host.Ok ∧ resultOk s.result

/-! ### What an encode call writes -/

/-- The character of an upper-case hex digit (R79). -/
def upperDigit (n : Nat) : Byte := BitVec.ofNat 8 (if n < 10 then 0x30 + n else 0x41 + (n - 10))

/-- Two hex digits of a number below 256, most significant first (R79, R230). -/
def text2 (v : Nat) : List Byte := [upperDigit (v / 16 % 16), upperDigit (v % 16)]

/-- Four hex digits of a number below 65536, most significant first (R79, R230). -/
def text4 (v : Nat) : List Byte := text2 (v / 256) ++ text2 v

/-- The announcement line, character by character: `S0`, `02`, `0000`, the block index, the checksum of R155 and a
line feed (R76, R81, R226). -/
def announcementLine (address : Nat) : List Byte :=
  [0x53, 0x30, 0x30, 0x32, 0x30, 0x30, 0x30, 0x30] ++ text4 (address / 65536) ++
    text2 (checksumNat (6 + address / 65536 / 256 + address / 65536 % 256) 0) ++ [0x0A]

/-- The data line, character by character: `S1`, the payload's length and 3, the address modulo 65536, the payload, the
checksum of R156 and a line feed (R77, R81, R227). -/
def dataLine (cfg : Config) (address : Nat) (payload : List Byte) : List Byte :=
  [0x53, 0x31] ++ text2 (payload.length + 3) ++ text4 (address % 65536) ++ payload.flatMap (fun b => text2 b.toNat) ++
    text2
      (checksumNat
        (payload.length + address % 256 + address / 256 % 256 + cfg.dataCksumType.toNat + byteSum payload) 4) ++
    [0x0A]

/-- The terminator line `S9030000FC` (R78, R81, R229). -/
def terminatorLine : List Byte := [0x53, 0x39, 0x30, 0x33, 0x30, 0x30, 0x30, 0x30, 0x46, 0x43, 0x0A]

/-- The bytes of a buffer, from an index on. -/
def bufferBytes (m : Memory) (i n : Nat) : List Byte := (List.range n).map fun k => cellsRead m.cells (i + k)

/-- The lines of R222 to R229 from a cursor on; `fuel` bounds the number of chunks. -/
def encodedFrom (cfg : Config) (m : Memory) (start stop : Nat) : Nat → Nat → Option Nat → List Byte
  | 0, _, _ => terminatorLine
  | fuel + 1, address, base =>
    if address = stop then terminatorLine
    else
      (if base ≠ some (address / 65536) ∨ (cfg.announceEveryChunkIfWide = true ∧ 65536 < stop - start) then
          announcementLine address
        else []) ++
        dataLine cfg address (bufferBytes m (address - start) (chunkLength address stop)) ++
        encodedFrom cfg m start stop fuel (address + chunkLength address stop) (some (address / 65536))

/-- The text of `encode` on a buffer and a range (R220 to R230). -/
def encodedText (cfg : Config) (m : Memory) (start stop : Nat) : List Byte :=
  encodedFrom cfg m start stop (stop - start) start none

end Sys2Proof.Machine
end

