-- ==== Sys2Proof/Certificates/Slice0/Obligations.lean ====
section
/-! DEFINITION. The statements for the provers. Each docstring names the rules of spec/ it formalises. A clause that
rests on a choice of the model's names its log entry. -/

open Sys2Proof Sys2Proof.Machine

/-! ### Encoding -/

/-- Every well-formed instruction, with every operand the encoding admits, is read back from its own word
(R60 to R68). -/
def Obligations.DecodeReadsBackEveryEncodedInstruction : Prop :=
  ∀ i : Instr, i.wellFormed = true → decode (encode i) = .ok i

/-- A word that decodes is the word of the instruction it decodes to, which is well formed: no bit of a decoded word
is ignored (R60 to R68). -/
def Obligations.EncodeReturnsEveryDecodedWord : Prop :=
  ∀ (w : Word) (i : Instr), decode w = .ok i → encode i = w ∧ i.wellFormed = true

/-- The opcode map and the operands, by the bits of the word (R65, R66, R68): a legal word is its command with its
operands, and an illegal one is no legal command. -/
def Obligations.LegalWordsAreTheirCommands : Prop :=
  ∀ w : Word,
    (¬IllegalWord w →
      decode w =
        .ok
          (match w.toNat / 2 ^ 28 with
          | 0x0 => .nop
          | 0x1 => .hexnib (BitVec.ofNat 8 w.toNat)
          | 0x2 => .hexbyte (BitVec.ofNat 8 (w.toNat / 2 ^ 8)) (BitVec.ofNat 8 w.toNat)
          | 0x3 => .wclr
          | 0x4 => .wpush (BitVec.ofNat 8 w.toNat)
          | 0x5 => .unpack (BitVec.ofNat 2 (w.toNat / 2 ^ 24))
          | 0x6 => .classify (BitVec.ofNat 8 w.toNat)
          | 0x7 => .plen (BitVec.ofNat 2 (w.toNat / 2 ^ 24)) (BitVec.ofNat 8 w.toNat)
          | 0x8 => .ckclr
          | 0x9 => .ckadd (BitVec.ofNat 8 w.toNat)
          | 0xA => .ckadd16 (BitVec.ofNat 16 w.toNat)
          | 0xB => .ckfin (BitVec.ofNat 8 w.toNat)
          | _ => .clrst)) ∧
    (IllegalWord w → ∀ i, decode w = .ok i → i.reserved = true)

/-- An illegal word, of whatever kind, sets `ILL` and changes nothing else, and `ILL` then stays 1 through every
command but `CLRST`, and until reset (R31, R67, R172, R262). -/
def Obligations.IllegalWordSetsIllAndNothingElse : Prop :=
  (∀ (w : Word) (s : State), IllegalWord w → command w s = .next { s with ill := true }) ∧
    (∀ (w : Word) (s t : State), s.ill = true → w ≠ 0xC0000000 → command w s = .next t → t.ill = true) ∧
    (∀ (s : State), ∃ t, command 0xC0000000 s = .next t ∧ t.ill = false) ∧
    (∀ (s : State) (rest : List Bool), s.resetInput = true :: rest → ∃ t, step s = .next t ∧ t.ill = false)

/-- Words written out from the encodings of R61 to R65 decode to the commands they stand for. A sanity check. The last
conjunct is the model's choice (log 16): a word of a reserved opcode stands for no command, it is illegal (R67, R68,
R172), and the model carries it as a constructor whose one effect is the illegal-command outcome. -/
def Obligations.SampleWordsDecodeRight : Prop :=
  decode 0x00000000 = .ok .nop ∧ decode 0x10000043 = .ok (.hexnib 0x43) ∧
    decode 0x20003242 = .ok (.hexbyte 0x32 0x42) ∧ decode 0x51000000 = .ok (.unpack 1) ∧
    decode 0x7100002B = .ok (.plen 1 0x2B) ∧ decode 0xA0001234 = .ok (.ckadd16 0x1234) ∧
    decode 0xC0000000 = .ok .clrst ∧ decode 0xE1234567 = .ok (.reservedE 0x1234567)

/-! ### Steps, reset and the output ports -/

/-- With the host idle and the reset input not asserted, a step performs the next command word: it takes the word
off the port and is exec of the command it decodes to, or the illegal-command outcome (R3, R21, R68; the port's form
is the model's, log 2). -/
def Obligations.StepPerformsTheNextCommand : Prop :=
  ∀ (s : State) (w : Word) (rest : List HostAction),
    s.host = .idle → s.resetInput = [] → s.port = .command w :: rest →
      (∀ i, decode w = .ok i → step s = exec i { s with port := rest }) ∧
      (∀ e, decode w = .error e → step s = .next { s with port := rest, ill := true })

/-- A reset input that is sampled low changes nothing else: the step is the one without it (R290; log 4). -/
def Obligations.ResetInputLowIsNoReset : Prop :=
  ∀ (s : State) (rest : List Bool),
    s.resetInput = false :: rest → step s = hostStep { s with resetInput := rest }

/-- Reset sets every register of the block to its value of R37, whatever the host is doing, and changes no parameter;
`STATUS` then reads 0 (R290; what else of the machine stays is the model's choice, log 4). -/
def Obligations.ResetSetsEveryRegister : Prop :=
  ∀ (s : State) (rest : List Bool),
    s.resetInput = true :: rest →
      ∃ t, step s = .next t ∧
        t = { s with
              wacc := 0, wcnt := 0, wstop := false, ckacc := 0, res := 0, ok := false, errs := false, ill := false
              resetInput := rest } ∧
        readStatus t = 0x00000000 ∧ readRes t = 0x00000000

/-- Every piece of state of the block after reset, and the `STATUS` port, which then reads zero (R37). -/
def Obligations.ResetStateIsTheSpecs : Prop :=
  State.reset.wacc = 0x00000000 ∧ State.reset.wcnt = 0 ∧ State.reset.wstop = false ∧ State.reset.ckacc = 0x00 ∧
    State.reset.res = 0x00000000 ∧ State.reset.ok = false ∧ State.reset.errs = false ∧ State.reset.ill = false ∧
    readStatus State.reset = 0x00000000

/-- The fields of the `STATUS` port: `OK`, `ERRS`, `ILL`, the mirrors of `WSTOP` and `WCNT`, and zeros above (R28,
R32). -/
def Obligations.StatusPortShowsEveryFlag : Prop :=
  ∀ s : State,
    (readStatus s).toNat =
      s.ok.toNat + 2 * s.errs.toNat + 4 * s.ill.toNat + 8 * s.wstop.toNat + 16 * s.wcnt.toNat

/-- With no call in progress and nothing on the port, a step changes nothing (R170's idle port of zeros; log 3). -/
def Obligations.IdlePortChangesNothing : Prop :=
  ∀ s : State, s.host = .idle → s.port = [] → s.resetInput = [] → step s = .next s

/-! ### What each command does -/

/-- HEXNIB (R100, R101): its encoding, its illegal words, and its result for a digit and for any other character. -/
def Obligations.HexnibReadsOneDigit : Prop :=
  (∀ b : Byte, decode (BitVec.ofNat 32 (0x10000000 + b.toNat)) = .ok (.hexnib b)) ∧
    (∀ (w : Word) (s : State), w.toNat / 2 ^ 28 = 0x1 → w.toNat / 2 ^ 8 % 2 ^ 20 ≠ 0 →
      command w s = .next { s with ill := true }) ∧
    (∀ (s : State) (b : Byte) (n : Nat), DigitValue s.cfg.hexLower b n →
      exec (.hexnib b) s = .next { s with res := BitVec.ofNat 32 n, ok := true }) ∧
    (∀ (s : State) (b : Byte), NotDigit s.cfg.hexLower b →
      exec (.hexnib b) s = .next { s with res := 0, ok := false, errs := true })

/-- HEXBYTE (R102): high nibble first; no partial nibble is kept. -/
def Obligations.HexbyteReadsAPairHighNibbleFirst : Prop :=
  (∀ hi lo : Byte, decode (BitVec.ofNat 32 (0x20000000 + 256 * hi.toNat + lo.toNat)) = .ok (.hexbyte hi lo)) ∧
    (∀ (w : Word) (s : State), w.toNat / 2 ^ 28 = 0x2 → w.toNat / 2 ^ 16 % 2 ^ 12 ≠ 0 →
      command w s = .next { s with ill := true }) ∧
    (∀ (s : State) (hi lo : Byte) (h l : Nat), DigitValue s.cfg.hexLower hi h → DigitValue s.cfg.hexLower lo l →
      exec (.hexbyte hi lo) s = .next { s with res := BitVec.ofNat 32 (16 * h + l), ok := true }) ∧
    (∀ (s : State) (hi lo : Byte), NotDigit s.cfg.hexLower hi ∨ NotDigit s.cfg.hexLower lo →
      exec (.hexbyte hi lo) s = .next { s with res := 0, ok := false, errs := true })

/-- WCLR (R122). -/
def Obligations.WclrClearsTheWindow : Prop :=
  decode 0x30000000 = .ok .wclr ∧
    (∀ (w : Word) (s : State), w.toNat / 2 ^ 28 = 0x3 → w.toNat % 2 ^ 28 ≠ 0 →
      command w s = .next { s with ill := true }) ∧
    (∀ s : State, exec .wclr s = .next { s with wacc := 0, wcnt := 0, wstop := false, res := 0, ok := true })

/-- WPUSH (R123): a scan that is over, a consumed digit with the eighth ending the scan, and a character that ends it;
`ERRS` never changes. -/
def Obligations.WpushScansGreedily : Prop :=
  (∀ b : Byte, decode (BitVec.ofNat 32 (0x40000000 + b.toNat)) = .ok (.wpush b)) ∧
    (∀ (w : Word) (s : State), w.toNat / 2 ^ 28 = 0x4 → w.toNat / 2 ^ 8 % 2 ^ 20 ≠ 0 →
      command w s = .next { s with ill := true }) ∧
    (∀ (s : State) (b : Byte), s.wstop = true → exec (.wpush b) s = .next { s with res := s.wacc, ok := false }) ∧
    (∀ (s : State) (b : Byte) (n : Nat), s.wstop = false → DigitValue s.cfg.hexLower b n →
      exec (.wpush b) s =
        .next
          { s with
            wacc := BitVec.ofNat 32 (16 * s.wacc.toNat + n), wcnt := s.wcnt + 1, wstop := decide (s.wcnt + 1 = 8)
            res := BitVec.ofNat 32 (16 * s.wacc.toNat + n), ok := true }) ∧
    (∀ (s : State) (b : Byte), s.wstop = false → NotDigit s.cfg.hexLower b →
      exec (.wpush b) s = .next { s with wstop := true, res := s.wacc, ok := false })

/-- UNPACK (R120, R121, R125, R126): the window's value under either `WINDOW_FILL`, shifted right by `8 * (3 - c)`. -/
def Obligations.UnpackShiftsTheWindow : Prop :=
  (∀ c : WidthCode, c ≠ 0 → decode (BitVec.ofNat 32 (0x50000000 + 2 ^ 24 * c.toNat)) = .ok (.unpack c)) ∧
    (∀ (w : Word) (s : State), w.toNat / 2 ^ 28 = 0x5 →
      (w.toNat / 2 ^ 24 % 4 = 0 ∨ w.toNat / 2 ^ 26 % 4 ≠ 0 ∨ w.toNat % 2 ^ 24 ≠ 0) →
      command w s = .next { s with ill := true }) ∧
    (∀ s : State, exec (.unpack 0) s = .next { s with ill := true }) ∧
    (∀ (s : State) (c : WidthCode), c ≠ 0 → s.wcnt.toNat ≤ 8 ∨ s.cfg.windowFill = .asRead →
      exec (.unpack c) s =
        .next
          { s with
            res := BitVec.ofNat 32 (s.windowNat / 2 ^ (8 * (3 - c.toNat)))
            ok := decide (2 * (c.toNat + 1) ≤ s.wcnt.toNat)
            errs := s.errs || decide (s.wcnt.toNat < 2 * (c.toNat + 1)) })

/-- Where UNPACK stops: only under ZERO_FILL with a digit count above 8, which the spec calls never reached (R24) and
treats as stuck (I13). The fault is the model's form of it (log 5). -/
def Obligations.UnpackStopsOnlyOnAnUnreachableCount : Prop :=
  ∀ (s : State) (c : WidthCode) (f : Fault),
    exec (.unpack c) s = .fault f ↔
      c ≠ 0 ∧ s.cfg.windowFill = .zeroFill ∧ 8 < s.wcnt.toNat ∧ f = .windowCount

/-- CLASSIFY (R73, R128): `RES[3:0]` the class number, `RES[5:4]` the width code, for each type digit. -/
def Obligations.ClassifyGivesClassAndWidthCode : Prop :=
  (∀ b : Byte, decode (BitVec.ofNat 32 (0x60000000 + b.toNat)) = .ok (.classify b)) ∧
    (∀ (w : Word) (s : State), w.toNat / 2 ^ 28 = 0x6 → w.toNat / 2 ^ 8 % 2 ^ 20 ≠ 0 →
      command w s = .next { s with ill := true }) ∧
    (∀ (s : State) (b : Byte) (n : Nat), DigitValue s.cfg.hexLower b n →
      exec (.classify b) s =
        .next
          { s with
            res :=
              [0x00, 0x11, 0x22, 0x33, 0x04, 0x15, 0x07, 0x06, 0x06, 0x06, 0x07, 0x07, 0x07, 0x07, 0x07, 0x07].getD n 0
            ok := true }) ∧
    (∀ (s : State) (b : Byte), NotDigit s.cfg.hexLower b →
      exec (.classify b) s = .next { s with res := 7, ok := false, errs := true })

/-- PLEN (R130): `len - c - 2`, or its 32-bit two's complement with `OK = 0` when it is negative. -/
def Obligations.PlenGivesThePayloadLength : Prop :=
  (∀ (c : WidthCode) (len : Byte), c ≠ 0 →
      decode (BitVec.ofNat 32 (0x70000000 + 2 ^ 24 * c.toNat + len.toNat)) = .ok (.plen c len)) ∧
    (∀ (w : Word) (s : State), w.toNat / 2 ^ 28 = 0x7 →
      (w.toNat / 2 ^ 24 % 4 = 0 ∨ w.toNat / 2 ^ 26 % 4 ≠ 0 ∨ w.toNat / 2 ^ 8 % 2 ^ 16 ≠ 0) →
      command w s = .next { s with ill := true }) ∧
    (∀ (s : State) (len : Byte), exec (.plen 0 len) s = .next { s with ill := true }) ∧
    (∀ (s : State) (c : WidthCode) (len : Byte), c ≠ 0 → c.toNat + 2 ≤ len.toNat →
      exec (.plen c len) s = .next { s with res := BitVec.ofNat 32 (len.toNat - (c.toNat + 2)), ok := true }) ∧
    (∀ (s : State) (c : WidthCode) (len : Byte), c ≠ 0 → len.toNat < c.toNat + 2 →
      exec (.plen c len) s =
        .next
          { s with res := BitVec.ofNat 32 (2 ^ 32 - (c.toNat + 2 - len.toNat)), ok := false, errs := true })

/-- CKCLR (R150). -/
def Obligations.CkclrClearsTheSum : Prop :=
  decode 0x80000000 = .ok .ckclr ∧
    (∀ (w : Word) (s : State), w.toNat / 2 ^ 28 = 0x8 → w.toNat % 2 ^ 28 ≠ 0 →
      command w s = .next { s with ill := true }) ∧
    (∀ s : State, exec .ckclr s = .next { s with ckacc := 0, res := 0, ok := true })

/-- CKADD (R151): addition modulo 256. -/
def Obligations.CkaddAddsModulo256 : Prop :=
  (∀ b : Byte, decode (BitVec.ofNat 32 (0x90000000 + b.toNat)) = .ok (.ckadd b)) ∧
    (∀ (w : Word) (s : State), w.toNat / 2 ^ 28 = 0x9 → w.toNat / 2 ^ 8 % 2 ^ 20 ≠ 0 →
      command w s = .next { s with ill := true }) ∧
    (∀ (s : State) (b : Byte),
      exec (.ckadd b) s =
        .next
          { s with
            ckacc := BitVec.ofNat 8 ((s.ckacc.toNat + b.toNat) % 256)
            res := BitVec.ofNat 32 ((s.ckacc.toNat + b.toNat) % 256), ok := true })

/-- CKADD16 (R152): both bytes are added, as by two CKADD. -/
def Obligations.Ckadd16AddsBothBytes : Prop :=
  (∀ h : Half, decode (BitVec.ofNat 32 (0xA0000000 + h.toNat)) = .ok (.ckadd16 h)) ∧
    (∀ (w : Word) (s : State), w.toNat / 2 ^ 28 = 0xA → w.toNat / 2 ^ 16 % 2 ^ 12 ≠ 0 →
      command w s = .next { s with ill := true }) ∧
    (∀ (s : State) (h : Half),
      exec (.ckadd16 h) s =
        .next
          { s with
            ckacc := BitVec.ofNat 8 ((s.ckacc.toNat + h.toNat % 256 + h.toNat / 256) % 256)
            res := BitVec.ofNat 32 ((s.ckacc.toNat + h.toNat % 256 + h.toNat / 256) % 256), ok := true }) ∧
    (∀ (s : State) (h : Half),
      exec (.ckadd16 h) s =
        runCommands [.ckadd (BitVec.ofNat 8 h.toNat), .ckadd (BitVec.ofNat 8 (h.toNat / 256))] s)

/-- CKFIN (R153): `(-CKACC - b) mod 256`, with `CKACC` kept. -/
def Obligations.CkfinFinalisesTheSum : Prop :=
  (∀ b : Byte, decode (BitVec.ofNat 32 (0xB0000000 + b.toNat)) = .ok (.ckfin b)) ∧
    (∀ (w : Word) (s : State), w.toNat / 2 ^ 28 = 0xB → w.toNat / 2 ^ 8 % 2 ^ 20 ≠ 0 →
      command w s = .next { s with ill := true }) ∧
    (∀ (s : State) (b : Byte),
      exec (.ckfin b) s =
        .next { s with res := BitVec.ofNat 32 ((512 - s.ckacc.toNat - b.toNat) % 256), ok := true })

/-- NOP (R170). -/
def Obligations.NopChangesNothing : Prop :=
  decode 0x00000000 = .ok .nop ∧
    (∀ (w : Word) (s : State), w.toNat / 2 ^ 28 = 0x0 → w.toNat % 2 ^ 28 ≠ 0 →
      command w s = .next { s with ill := true }) ∧
    (∀ s : State, exec .nop s = .next s)

/-- CLRST (R171). -/
def Obligations.ClrstClearsTheStickyFlags : Prop :=
  decode 0xC0000000 = .ok .clrst ∧
    (∀ (w : Word) (s : State), w.toNat / 2 ^ 28 = 0xC → w.toNat % 2 ^ 28 ≠ 0 →
      command w s = .next { s with ill := true }) ∧
    (∀ s : State, exec .clrst s = .next { s with errs := false, ill := false })

/-- The reserved opcodes (R172): any word with one of them sets `ILL` and changes nothing else. -/
def Obligations.ReservedOpcodesOnlySetIll : Prop :=
  ∀ (s : State) (x : BitVec 28),
    exec (.reservedD x) s = .next { s with ill := true } ∧ exec (.reservedE x) s = .next { s with ill := true } ∧
      exec (.reservedF x) s = .next { s with ill := true } ∧
      command (BitVec.ofNat 32 (0xD0000000 + x.toNat)) s = .next { s with ill := true } ∧
      command (BitVec.ofNat 32 (0xE0000000 + x.toNat)) s = .next { s with ill := true } ∧
      command (BitVec.ofNat 32 (0xF0000000 + x.toNat)) s = .next { s with ill := true }

/-! ### Whole-block rules -/

/-- The flags after any command, and `RES` after one with no valid result, by its cause code (R29, R30, R31, R263):
`OK` is 1 exactly for a valid result; `ERRS` is set by causes B1 to B5 and cleared by `CLRST` alone; `ILL` by B7; `NOP`,
`CLRST` and an illegal command write neither `OK` nor `RES`; an illegal word has cause B7 and only sets `ILL`; reset
clears all. -/
def Obligations.FlagsFollowTheCauseOfEachCommand : Prop :=
  (∀ (i : Instr) (s t : State), exec i s = .next t →
    (t.errs = true ↔
      i ≠ .clrst ∧ (s.errs = true ∨ causeOf i s ∈ [some .b1, some .b2, some .b3, some .b4, some .b5])) ∧
    (t.ill = true ↔ i ≠ .clrst ∧ (s.ill = true ∨ causeOf i s = some .b7)) ∧
    (i = .nop ∨ i = .clrst ∨ causeOf i s = some .b7 → t.ok = s.ok ∧ t.res = s.res) ∧
    (¬(i = .nop ∨ i = .clrst ∨ causeOf i s = some .b7) → (t.ok = true ↔ causeOf i s = none)) ∧
    (causeOf i s = some .b1 ∨ causeOf i s = some .b2 → t.res = 0) ∧
    (∀ c, i = .unpack c → causeOf i s = some .b3 →
      t.res = BitVec.ofNat 32 (s.windowNat / 2 ^ (8 * (3 - c.toNat)))) ∧
    (causeOf i s = some .b4 → t.res = 7) ∧
    (∀ c len, i = .plen c len → causeOf i s = some .b5 →
      t.res = BitVec.ofNat 32 (2 ^ 32 - (c.toNat + 2 - len.toNat))) ∧
    (causeOf i s = some .b6 → t.res = s.wacc)) ∧
    (∀ (w : Word) (s : State), IllegalWord w →
      wordCause w s = some .b7 ∧ command w s = .next { s with ill := true }) ∧
    (∀ (s : State) (rest : List Bool), s.resetInput = true :: rest →
      ∃ t, step s = .next t ∧ t.errs = false ∧ t.ill = false ∧ t.ok = false ∧ t.res = 0)

/-- Only `WCLR` and `WPUSH` change the window registers, and only `CKCLR`, `CKADD` and `CKADD16` change `CKACC`
(R23 to R26). -/
def Obligations.OnlyTheirCommandsWriteWindowAndSum : Prop :=
  ∀ (i : Instr) (s t : State), exec i s = .next t →
    (i ≠ .wclr → (∀ b, i ≠ .wpush b) → t.wacc = s.wacc ∧ t.wcnt = s.wcnt ∧ t.wstop = s.wstop) ∧
      (i ≠ .ckclr → (∀ b, i ≠ .ckadd b) → (∀ h, i ≠ .ckadd16 h) → t.ckacc = s.ckacc)

/-- No command reads or writes memory, and none changes a parameter, the host or the inputs (R33, R40): in particular
every byte of a buffer the host holds reads as before. -/
def Obligations.CommandsTouchOnlyTheBlock : Prop :=
  ∀ (i : Instr) (s t : State), exec i s = .next t →
    t.cfg = s.cfg ∧ t.host = s.host ∧ t.result = s.result ∧ t.port = s.port ∧ t.resetInput = s.resetInput

/-- The block never stops (R260): every command, of every form, is answered with a next state wherever the digit
count is one the window can hold. -/
def Obligations.EveryCommandIsAnswered : Prop :=
  ∀ (i : Instr) (s : State), s.wcnt.toNat ≤ 8 → ∃ t, exec i s = .next t

/-- The window registers stay as R23 to R25 describe them, over every step of the machine, host calls and reset
included: at most 8 digits, the scan ended at 8, and a value below `16^WCNT`. -/
def Obligations.EveryStepKeepsTheWindow : Prop :=
  ∀ s t : State, s.WindowOk → step s = .next t → t.WindowOk

/-- The machine's invariant is kept by every step: the window, the buffers' canonical form and size, and what holds of
a decode or encode call at each point of its routine. -/
def Obligations.EveryStepKeepsTheMachineInvariant : Prop :=
  ∀ s t : State, s.Inv → step s = .next t → t.Inv

/-- The invariant holds at reset. The window's part rests on R37; that the host is then idle and no call has given a
result is the model's choice (log 6). -/
def Obligations.ResetMeetsTheMachineInvariant : Prop := State.reset.Inv

/-- A machine that meets the invariant never faults, so no host call reads or writes outside its buffer (R43, R214,
R230, R260); it refuses only a call whose preconditions fail (R200, R204, R220; log 9, 12). -/
def Obligations.MachineInInvariantNeverFaults : Prop :=
  ∀ s : State, s.Inv →
    (∃ t, step s = .next t) ∨
      (s.host = .idle ∧
        ((step s = .refused .callPrecondition ∧
            ∃ buffer start stop, ¬CallPrecondition buffer start stop ∧
              (s.port.head? = some (.encodeCall buffer start stop) ∨
                ∃ stream, s.port.head? = some (.decodeCall stream buffer start stop))) ∨
          (step s = .refused .lineTooLong ∧
            ∃ stream buffer start stop, s.port.head? = some (.decodeCall stream buffer start stop) ∧
              ∃ l ∈ splitLines stream, 255 < l.length)))

/-- No step changes a parameter (R7, R33, R290). -/
def Obligations.NoStepChangesAParameter : Prop :=
  ∀ s t : State, step s = .next t → t.cfg = s.cfg

/-- The host's own routines never issue an illegal command: during a call no step sets `ILL` (R67, R202 to R212,
R221 to R227). -/
def Obligations.HostCallsIssueOnlyLegalCommands : Prop :=
  ∀ s t : State, s.Inv → s.host ≠ .idle → step s = .next t → t.ill = true → s.ill = true

/-- The three commands of a call's start leave the reset state but for `RES` and `STATUS.OK` (R293). -/
def Obligations.CallStartCommandsClearTheBlock : Prop :=
  ∀ s : State,
    runCommands [.clrst, .wclr, .ckclr] s =
      .next
        { s with
          wacc := 0, wcnt := 0, wstop := false, ckacc := 0, errs := false, ill := false, res := 0, ok := true }

/-! ### Sequences of commands -/

/-- CKREC from any state leaves in `RES` the checksum of R154: the two's complement of the sum of all its summands
modulo 256, less the bias, modulo 256. The window, `ERRS` and `ILL` are unchanged. -/
def Obligations.CkrecLeavesTheRecordChecksum : Prop :=
  ∀ (s : State) (len : Byte) (half : Half) (type : Byte) (payload : List Byte) (bias : Byte),
    ∃ t, runCommands (ckrec len half type payload bias) s = .next t ∧
      (t.res.toNat : Int) =
        ((-((len.toNat + half.toNat % 256 + half.toNat / 256 + type.toNat + byteSum payload : Nat) : Int)) % 256 -
          bias.toNat) % 256 ∧
      t.ok = true ∧ t.wacc = s.wacc ∧ t.wcnt = s.wcnt ∧ t.wstop = s.wstop ∧ t.errs = s.errs ∧ t.ill = s.ill

/-- WSCAN from any state: the digits at the start of the string, up to eight or up to the first character that is no
digit, are in `WACC`, most significant first, their number is in `WCNT`, and the scan has ended (R23 to R25, R70,
R123). `CKACC`, `ERRS` and `ILL` are unchanged. -/
def Obligations.WscanHoldsTheDigitsOfTheField : Prop :=
  ∀ (s : State) (text cs rest : List Byte) (ds : List Nat),
    (List.range 8).map (fun k => text.getD k 0x0A) = cs ++ rest →
    List.Forall₂ (DigitValue s.cfg.hexLower) cs ds →
    (rest = [] ∨ ∃ c r, rest = c :: r ∧ NotDigit s.cfg.hexLower c) →
      ∃ t, runCommands (wscan text) s = .next t ∧ t.wacc.toNat = hexValue ds ∧ t.wcnt.toNat = ds.length ∧
        t.wstop = true ∧ t.ckacc = s.ckacc ∧ t.errs = s.errs ∧ t.ill = s.ill

/-- "The true address is recovered": WSCAN then UNPACK gives the value of the field's own `2W` digits, whatever is
over-read after them, under ZERO_FILL, and under either setting when eight digits were there (R120, R121, R125). -/
def Obligations.UnpackRecoversTheTrueAddress : Prop :=
  ∀ (s : State) (c : WidthCode) (text cs rest : List Byte) (field extra : List Nat),
    c ≠ 0 →
    (List.range 8).map (fun k => text.getD k 0x0A) = cs ++ rest →
    List.Forall₂ (DigitValue s.cfg.hexLower) cs (field ++ extra) →
    (rest = [] ∨ ∃ x r, rest = x :: r ∧ NotDigit s.cfg.hexLower x) →
    field.length = 2 * (c.toNat + 1) →
    (s.cfg.windowFill = .zeroFill ∨ rest = []) →
      ∃ t, runCommands (wscan text ++ [.unpack c]) s = .next t ∧ t.res.toNat = hexValue field ∧ t.ok = true ∧
        t.errs = s.errs ∧ t.ill = s.ill ∧ t.ckacc = s.ckacc

/-- The checksum of a data record with `DATA_CKSUM_TYPE = 0` makes its bytes, length field `P + 3` to checksum, sum to
`0xFF` modulo 256, and with 1 to `0xFE` (R156, R157). -/
def Obligations.DataRecordChecksumMeetsTheStandardCheck : Prop :=
  ∀ (s t : State) (a16 : Half) (type : Byte) (payload : List Byte), payload.length < 256 →
    runCommands (ckrec (BitVec.ofNat 8 payload.length) a16 type payload 4) s = .next t →
      (type = 0 →
        (payload.length + 3 + a16.toNat / 256 + a16.toNat % 256 + byteSum payload + t.res.toNat) % 256 = 0xFF) ∧
      (type = 1 →
        (payload.length + 3 + a16.toNat / 256 + a16.toNat % 256 + byteSum payload + t.res.toNat) % 256 = 0xFE)

/-- The checksum of a block announcement makes its wire bytes, `02 00 00 hi lo` and the checksum, sum to `0xFC` (R155,
R158). -/
def Obligations.AnnouncementChecksumSumsToFC : Prop :=
  ∀ (s t : State) (hi lo : Byte), runCommands (ckrec 2 0x0000 4 [hi, lo] 0) s = .next t →
    (2 + 0 + 0 + hi.toNat + lo.toNat + t.res.toNat) % 256 = 0xFC

/-! ### The host's buffer -/

/-- BufWrite inside the buffer is read back, leaves every other index as it was and keeps the canonical form; outside
it there is no byte to write or read (R10, R43; the cells' form is the model's, log 10). -/
def Obligations.BufferReadsBackWhatWasWritten : Prop :=
  ∀ (m : Memory) (i : Nat) (b : Byte), m.wf = true →
    (i < m.size →
      ∃ m', m.write i b = some m' ∧ m'.wf = true ∧ m'.size = m.size ∧ m'.read i = some b ∧
        ∀ j, j ≠ i → m'.read j = m.read j) ∧
    (m.size ≤ i → m.write i b = none ∧ m.read i = none)

/-! ### The decoder -/

/-- A decode call starts with ScanState as R201 gives it; a call whose preconditions fail, or whose stream has a line
of more than 255 characters, is refused (R200, R201, R204; log 9, 12). Its lines hold no line feed and, each followed by
one, give the stream back (R81); text after the last line feed is a line when it is not empty (log 8). -/
def Obligations.DecodeCallStartsOrIsRefused : Prop :=
  (∀ (s : State) (stream : List Byte) (buffer : Memory) (start stop : Nat) (rest : List HostAction),
    s.host = .idle → s.resetInput = [] → s.port = .decodeCall stream buffer start stop :: rest →
      (CallPrecondition buffer start stop →
        (∀ l ∈ splitLines stream, l.length ≤ 255) →
          step s =
            .next
              { s with
                port := rest
                host :=
                  .decoding
                    { start := start, stop := stop, buffer := buffer, lines := splitLines stream, line := []
                      scan :=
                        { lineNumber := 0, dataRecordsSeen := 0, expectedDataRecords := none
                          highestAddressWritten := start }
                      phase := .callClrst } }) ∧
      (CallPrecondition buffer start stop →
        (∃ l ∈ splitLines stream, 255 < l.length) → step s = .refused .lineTooLong) ∧
      (¬CallPrecondition buffer start stop → step s = .refused .callPrecondition)) ∧
    (∀ stream : List Byte,
      (∀ l ∈ splitLines stream, (0x0A : Byte) ∉ l) ∧
        (splitLines stream).flatMap (fun l => l ++ [0x0A]) =
          if stream = [] ∨ stream.getLast? = some 0x0A then stream else stream ++ [0x0A])

/-- At the start of a decode call and of an encode call the host issues CLRST, WCLR and CKCLR, so the block is cleared
before the first line or chunk (R202, R221, R293; the WCLR of an encode call: log 14). -/
def Obligations.CallsClearTheBlockFirst : Prop :=
  (∀ (s : State) (d : DecodeCall),
    s.resetInput = [] → s.host = .decoding d → d.phase = .callClrst →
      runSteps 3 s =
        .next
          { s with
            wacc := 0, wcnt := 0, wstop := false, ckacc := 0, errs := false, ill := false, res := 0, ok := true
            host := .decoding { d with phase := .nextLine } }) ∧
    (∀ (s : State) (e : EncodeCall),
      s.resetInput = [] → s.host = .encoding e → e.phase = .callClrst →
        runSteps 3 s =
          .next
            { s with
              wacc := 0, wcnt := 0, wstop := false, ckacc := 0, errs := false, ill := false, res := 0, ok := true
              host := .encoding { e with phase := .chunk } })

/-- A line that is empty or does not begin with `'S'` is skipped: only the line count changes (R203, R205). -/
def Obligations.NoiseLineOnlyCounts : Prop :=
  ∀ (s : State) (d : DecodeCall) (l : List Byte) (rest : List (List Byte)),
    s.resetInput = [] → s.host = .decoding d → d.phase = .nextLine → d.lines = l :: rest → l.head? ≠ some 0x53 →
      step s =
        .next
          { s with
            host :=
              .decoding
                { d with lines := rest, line := l, scan := { d.scan with lineNumber := d.scan.lineNumber + 1 } } }

/-- At the end of the stream, the counts are compared and the result is `highestAddressWritten - start` (R217). -/
def Obligations.EndOfStreamGivesTheResult : Prop :=
  ∀ (s : State) (d : DecodeCall),
    s.resetInput = [] → s.host = .decoding d → d.phase = .nextLine → d.lines = [] →
      (∀ n, d.scan.expectedDataRecords = some n → n ≠ d.scan.dataRecordsSeen →
        step s =
          .next
            { s with
              host := .idle, result := some (.failed (.recordCountMismatch n d.scan.dataRecordsSeen)) }) ∧
      ((∀ n, d.scan.expectedDataRecords = some n → n = d.scan.dataRecordsSeen) →
        step s =
          .next
            { s with
              host := .idle
              result := some (.decoded (d.scan.highestAddressWritten - d.start) d.buffer) })

/-- A line that begins with `'S'` and whose characters 1 to 4 are not all hex digits fails the call with
MalformedRecord and the line's number, and no buffer is given back (R206, R218, R265). -/
def Obligations.BadHeaderFailsWithTheLineNumber : Prop :=
  ∀ (s : State) (d : DecodeCall) (l : List Byte) (rest : List (List Byte)) (k : Nat),
    s.resetInput = [] → s.host = .decoding d → d.phase = .nextLine → d.lines = l :: rest → l.head? = some 0x53 →
    1 ≤ k → k ≤ 4 → NotDigit s.cfg.hexLower (l.getD k 0x0A) →
      ∃ t, Reaches s t ∧ t.host = .idle ∧
        t.result = some (.failed (.malformedRecord (d.scan.lineNumber + 1) none)) ∧ t.port = s.port

/-- A record whose class is HEADER, RESERVED, TERMINATOR or OTHER is skipped whatever follows its first five
characters: only the line count changes in the routine (R73, R208, R219). -/
def Obligations.OtherRecordsAreSkipped : Prop :=
  ∀ (s : State) (d : DecodeCall) (l : List Byte) (rest : List (List Byte)) (n l1 l2 a : Nat),
    s.resetInput = [] → s.host = .decoding d → d.phase = .nextLine → d.lines = l :: rest → l.head? = some 0x53 →
    DigitValue s.cfg.hexLower (l.getD 1 0x0A) n → DigitValue s.cfg.hexLower (l.getD 2 0x0A) l1 →
    DigitValue s.cfg.hexLower (l.getD 3 0x0A) l2 → DigitValue s.cfg.hexLower (l.getD 4 0x0A) a →
    (n = 0 ∨ n = 4 ∨ 6 ≤ n) →
      ∃ t, Reaches s t ∧ t.result = s.result ∧ t.port = s.port ∧ t.errs = s.errs ∧ t.ill = s.ill ∧
        t.host =
          .decoding { d with lines := rest, line := l, scan := { d.scan with lineNumber := d.scan.lineNumber + 1 } }

/-- A count record (R131, R211): with a length field other than 3 the call fails at once; with 3 and fewer than four
address digits it fails with MalformedRecord; with 3 and at least four their value is the expected count, a later record
replacing an earlier one, under ZERO_FILL, and under either setting when eight digits were there. -/
def Obligations.CountRecordSetsTheExpectedCount : Prop :=
  ∀ (s : State) (d : DecodeCall) (l : List Byte) (rest : List (List Byte)) (l1 l2 a0 : Nat),
    s.resetInput = [] → s.host = .decoding d → d.phase = .nextLine → d.lines = l :: rest → l.head? = some 0x53 →
    l.getD 1 0x0A = 0x35 → DigitValue s.cfg.hexLower (l.getD 2 0x0A) l1 →
    DigitValue s.cfg.hexLower (l.getD 3 0x0A) l2 → DigitValue s.cfg.hexLower (l.getD 4 0x0A) a0 →
      (16 * l1 + l2 ≠ 3 →
        ∃ t, Reaches s t ∧ t.host = .idle ∧
          t.result = some (.failed (.malformedCountRecord (d.scan.lineNumber + 1)))) ∧
      (16 * l1 + l2 = 3 → (∃ k, 5 ≤ k ∧ k ≤ 7 ∧ NotDigit s.cfg.hexLower (l.getD k 0x0A)) →
        ∃ t, Reaches s t ∧ t.host = .idle ∧
          t.result = some (.failed (.malformedRecord (d.scan.lineNumber + 1) none))) ∧
      (∀ a1 a2 a3, 16 * l1 + l2 = 3 →
        (s.cfg.windowFill = .zeroFill ∨ ∀ k, 8 ≤ k → k ≤ 11 → ∃ n, DigitValue s.cfg.hexLower (l.getD k 0x0A) n) →
        DigitValue s.cfg.hexLower (l.getD 5 0x0A) a1 → DigitValue s.cfg.hexLower (l.getD 6 0x0A) a2 →
        DigitValue s.cfg.hexLower (l.getD 7 0x0A) a3 →
        ∃ t, Reaches s t ∧ t.result = s.result ∧ t.errs = s.errs ∧ t.ill = s.ill ∧
          t.host =
            .decoding
              { d with
                lines := rest, line := l
                scan :=
                  { d.scan with
                    lineNumber := d.scan.lineNumber + 1
                    expectedDataRecords := some (hexValue [a0, a1, a2, a3]) } })

/-- A data record's address field of fewer than `2W` digits fails the call (R209), and so does a length field below
`c + 2` (R210), each with MalformedRecord and the line number. -/
def Obligations.ShortAddressOrLengthFails : Prop :=
  (∀ (s : State) (d : DecodeCall) (r : RecordHead),
    s.resetInput = [] → s.host = .decoding d → d.phase = .window r [] → isDataClass r.cls = true → r.c ≠ 0 →
    s.wcnt.toNat < 2 * (r.c.toNat + 1) →
      ∃ t, step s = .next t ∧ t.host = .idle ∧
        t.result = some (.failed (.malformedRecord d.scan.lineNumber none))) ∧
    (∀ (s : State) (d : DecodeCall) (r : RecordHead) (address : Nat),
      s.resetInput = [] → s.host = .decoding d → d.phase = .payloadLength r address → r.c ≠ 0 →
      r.len.toNat < r.c.toNat + 2 →
        ∃ t, step s = .next t ∧ t.host = .idle ∧
          t.result = some (.failed (.malformedRecord d.scan.lineNumber none)))

/-- One payload byte (R212, R213, R214): a bad pair fails with the line number and the byte's offset, before the range
is looked at; a good pair in a record out of range fails with the record's address and the line number; otherwise the
byte is written at `A - start + i` and no other byte of the buffer changes. -/
def Obligations.PayloadByteIsCheckedThenWritten : Prop :=
  ∀ (s : State) (d : DecodeCall) (r : RecordHead) (address p i : Nat),
    s.resetInput = [] → s.host = .decoding d → d.phase = .payload r address p i → d.Ok →
      (NotDigit s.cfg.hexLower (d.line.getD (4 + 2 * (r.c.toNat + 1) + 2 * i) 0x0A) ∨
          NotDigit s.cfg.hexLower (d.line.getD (5 + 2 * (r.c.toNat + 1) + 2 * i) 0x0A) →
        ∃ t, step s = .next t ∧ t.host = .idle ∧
          t.result = some (.failed (.malformedRecord d.scan.lineNumber (some i)))) ∧
      (∀ v, PairValue s.cfg.hexLower
            (d.line.getD (4 + 2 * (r.c.toNat + 1) + 2 * i) 0x0A, d.line.getD (5 + 2 * (r.c.toNat + 1) + 2 * i) 0x0A) v →
        (¬(d.start ≤ address ∧ address + p ≤ d.stop) →
          ∃ t, step s = .next t ∧ t.host = .idle ∧
            t.result = some (.failed (.addressOutOfRange address d.scan.lineNumber))) ∧
        (d.start ≤ address ∧ address + p ≤ d.stop →
          ∃ t d', step s = .next t ∧ t.host = .decoding d' ∧ d'.lines = d.lines ∧
            d'.buffer.size = d.buffer.size ∧ d'.buffer.read (address - d.start + i) = some v ∧
            ∀ j, j ≠ address - d.start + i → d'.buffer.read j = d.buffer.read j))

/-- A whole data record (R72, R207 to R216): from the line to the next one, every payload byte is in the buffer at its
address, no other byte of the buffer changed, the highest address and the record count follow R215, and nothing after
the payload, checksum included, matters. Under AS_READ the window must hold eight digits, or the address is another. -/
def Obligations.DataRecordFillsTheBuffer : Prop :=
  ∀ (s : State) (d : DecodeCall) (c : WidthCode) (t1 n1 n2 : Byte) (l1 l2 : Nat) (addr : List Byte)
    (field : List Nat) (pairs : List (Byte × Byte)) (payload tail : List Byte) (rest : List (List Byte)),
    s.resetInput = [] → s.host = .decoding d → d.phase = .nextLine → d.Ok →
    d.lines = ([0x53, t1, n1, n2] ++ addr ++ pairs.flatMap (fun q => [q.1, q.2]) ++ tail) :: rest →
    c ≠ 0 → DigitValue s.cfg.hexLower t1 c.toNat →
    DigitValue s.cfg.hexLower n1 l1 → DigitValue s.cfg.hexLower n2 l2 →
    16 * l1 + l2 = payload.length + c.toNat + 2 →
    List.Forall₂ (DigitValue s.cfg.hexLower) addr field → field.length = 2 * (c.toNat + 1) →
    List.Forall₂ (PairValue s.cfg.hexLower) pairs payload →
    (s.cfg.windowFill = .zeroFill ∨
      ∀ k < 8, ∃ n, DigitValue s.cfg.hexLower ((addr ++ pairs.flatMap (fun q => [q.1, q.2]) ++ tail).getD k 0x0A) n) →
    (1 ≤ payload.length → d.start ≤ hexValue field ∧ hexValue field + payload.length ≤ d.stop) →
      ∃ (t : State) (m : Memory), Reaches s t ∧
        t.host =
          .decoding
            { d with
              buffer := m
              lines := rest
              line := [0x53, t1, n1, n2] ++ addr ++ pairs.flatMap (fun q => [q.1, q.2]) ++ tail
              scan :=
                { d.scan with
                  lineNumber := d.scan.lineNumber + 1
                  dataRecordsSeen := d.scan.dataRecordsSeen + 1
                  highestAddressWritten :=
                    if 1 ≤ payload.length then max d.scan.highestAddressWritten (hexValue field + payload.length)
                    else d.scan.highestAddressWritten } } ∧
        m.wf = true ∧ m.size = d.buffer.size ∧
        (∀ k (h : k < payload.length), m.read (hexValue field - d.start + k) = some payload[k]) ∧
        (∀ j, (∀ k < payload.length, j ≠ hexValue field - d.start + k) → m.read j = d.buffer.read j) ∧
        t.cfg = s.cfg ∧ t.port = s.port ∧ t.resetInput = [] ∧ t.result = s.result ∧ t.errs = s.errs ∧
        t.ill = s.ill ∧ t.ckacc = s.ckacc

/-! ### The encoder -/

/-- An encode call starts with the EncodeCursor of R221, or is refused when its preconditions fail (R220, R221;
log 12). -/
def Obligations.EncodeCallStartsOrIsRefused : Prop :=
  ∀ (s : State) (buffer : Memory) (start stop : Nat) (rest : List HostAction),
    s.host = .idle → s.resetInput = [] → s.port = .encodeCall buffer start stop :: rest →
      (CallPrecondition buffer start stop →
        step s =
          .next
            { s with
              port := rest
              host :=
                .encoding
                  { start := start, stop := stop, buffer := buffer, currentAddress := start
                    currentBlockBase := none, out := [], phase := .callClrst } }) ∧
      (¬CallPrecondition buffer start stop → step s = .refused .callPrecondition)

/-- A chunk of a range that is not exhausted (R223, R224): one to 32 bytes, inside the range and inside one 64K block,
and no shorter than the range, the cap and the block allow. -/
def Obligations.ChunkStaysInRangeAndBlock : Prop :=
  ∀ address stop : Nat, address < stop →
    1 ≤ chunkLength address stop ∧ chunkLength address stop ≤ 32 ∧ address + chunkLength address stop ≤ stop ∧
      address / 65536 = (address + chunkLength address stop - 1) / 65536 ∧
      (chunkLength address stop = 32 ∨ address + chunkLength address stop = stop ∨
        (address + chunkLength address stop) % 65536 = 0)

/-- Each chunk is written as R225 to R228 say, in the characters of R76 and R77 (announcementLine and dataLine of
Sys2Proof/Safety.lean spell them out): the announcement first when the block is new, when none was announced, or before
every chunk of a wide range when the parameter asks for it; then the data record with the chunk's bytes and its
checksum; then the cursor moves on. -/
def Obligations.ChunkIsAnnouncedAndWritten : Prop :=
  ∀ (s : State) (e : EncodeCall),
    s.resetInput = [] → s.host = .encoding e → e.phase = .chunk → e.Ok → e.currentAddress < e.stop →
      ∃ (t : State) (payload : List Byte), Reaches s t ∧
        payload.length = chunkLength e.currentAddress e.stop ∧
        (∀ k (h : k < payload.length),
          e.buffer.read (e.currentAddress - e.start + k) = some payload[k]) ∧
        t.host =
          .encoding
            { e with
              out :=
                e.out ++
                  (if e.currentBlockBase ≠ some (e.currentAddress / 65536) ∨
                      (s.cfg.announceEveryChunkIfWide = true ∧ 65536 < e.stop - e.start) then
                    announcementLine e.currentAddress
                  else []) ++
                  dataLine s.cfg e.currentAddress payload
              currentAddress := e.currentAddress + payload.length
              currentBlockBase := some (e.currentAddress / 65536) } ∧
        t.cfg = s.cfg ∧ t.port = s.port ∧ t.resetInput = [] ∧ t.result = s.result ∧ t.errs = s.errs ∧ t.ill = s.ill

/-- When the range is exhausted the encoder writes one terminator, the literal `S9030000FC`, and the call ends (R222,
R229). -/
def Obligations.EncodeEndsWithTheTerminator : Prop :=
  ∀ (s : State) (e : EncodeCall),
    s.resetInput = [] → s.host = .encoding e → e.phase = .chunk → e.currentAddress = e.stop →
      step s =
        .next
          { s with
            host := .idle
            result :=
              some (.encoded (e.out ++ [0x53, 0x39, 0x30, 0x33, 0x30, 0x30, 0x30, 0x30, 0x46, 0x43, 0x0A])) }

/-- `HEX2` writes two upper-case digits of the byte's value, most significant first, and `HEX4` four (R79, R230); they
are the characters in which the statements below write out the encoder's lines. -/
def Obligations.WrittenDigitsAreUpperCase : Prop :=
  (∀ v : Byte, List.Forall₂ (DigitValue false) (hex2 v) [v.toNat / 16, v.toNat % 16]) ∧
    (∀ v : Half, List.Forall₂ (DigitValue false) (hex4 v)
      [v.toNat / 4096, v.toNat / 256 % 16, v.toNat / 16 % 16, v.toNat % 16]) ∧
    (∀ v : Byte, hex2 v = text2 v.toNat) ∧ (∀ v : Half, hex4 v = text4 v.toNat)

/-- A whole encode call: from any state whose next action is a well-formed call, the machine ends the call with the
text R222 to R229 give, in the characters of R76 to R78 (encodedText of Sys2Proof/Safety.lean spells them out), and
never fails (R220). -/
def Obligations.EncodeWritesTheWholeText : Prop :=
  ∀ (s : State) (buffer : Memory) (start stop : Nat) (rest : List HostAction),
    s.host = .idle → s.resetInput = [] → s.port = .encodeCall buffer start stop :: rest →
    start ≤ stop → stop ≤ 2 ^ 32 → buffer.size = stop - start → buffer.wf = true →
      ∃ t, Reaches s t ∧ t.host = .idle ∧ t.port = rest ∧
        t.result = some (.encoded (encodedText s.cfg buffer start stop)) ∧ t.cfg = s.cfg ∧ t.resetInput = []

/-- The content round trip of R231, for every buffer in the first 64K and whatever the parameters: the text an encode
call writes, decoded into any buffer of the same range, gives back exactly the encoded buffer. -/
def Obligations.EncodedTextDecodesToTheSameBuffer : Prop :=
  ∀ (s : State) (source : Memory) (start stop : Nat) (rest : List HostAction),
    s.host = .idle → s.resetInput = [] → s.port = .encodeCall source start stop :: rest →
    start ≤ stop → stop ≤ 65536 → source.size = stop - start → source.wf = true →
      ∃ (t : State) (text : List Byte), Reaches s t ∧ t.host = .idle ∧ t.port = rest ∧
        t.result = some (.encoded text) ∧
        ∀ (u : State) (target : Memory) (next : List HostAction),
          u.host = .idle → u.resetInput = [] → u.port = .decodeCall text target start stop :: next →
          target.size = stop - start → target.wf = true →
            ∃ v, Reaches u v ∧ v.host = .idle ∧ v.port = next ∧
              v.result = some (.decoded (stop - start) source)
end

