-- ==== Sys2Proof/Laws/Memory.lean ====
section
/-! SUPPORT. The host's buffer: a read after a write, the canonical form kept, equal contents are equal data. -/

namespace Sys2Proof.Machine

/-- An index below every listed one reads as the unlisted byte. -/
theorem cellsRead_lt (size : Nat) : ∀ (l : List Host.Cell) lo, cellsWf size lo l = true → ∀ k < lo,
    cellsRead l k = unlistedByte := by
  intro l
  induction l with
  | nil => intro _ _ _ _; rfl
  | cons c l ihl =>
    intro lo hl k hk
    obtain ⟨a, v⟩ := c
    simp only [cellsWf, Bool.and_eq_true, decide_eq_true_eq] at hl
    simp only [cellsRead]
    rw [if_neg (by omega)]
    exact ihl _ hl.2 k (by omega)

/-- A byte written at an index is what that index reads as, and no other index changes. -/
theorem cellsRead_cellsWrite (size : Nat) (cells : List Host.Cell) :
    ∀ lo i b j, cellsWf size lo cells = true → cellsRead (cellsWrite cells i b) j = if j = i then b else cellsRead
        cells j := by
  induction cells with
  | nil =>
    intro lo i b j _
    simp only [cellsWrite]
    split <;> rename_i hb <;> simp [cellsRead, hb, eq_comm]
  | cons cell rest ih =>
    intro lo i b j h
    obtain ⟨a, v⟩ := cell
    simp only [cellsWf, Bool.and_eq_true, decide_eq_true_eq] at h
    obtain ⟨⟨⟨hlo, hsize⟩, hv⟩, hrest⟩ := h
    simp only [cellsWrite]
    split
    · rename_i hia
      split
      · rename_i hb
        by_cases hji : j = i
        · subst hji
          rw [if_pos rfl, hb]
          simp only [cellsRead]
          rw [if_neg (by omega)]
          exact cellsRead_lt size rest _ hrest j (by omega)
        · rw [if_neg hji]
      · simp only [cellsRead, eq_comm (a := i)]
    · split
      · rename_i hia
        subst hia
        split
        · rename_i hb
          by_cases hji : j = i
          · subst hji
            rw [if_pos rfl, hb]
            exact cellsRead_lt size rest _ hrest j (by omega)
          · rw [if_neg hji]
            simp [cellsRead, Ne.symm hji]
        · by_cases hji : j = i
          · simp [cellsRead, hji]
          · simp [cellsRead, hji, Ne.symm hji]
      · rename_i h1 h2
        simp only [cellsRead]
        by_cases haj : a = j
        · subst haj
          rw [if_pos rfl, if_neg (by omega), if_pos rfl]
        · rw [if_neg haj, if_neg haj]
          exact ih _ i b j hrest

/-- A write inside the buffer keeps the canonical form of the cells. -/
theorem cellsWf_cellsWrite (size : Nat) (cells : List Host.Cell) :
    ∀ lo i b, cellsWf size lo cells = true → lo ≤ i → i < size → cellsWf size lo (cellsWrite cells i b) = true := by
  induction cells with
  | nil =>
    intro lo i b _ hlo hi
    simp only [cellsWrite]
    split
    · rfl
    · rename_i hb
      simp [cellsWf, hlo, hi, hb]
  | cons cell rest ih =>
    intro lo i b h hlo hi
    obtain ⟨a, v⟩ := cell
    have h' := h
    simp only [cellsWf, Bool.and_eq_true, decide_eq_true_eq] at h
    obtain ⟨⟨⟨ha, hsize⟩, hv⟩, hrest⟩ := h
    have hweak : ∀ (l : List Host.Cell) lo' lo'', lo'' ≤ lo' → cellsWf size lo' l = true →
        cellsWf size lo'' l = true := by
      intro l lo' lo'' hle hl
      cases l with
      | nil => rfl
      | cons c l =>
        simp only [cellsWf, Bool.and_eq_true, decide_eq_true_eq] at hl ⊢
        exact ⟨⟨⟨by omega, hl.1.1.2⟩, hl.1.2⟩, hl.2⟩
    simp only [cellsWrite]
    split
    · split
      · exact h'
      · rename_i hia hb
        simp only [cellsWf, Bool.and_eq_true, decide_eq_true_eq]
        exact ⟨⟨⟨hlo, hi⟩, by simpa using hb⟩, ⟨⟨by omega, hsize⟩, hv⟩, hrest⟩
    · split
      · rename_i hia
        split
        · exact hweak rest _ _ (by omega) hrest
        · rename_i hb
          subst hia
          simp only [cellsWf, Bool.and_eq_true, decide_eq_true_eq]
          exact ⟨⟨⟨hlo, hi⟩, by simpa using hb⟩, hrest⟩
      · rename_i h1 h2
        simp only [cellsWf, Bool.and_eq_true, decide_eq_true_eq]
        exact ⟨⟨⟨ha, hsize⟩, hv⟩, ih _ i b hrest (by omega) hi⟩

/-- A write answers exactly when the index is inside the buffer. -/
theorem Memory.write_eq_some {m m' : Memory} {i : Nat} {b : Byte} :
    m.write i b = some m' ↔ i < m.size ∧ m' = { m with cells := cellsWrite m.cells i b } := by
  simp only [Memory.write]
  split
  · rename_i h; simp [h, eq_comm]
  · rename_i h; simp [h]

@[simp] theorem Memory.write_size {m m' : Memory} {i : Nat} {b : Byte} (h : m.write i b = some m') :
    m'.size = m.size := by
  obtain ⟨_, rfl⟩ := Memory.write_eq_some.mp h
  rfl

/-- Every write keeps the canonical form. -/
theorem Memory.write_wf {m m' : Memory} {i : Nat} {b : Byte} (hm : m.wf = true) (h : m.write i b = some m') :
    m'.wf = true := by
  obtain ⟨hi, rfl⟩ := Memory.write_eq_some.mp h
  exact cellsWf_cellsWrite m.size m.cells 0 i b hm (Nat.zero_le i) hi

/-- Read after write. -/
theorem Memory.read_write {m m' : Memory} {i : Nat} {b : Byte} (hm : m.wf = true) (h : m.write i b = some m')
    (j : Nat) : m'.read j = if j = i then some b else m.read j := by
  obtain ⟨hi, rfl⟩ := Memory.write_eq_some.mp h
  simp only [Memory.read]
  rw [cellsRead_cellsWrite m.size m.cells 0 i b j hm]
  by_cases hji : j = i
  · subst hji; simp [hi]
  · simp [hji]

/-- Bytes inside the buffer are all readable. -/
theorem Memory.readBytes_eq (m : Memory) : ∀ n i, i + n ≤ m.size →
    m.readBytes i n = some ((List.range n).map fun k => cellsRead m.cells (i + k)) := by
  intro n
  induction n with
  | zero => intro i _; rfl
  | succ n ih =>
    intro i h
    simp only [Memory.readBytes]
    rw [ih (i + 1) (by omega)]
    simp only [Memory.read, if_pos (show i < m.size by omega), List.range_succ_eq_map, List.map_cons, List.map_map]
    simp [Function.comp_def, Nat.add_assoc, Nat.add_comm 1]

/-- Cells in canonical form are determined by what their indices read as. -/
theorem cells_ext (size : Nat) : ∀ (l l' : List Host.Cell) lo, cellsWf size lo l = true → cellsWf size lo l' = true →
    (∀ j, cellsRead l j = cellsRead l' j) → l = l' := by
  intro l
  induction l with
  | nil =>
    intro l' lo _ h' hr
    cases l' with
    | nil => rfl
    | cons c l' =>
      obtain ⟨a, v⟩ := c
      simp only [cellsWf, Bool.and_eq_true] at h'
      have := hr a
      simp [cellsRead] at this
      simp [← this] at h'
  | cons c l ih =>
    intro l' lo h h' hr
    obtain ⟨a, v⟩ := c
    simp only [cellsWf, Bool.and_eq_true, decide_eq_true_eq, bne_iff_ne] at h
    cases l' with
    | nil =>
      have := hr a
      simp [cellsRead] at this
      exact absurd this h.1.2
    | cons c' l' =>
      obtain ⟨a', v'⟩ := c'
      simp only [cellsWf, Bool.and_eq_true, decide_eq_true_eq, bne_iff_ne] at h'
      have haa : a = a' := by
        rcases Nat.lt_trichotomy a a' with hlt | heq | hgt
        · have := hr a
          simp only [cellsRead, if_true] at this
          rw [if_neg (by omega), cellsRead_lt size l' _ h'.2 a (by omega)] at this
          exact absurd this h.1.2
        · exact heq
        · have := hr a'
          simp only [cellsRead, if_true] at this
          rw [if_neg (by omega), cellsRead_lt size l _ h.2 a' (by omega)] at this
          exact absurd this.symm h'.1.2
      subst haa
      have hv : v = v' := by simpa [cellsRead] using hr a
      subst hv
      congr 1
      refine ih l' (a + 1) h.2 h'.2 fun j => ?_
      by_cases hja : a = j
      · rw [cellsRead_lt size l _ h.2 j (by omega), cellsRead_lt size l' _ h'.2 j (by omega)]
      · simpa [cellsRead, hja] using hr j

/-- An index past the end of the buffer is not listed. -/
theorem cellsRead_ge (size : Nat) : ∀ (l : List Host.Cell) lo, cellsWf size lo l = true → ∀ j, size ≤ j →
    cellsRead l j = unlistedByte := by
  intro l
  induction l with
  | nil => intro _ _ _ _; rfl
  | cons c l ih =>
    intro lo h j hj
    obtain ⟨a, v⟩ := c
    simp only [cellsWf, Bool.and_eq_true, decide_eq_true_eq] at h
    simp only [cellsRead]
    rw [if_neg (by omega)]
    exact ih _ h.2 j hj

/-- Equal contents are equal data. -/
theorem Memory.ext_read {m m' : Memory} (hm : m.wf = true) (hm' : m'.wf = true) (hsize : m.size = m'.size)
    (h : ∀ j < m.size, m.read j = m'.read j) : m = m' := by
  obtain ⟨size, cells⟩ := m
  obtain ⟨size', cells'⟩ := m'
  obtain rfl : size = size' := hsize
  congr 1
  refine cells_ext size cells cells' 0 hm hm' fun j => ?_
  by_cases hj : j < size
  · simpa [Memory.read, hj] using h j hj
  · rw [cellsRead_ge size cells 0 hm j (by omega), cellsRead_ge size cells' 0 hm' j (by omega)]

end Sys2Proof.Machine
end

