-- ==== Sys2Proof/Laws/Encoding.lean ====
section
/-! SUPPORT. The formats of command words as numbers, and the fields the decoder takes from them. -/

namespace Sys2Proof

/-- An append, as a number. -/
theorem toNat_append_add {m n : Nat} (x : BitVec m) (y : BitVec n) :
    (x ++ y).toNat = x.toNat * 2 ^ n + y.toNat := by
  rw [BitVec.toNat_append, ← Nat.shiftLeft_add_eq_or_of_lt y.isLt, Nat.shiftLeft_eq]

theorem toNat_extract {n : Nat} (s m : Nat) (x : BitVec n) : (x.extractLsb' s m).toNat = x.toNat / 2 ^ s % 2 ^ m := by
  rw [BitVec.extractLsb'_toNat, Nat.shiftRight_eq_div_pow]

theorem zero_toNat (n : Nat) : (0 : BitVec n).toNat = 0 := by simp

theorem formatN_toNat (op : BitVec 4) : (formatN op).toNat = op.toNat * 2 ^ 28 := by
  simp only [formatN, toNat_append_add]; simp

theorem formatB_toNat (op : BitVec 4) (b : Byte) : (formatB op b).toNat = op.toNat * 2 ^ 28 + b.toNat := by
  simp only [formatB, toNat_append_add, zero_toNat]; omega

theorem formatH_toNat (op : BitVec 4) (h : Half) : (formatH op h).toNat = op.toNat * 2 ^ 28 + h.toNat := by
  simp only [formatH, toNat_append_add, zero_toNat]; omega

theorem formatW_toNat (op : BitVec 4) (c : WidthCode) (len : Byte) :
    (formatW op c len).toNat = op.toNat * 2 ^ 28 + c.toNat * 2 ^ 24 + len.toNat := by
  simp only [formatW, toNat_append_add, zero_toNat]; omega

theorem opcode_toNat (w : Word) : (opcode w).toNat = w.toNat / 2 ^ 28 := by
  have := w.isLt
  simp only [opcode, toNat_extract]; omega

theorem lowByte_toNat (w : Word) : (lowByte w).toNat = w.toNat % 2 ^ 8 := by
  simp only [lowByte, toNat_extract]; omega

theorem highByte_toNat (w : Word) : (highByte w).toNat = w.toNat / 2 ^ 8 % 2 ^ 8 := by
  simp only [highByte, toNat_extract]

theorem lowHalf_toNat (w : Word) : (lowHalf w).toNat = w.toNat % 2 ^ 16 := by
  simp only [lowHalf, toNat_extract]; omega

theorem widthField_toNat (w : Word) : (widthField w).toNat = w.toNat / 2 ^ 24 % 4 := by
  simp only [widthField, toNat_extract]; rfl

theorem below28_toNat (w : Word) : (below28 w).toNat = w.toNat % 2 ^ 28 := by
  simp only [below28, toNat_extract]; omega

/-- A bit vector equals zero when its number does. -/
theorem beq_zero_iff {n : Nat} (x : BitVec n) : (x == 0) = true ↔ x.toNat = 0 := by
  rw [beq_iff_eq, ← BitVec.toNat_inj]; simp

theorem zeroN_iff (w : Word) : zeroN w = true ↔ w.toNat % 2 ^ 28 = 0 := by
  rw [zeroN, beq_zero_iff, below28_toNat]

theorem zeroB_iff (w : Word) : zeroB w = true ↔ w.toNat / 2 ^ 8 % 2 ^ 20 = 0 := by
  rw [zeroB, beq_zero_iff, toNat_extract]

theorem zeroH_iff (w : Word) : zeroH w = true ↔ w.toNat / 2 ^ 16 % 2 ^ 12 = 0 := by
  rw [zeroH, beq_zero_iff, toNat_extract]

theorem zeroW_iff (w : Word) : zeroW w = true ↔ w.toNat / 2 ^ 26 % 4 = 0 ∧ w.toNat / 2 ^ 8 % 2 ^ 16 = 0 := by
  rw [zeroW, Bool.and_eq_true, beq_zero_iff, beq_zero_iff, toNat_extract, toNat_extract]; rfl

theorem legalCode_iff (c : WidthCode) : legalCode c = true ↔ c.toNat ≠ 0 := by
  rw [legalCode, bne_iff_ne, Ne, ← BitVec.toNat_inj]; simp

/-! ### Words of each format decode to their command -/

/-- The decoder's branch for an opcode number. -/
theorem decode_format {w : Word} {k : Nat} (h : w.toNat / 2 ^ 28 = k) : (opcode w).toNat = k := by
  rw [opcode_toNat, h]

theorem lowByte_formatB (op : BitVec 4) (b : Byte) : lowByte (formatB op b) = b := by
  apply BitVec.eq_of_toNat_eq
  have := b.isLt
  rw [lowByte_toNat, formatB_toNat]; omega

theorem zeroB_formatB (op : BitVec 4) (b : Byte) : zeroB (formatB op b) = true := by
  have := b.isLt
  rw [zeroB_iff, formatB_toNat]; omega

theorem opcode_formatB (op : BitVec 4) (b : Byte) : (opcode (formatB op b)).toNat = op.toNat := by
  have := b.isLt
  rw [opcode_toNat, formatB_toNat]; omega

theorem zeroN_formatN (op : BitVec 4) : zeroN (formatN op) = true := by
  rw [zeroN_iff, formatN_toNat]; omega

theorem opcode_formatN (op : BitVec 4) : (opcode (formatN op)).toNat = op.toNat := by
  rw [opcode_toNat, formatN_toNat]; omega

theorem zeroH_formatH (op : BitVec 4) (h : Half) : zeroH (formatH op h) = true := by
  have := h.isLt
  rw [zeroH_iff, formatH_toNat]; omega

theorem opcode_formatH (op : BitVec 4) (h : Half) : (opcode (formatH op h)).toNat = op.toNat := by
  have := h.isLt
  rw [opcode_toNat, formatH_toNat]; omega

theorem lowHalf_formatH (op : BitVec 4) (h : Half) : lowHalf (formatH op h) = h := by
  apply BitVec.eq_of_toNat_eq
  have := h.isLt
  rw [lowHalf_toNat, formatH_toNat]; omega

theorem lowByte_formatH (op : BitVec 4) (hi lo : Byte) : lowByte (formatH op (hi ++ lo)) = lo := by
  apply BitVec.eq_of_toNat_eq
  have := lo.isLt
  rw [lowByte_toNat, formatH_toNat, toNat_append_add]; omega

theorem highByte_formatH (op : BitVec 4) (hi lo : Byte) : highByte (formatH op (hi ++ lo)) = hi := by
  apply BitVec.eq_of_toNat_eq
  have := hi.isLt
  have := lo.isLt
  rw [highByte_toNat, formatH_toNat, toNat_append_add]; omega

theorem zeroW_formatW (op : BitVec 4) (c : WidthCode) (len : Byte) : zeroW (formatW op c len) = true := by
  have := c.isLt
  have := len.isLt
  rw [zeroW_iff, formatW_toNat]; omega

theorem opcode_formatW (op : BitVec 4) (c : WidthCode) (len : Byte) :
    (opcode (formatW op c len)).toNat = op.toNat := by
  have := c.isLt
  have := len.isLt
  rw [opcode_toNat, formatW_toNat]; omega

theorem widthField_formatW (op : BitVec 4) (c : WidthCode) (len : Byte) : widthField (formatW op c len) = c := by
  apply BitVec.eq_of_toNat_eq
  have := c.isLt
  have := len.isLt
  rw [widthField_toNat, formatW_toNat]; omega

theorem lowByte_formatW (op : BitVec 4) (c : WidthCode) (len : Byte) : lowByte (formatW op c len) = len := by
  apply BitVec.eq_of_toNat_eq
  have := c.isLt
  have := len.isLt
  rw [lowByte_toNat, formatW_toNat]; omega

theorem opcode_reserved (op : BitVec 4) (x : BitVec 28) : (opcode (op ++ x)).toNat = op.toNat := by
  have := x.isLt
  rw [opcode_toNat, toNat_append_add]; omega

theorem below28_reserved (op : BitVec 4) (x : BitVec 28) : below28 (op ++ x) = x := by
  apply BitVec.eq_of_toNat_eq
  have := x.isLt
  rw [below28_toNat, toNat_append_add]; omega

/-- The decoder as a match on the opcode number (R65). -/
theorem decode_op (w : Word) : decode w =
  match w.toNat / 2 ^ 28 with
  | 0x0 => ifZero (zeroN w) .nop
  | 0x1 => ifZero (zeroB w) (.hexnib (lowByte w))
  | 0x2 => ifZero (zeroH w) (.hexbyte (highByte w) (lowByte w))
  | 0x3 => ifZero (zeroN w) .wclr
  | 0x4 => ifZero (zeroB w) (.wpush (lowByte w))
  | 0x5 => decodeUnpack w
  | 0x6 => ifZero (zeroB w) (.classify (lowByte w))
  | 0x7 => decodePlen w
  | 0x8 => ifZero (zeroN w) .ckclr
  | 0x9 => ifZero (zeroB w) (.ckadd (lowByte w))
  | 0xA => ifZero (zeroH w) (.ckadd16 (lowHalf w))
  | 0xB => ifZero (zeroB w) (.ckfin (lowByte w))
  | 0xC => ifZero (zeroN w) .clrst
  | 0xD => .ok (.reservedD (below28 w))
  | 0xE => .ok (.reservedE (below28 w))
  | _ => .ok (.reservedF (below28 w)) := by
  rw [← opcode_toNat]; rfl

/-- A format's check passes exactly when its bits are zero (R67). -/
theorem ifZero_ok {b : Bool} {i j : Instr} : ifZero b i = .ok j ↔ b = true ∧ i = j := by
  cases b <;> simp [ifZero]

end Sys2Proof
end

