-- ==== Sys2Proof/Laws/PerInstr.lean ====
section
/-! SUPPORT. What is said of every instruction as syntax, one lemma per constructor. -/

namespace Sys2Proof.Laws.RoundTrip

/-- A well-formed instruction is read back from its own word (30_encoding.md R60 to R68). -/
def Statement (i : Instr) : Prop := i.wellFormed = true → decode (encode i) = .ok i

theorem nop : Statement .nop := fun _ => by
  simp [encode, decode, opcode_formatN, zeroN_formatN, ifZero]

theorem hexnib (b : Byte) : Statement (.hexnib b) := fun _ => by
  simp [encode, decode, opcode_formatB, zeroB_formatB, lowByte_formatB, ifZero]

theorem hexbyte (hi lo : Byte) : Statement (.hexbyte hi lo) := fun _ => by
  simp [encode, decode, opcode_formatH, zeroH_formatH, lowByte_formatH, highByte_formatH, ifZero]

theorem wclr : Statement .wclr := fun _ => by
  simp [encode, decode, opcode_formatN, zeroN_formatN, ifZero]

theorem wpush (b : Byte) : Statement (.wpush b) := fun _ => by
  simp [encode, decode, opcode_formatB, zeroB_formatB, lowByte_formatB, ifZero]

theorem unpack (c : WidthCode) : Statement (.unpack c) := fun h => by
  have hc : ¬c = 0#2 := by simpa [Instr.wellFormed, legalCode] using h
  simp only [encode, decode, opcode_formatW]
  simp [decodeUnpack, zeroW_formatW, widthField_formatW, lowByte_formatW, hc]

theorem classify (b : Byte) : Statement (.classify b) := fun _ => by
  simp [encode, decode, opcode_formatB, zeroB_formatB, lowByte_formatB, ifZero]

theorem plen (c : WidthCode) (len : Byte) : Statement (.plen c len) := fun h => by
  have hc : ¬c = 0#2 := by simpa [Instr.wellFormed, legalCode] using h
  simp only [encode, decode, opcode_formatW]
  simp [decodePlen, zeroW_formatW, widthField_formatW, lowByte_formatW, hc]

theorem ckclr : Statement .ckclr := fun _ => by
  simp [encode, decode, opcode_formatN, zeroN_formatN, ifZero]

theorem ckadd (b : Byte) : Statement (.ckadd b) := fun _ => by
  simp [encode, decode, opcode_formatB, zeroB_formatB, lowByte_formatB, ifZero]

theorem ckadd16 (h : Half) : Statement (.ckadd16 h) := fun _ => by
  simp [encode, decode, opcode_formatH, zeroH_formatH, lowHalf_formatH, ifZero]

theorem ckfin (b : Byte) : Statement (.ckfin b) := fun _ => by
  simp [encode, decode, opcode_formatB, zeroB_formatB, lowByte_formatB, ifZero]

theorem clrst : Statement .clrst := fun _ => by
  simp [encode, decode, opcode_formatN, zeroN_formatN, ifZero]

theorem reservedD (x : BitVec 28) : Statement (.reservedD x) := fun _ => by
  simp only [encode, decode, opcode_reserved, below28_reserved]; rfl

theorem reservedE (x : BitVec 28) : Statement (.reservedE x) := fun _ => by
  simp only [encode, decode, opcode_reserved, below28_reserved]; rfl

theorem reservedF (x : BitVec 28) : Statement (.reservedF x) := fun _ => by
  simp only [encode, decode, opcode_reserved, below28_reserved]; rfl

end Sys2Proof.Laws.RoundTrip
end

