-- ==== Sys2Proof/Laws/State.lean ====
section
/-! SUPPORT. One lemma per field per update of State. -/

namespace Sys2Proof.Machine

variable (s : State)

@[simp] theorem setres_cfg (v : Word) (b : Bool) : (setres v b s).cfg = s.cfg := rfl
@[simp] theorem setres_wacc (v : Word) (b : Bool) : (setres v b s).wacc = s.wacc := rfl
@[simp] theorem setres_wcnt (v : Word) (b : Bool) : (setres v b s).wcnt = s.wcnt := rfl
@[simp] theorem setres_wstop (v : Word) (b : Bool) : (setres v b s).wstop = s.wstop := rfl
@[simp] theorem setres_ckacc (v : Word) (b : Bool) : (setres v b s).ckacc = s.ckacc := rfl
@[simp] theorem setres_res (v : Word) (b : Bool) : (setres v b s).res = v := rfl
@[simp] theorem setres_ok (v : Word) (b : Bool) : (setres v b s).ok = b := rfl
@[simp] theorem setres_errs (v : Word) (b : Bool) : (setres v b s).errs = (s.errs || !b) := rfl
@[simp] theorem setres_ill (v : Word) (b : Bool) : (setres v b s).ill = s.ill := rfl
@[simp] theorem setres_host (v : Word) (b : Bool) : (setres v b s).host = s.host := rfl
@[simp] theorem setres_result (v : Word) (b : Bool) : (setres v b s).result = s.result := rfl
@[simp] theorem setres_port (v : Word) (b : Bool) : (setres v b s).port = s.port := rfl
@[simp] theorem setres_resetInput (v : Word) (b : Bool) : (setres v b s).resetInput = s.resetInput := rfl

@[simp] theorem setresQuiet_cfg (v : Word) (b : Bool) : (setresQuiet v b s).cfg = s.cfg := rfl
@[simp] theorem setresQuiet_wacc (v : Word) (b : Bool) : (setresQuiet v b s).wacc = s.wacc := rfl
@[simp] theorem setresQuiet_wcnt (v : Word) (b : Bool) : (setresQuiet v b s).wcnt = s.wcnt := rfl
@[simp] theorem setresQuiet_wstop (v : Word) (b : Bool) : (setresQuiet v b s).wstop = s.wstop := rfl
@[simp] theorem setresQuiet_ckacc (v : Word) (b : Bool) : (setresQuiet v b s).ckacc = s.ckacc := rfl
@[simp] theorem setresQuiet_res (v : Word) (b : Bool) : (setresQuiet v b s).res = v := rfl
@[simp] theorem setresQuiet_ok (v : Word) (b : Bool) : (setresQuiet v b s).ok = b := rfl
@[simp] theorem setresQuiet_errs (v : Word) (b : Bool) : (setresQuiet v b s).errs = s.errs := rfl
@[simp] theorem setresQuiet_ill (v : Word) (b : Bool) : (setresQuiet v b s).ill = s.ill := rfl
@[simp] theorem setresQuiet_host (v : Word) (b : Bool) : (setresQuiet v b s).host = s.host := rfl
@[simp] theorem setresQuiet_result (v : Word) (b : Bool) : (setresQuiet v b s).result = s.result := rfl
@[simp] theorem setresQuiet_port (v : Word) (b : Bool) : (setresQuiet v b s).port = s.port := rfl
@[simp] theorem setresQuiet_resetInput (v : Word) (b : Bool) : (setresQuiet v b s).resetInput = s.resetInput := rfl

@[simp] theorem raiseIll_cfg : (raiseIll s).cfg = s.cfg := rfl
@[simp] theorem raiseIll_wacc : (raiseIll s).wacc = s.wacc := rfl
@[simp] theorem raiseIll_wcnt : (raiseIll s).wcnt = s.wcnt := rfl
@[simp] theorem raiseIll_wstop : (raiseIll s).wstop = s.wstop := rfl
@[simp] theorem raiseIll_ckacc : (raiseIll s).ckacc = s.ckacc := rfl
@[simp] theorem raiseIll_res : (raiseIll s).res = s.res := rfl
@[simp] theorem raiseIll_ok : (raiseIll s).ok = s.ok := rfl
@[simp] theorem raiseIll_errs : (raiseIll s).errs = s.errs := rfl
@[simp] theorem raiseIll_ill : (raiseIll s).ill = true := rfl
@[simp] theorem raiseIll_host : (raiseIll s).host = s.host := rfl
@[simp] theorem raiseIll_result : (raiseIll s).result = s.result := rfl
@[simp] theorem raiseIll_port : (raiseIll s).port = s.port := rfl
@[simp] theorem raiseIll_resetInput : (raiseIll s).resetInput = s.resetInput := rfl

@[simp] theorem clearSticky_cfg : (clearSticky s).cfg = s.cfg := rfl
@[simp] theorem clearSticky_wacc : (clearSticky s).wacc = s.wacc := rfl
@[simp] theorem clearSticky_wcnt : (clearSticky s).wcnt = s.wcnt := rfl
@[simp] theorem clearSticky_wstop : (clearSticky s).wstop = s.wstop := rfl
@[simp] theorem clearSticky_ckacc : (clearSticky s).ckacc = s.ckacc := rfl
@[simp] theorem clearSticky_res : (clearSticky s).res = s.res := rfl
@[simp] theorem clearSticky_ok : (clearSticky s).ok = s.ok := rfl
@[simp] theorem clearSticky_errs : (clearSticky s).errs = false := rfl
@[simp] theorem clearSticky_ill : (clearSticky s).ill = false := rfl
@[simp] theorem clearSticky_host : (clearSticky s).host = s.host := rfl
@[simp] theorem clearSticky_result : (clearSticky s).result = s.result := rfl
@[simp] theorem clearSticky_port : (clearSticky s).port = s.port := rfl
@[simp] theorem clearSticky_resetInput : (clearSticky s).resetInput = s.resetInput := rfl

@[simp] theorem setWindow_cfg (a : Word) (n : BitVec 4) (b : Bool) : (setWindow a n b s).cfg = s.cfg := rfl
@[simp] theorem setWindow_wacc (a : Word) (n : BitVec 4) (b : Bool) : (setWindow a n b s).wacc = a := rfl
@[simp] theorem setWindow_wcnt (a : Word) (n : BitVec 4) (b : Bool) : (setWindow a n b s).wcnt = n := rfl
@[simp] theorem setWindow_wstop (a : Word) (n : BitVec 4) (b : Bool) : (setWindow a n b s).wstop = b := rfl
@[simp] theorem setWindow_ckacc (a : Word) (n : BitVec 4) (b : Bool) : (setWindow a n b s).ckacc = s.ckacc := rfl
@[simp] theorem setWindow_res (a : Word) (n : BitVec 4) (b : Bool) : (setWindow a n b s).res = s.res := rfl
@[simp] theorem setWindow_ok (a : Word) (n : BitVec 4) (b : Bool) : (setWindow a n b s).ok = s.ok := rfl
@[simp] theorem setWindow_errs (a : Word) (n : BitVec 4) (b : Bool) : (setWindow a n b s).errs = s.errs := rfl
@[simp] theorem setWindow_ill (a : Word) (n : BitVec 4) (b : Bool) : (setWindow a n b s).ill = s.ill := rfl
@[simp] theorem setWindow_host (a : Word) (n : BitVec 4) (b : Bool) : (setWindow a n b s).host = s.host := rfl
@[simp] theorem setWindow_result (a : Word) (n : BitVec 4) (b : Bool) : (setWindow a n b s).result = s.result := rfl
@[simp] theorem setWindow_port (a : Word) (n : BitVec 4) (b : Bool) : (setWindow a n b s).port = s.port := rfl
@[simp] theorem setWindow_resetInput (a : Word) (n : BitVec 4) (b : Bool) : (setWindow a n b s).resetInput =
    s.resetInput := rfl

@[simp] theorem setCkacc_cfg (v : Byte) : (setCkacc v s).cfg = s.cfg := rfl
@[simp] theorem setCkacc_wacc (v : Byte) : (setCkacc v s).wacc = s.wacc := rfl
@[simp] theorem setCkacc_wcnt (v : Byte) : (setCkacc v s).wcnt = s.wcnt := rfl
@[simp] theorem setCkacc_wstop (v : Byte) : (setCkacc v s).wstop = s.wstop := rfl
@[simp] theorem setCkacc_ckacc (v : Byte) : (setCkacc v s).ckacc = v := rfl
@[simp] theorem setCkacc_res (v : Byte) : (setCkacc v s).res = s.res := rfl
@[simp] theorem setCkacc_ok (v : Byte) : (setCkacc v s).ok = s.ok := rfl
@[simp] theorem setCkacc_errs (v : Byte) : (setCkacc v s).errs = s.errs := rfl
@[simp] theorem setCkacc_ill (v : Byte) : (setCkacc v s).ill = s.ill := rfl
@[simp] theorem setCkacc_host (v : Byte) : (setCkacc v s).host = s.host := rfl
@[simp] theorem setCkacc_result (v : Byte) : (setCkacc v s).result = s.result := rfl
@[simp] theorem setCkacc_port (v : Byte) : (setCkacc v s).port = s.port := rfl
@[simp] theorem setCkacc_resetInput (v : Byte) : (setCkacc v s).resetInput = s.resetInput := rfl

@[simp] theorem resetBlock_cfg : (resetBlock s).cfg = s.cfg := rfl
@[simp] theorem resetBlock_wacc : (resetBlock s).wacc = 0 := rfl
@[simp] theorem resetBlock_wcnt : (resetBlock s).wcnt = 0 := rfl
@[simp] theorem resetBlock_wstop : (resetBlock s).wstop = false := rfl
@[simp] theorem resetBlock_ckacc : (resetBlock s).ckacc = 0 := rfl
@[simp] theorem resetBlock_res : (resetBlock s).res = 0 := rfl
@[simp] theorem resetBlock_ok : (resetBlock s).ok = false := rfl
@[simp] theorem resetBlock_errs : (resetBlock s).errs = false := rfl
@[simp] theorem resetBlock_ill : (resetBlock s).ill = false := rfl
@[simp] theorem resetBlock_host : (resetBlock s).host = s.host := rfl
@[simp] theorem resetBlock_result : (resetBlock s).result = s.result := rfl
@[simp] theorem resetBlock_port : (resetBlock s).port = s.port := rfl
@[simp] theorem resetBlock_resetInput : (resetBlock s).resetInput = s.resetInput := rfl

end Sys2Proof.Machine
end

