-- ==== Sys2Proof/Laws/Exec.lean ====
section
/-! SUPPORT. One lemma per command: what exec answers, with no machine function left to unfold but the value's; then
what every command keeps. -/

namespace Sys2Proof.Machine

/-- A width code is 1, 2 or 3 when it is not 0 (R8). -/
theorem widthCode_cases {c : WidthCode} (h : c ≠ 0) : c = 1 ∨ c = 2 ∨ c = 3 := by
  revert c; decide

/-! ### hexval against R100's table -/

theorem hexval_some_iff (lower : Bool) (c : Byte) (n : Nibble) :
    hexval lower c = some n ↔ DigitValue lower c n.toNat := by
  have hc := c.isLt
  have hn := n.isLt
  have key : ∀ x : Byte, x.toNat < 16 → (some (x.setWidth 4) = some n ↔ x.toNat = n.toNat) := by
    intro x hx
    rw [Option.some.injEq, ← BitVec.toNat_inj, BitVec.toNat_setWidth, Nat.mod_eq_of_lt (by omega)]
  simp only [hexval, BitVec.le_def, DigitValue]
  have h30 : (0x30 : Byte).toNat = 48 := rfl
  have h39 : (0x39 : Byte).toNat = 57 := rfl
  have h41 : (0x41 : Byte).toNat = 65 := rfl
  have h46 : (0x46 : Byte).toNat = 70 := rfl
  have h61 : (0x61 : Byte).toNat = 97 := rfl
  have h66 : (0x66 : Byte).toNat = 102 := rfl
  have h10 : (10 : Byte).toNat = 10 := rfl
  split
  · have : (c - 0x30).toNat = c.toNat - 48 := by rw [BitVec.toNat_sub, h30]; omega
    rw [key _ (by omega), this]; omega
  · split
    · have : (c - 0x41 + 10).toNat = c.toNat - 65 + 10 := by
        rw [BitVec.toNat_add, BitVec.toNat_sub, h41, h10]; omega
      rw [key _ (by omega), this]; omega
    · split
      · rename_i hl
        have : (c - 0x61 + 10).toNat = c.toNat - 97 + 10 := by
          rw [BitVec.toNat_add, BitVec.toNat_sub, h61, h10]; omega
        rw [key _ (by omega), this]
        simp only [hl.2.2, and_true]; omega
      · rename_i hl
        simp only [reduceCtorEq, false_iff]
        rintro (h | h | h)
        · omega
        · omega
        · exact hl ⟨by omega, by omega, h.2.2.2⟩

theorem hexval_none_iff (lower : Bool) (c : Byte) : hexval lower c = none ↔ NotDigit lower c := by
  constructor
  · intro h n hn
    have hlt : n < 16 := by rcases hn with hn | hn | hn <;> omega
    have := (hexval_some_iff lower c (BitVec.ofNat 4 n)).mpr (by
      rw [BitVec.toNat_ofNat, Nat.mod_eq_of_lt (by omega)]; exact hn)
    rw [h] at this; exact nomatch this
  · intro h
    cases hv : hexval lower c with
    | none => rfl
    | some n => exact absurd ((hexval_some_iff lower c n).mp hv) (h _)

/-- A character of value `n` is read as the nibble `n`. -/
theorem hexval_of_digit {lower : Bool} {c : Byte} {n : Nat} (h : DigitValue lower c n) :
    hexval lower c = some (BitVec.ofNat 4 n) := by
  have hlt : n < 16 := by rcases h with h | h | h <;> omega
  rw [hexval_some_iff, BitVec.toNat_ofNat, Nat.mod_eq_of_lt (by omega)]
  exact h

theorem digit_lt {lower : Bool} {c : Byte} {n : Nat} (h : DigitValue lower c n) : n < 16 := by
  rcases h with h | h | h <;> omega

/-! ### What each command answers -/

theorem exec_hexnib_digit {s : State} {b : Byte} {n : Nat} (h : DigitValue s.cfg.hexLower b n) :
    exec (.hexnib b) s = .next (setres (BitVec.ofNat 32 n) true s) := by
  have hn := digit_lt h
  have hv : (BitVec.ofNat 4 n).setWidth 32 = BitVec.ofNat 32 n := by
    apply BitVec.eq_of_toNat_eq; simp; omega
  simp only [exec, execHexnib, hexval_of_digit h, hv]

theorem exec_hexnib_invalid {s : State} {b : Byte} (h : NotDigit s.cfg.hexLower b) :
    exec (.hexnib b) s = .next (setres 0 false s) := by
  simp only [exec, execHexnib, (hexval_none_iff _ _).mpr h]

theorem hexpair_of_digits {lower : Bool} {hi lo : Byte} {h l : Nat} (hh : DigitValue lower hi h)
    (hl : DigitValue lower lo l) : hexpair lower hi lo = some (BitVec.ofNat 8 (16 * h + l)) := by
  have h1 := digit_lt hh
  have h2 := digit_lt hl
  simp only [hexpair, hexval_of_digit hh, hexval_of_digit hl, Option.some.injEq]
  apply BitVec.eq_of_toNat_eq
  rw [toNat_append_add]; simp only [BitVec.toNat_ofNat]; omega

theorem hexpair_none {lower : Bool} {hi lo : Byte} (h : NotDigit lower hi ∨ NotDigit lower lo) :
    hexpair lower hi lo = none := by
  rcases h with h | h
  · simp only [hexpair, (hexval_none_iff _ _).mpr h]
  · simp only [hexpair, (hexval_none_iff _ _).mpr h]
    cases hexval lower hi <;> rfl

theorem exec_hexbyte_digits {s : State} {hi lo : Byte} {h l : Nat} (hh : DigitValue s.cfg.hexLower hi h)
    (hl : DigitValue s.cfg.hexLower lo l) :
    exec (.hexbyte hi lo) s = .next (setres (BitVec.ofNat 32 (16 * h + l)) true s) := by
  have h1 := digit_lt hh
  have h2 := digit_lt hl
  have hv : (BitVec.ofNat 8 (16 * h + l)).setWidth 32 = BitVec.ofNat 32 (16 * h + l) := by
    apply BitVec.eq_of_toNat_eq; simp; omega
  simp only [exec, execHexbyte, hexpair_of_digits hh hl, hv]

theorem exec_hexbyte_invalid {s : State} {hi lo : Byte}
    (h : NotDigit s.cfg.hexLower hi ∨ NotDigit s.cfg.hexLower lo) :
    exec (.hexbyte hi lo) s = .next (setres 0 false s) := by
  simp only [exec, execHexbyte, hexpair_none h]

theorem exec_wclr (s : State) : exec .wclr s = .next (setres 0 true (setWindow 0 0 false s)) := rfl

theorem exec_wpush_stopped {s : State} {b : Byte} (h : s.wstop = true) :
    exec (.wpush b) s = .next (setresQuiet s.wacc false s) := by
  simp only [exec, execWpush, h, if_true]

theorem exec_wpush_digit {s : State} {b : Byte} {n : Nat} (hs : s.wstop = false)
    (h : DigitValue s.cfg.hexLower b n) :
    exec (.wpush b) s = .next (pushDigit (BitVec.ofNat 4 n) s) := by
  simp only [exec, execWpush, hs, hexval_of_digit h]; rfl

theorem exec_wpush_invalid {s : State} {b : Byte} (hs : s.wstop = false) (h : NotDigit s.cfg.hexLower b) :
    exec (.wpush b) s = .next (setresQuiet s.wacc false (setWindow s.wacc s.wcnt true s)) := by
  simp only [exec, execWpush, hs, (hexval_none_iff _ _).mpr h]; rfl

theorem exec_unpack_next {s : State} {c : WidthCode} {v : Word} (hc : c ≠ 0) (h : fillwin s = some v) :
    exec (.unpack c) s = .next (setres (v >>> shamt c) (decide (2 * addressBytes c ≤ s.wcnt.toNat)) s) := by
  simp only [exec, execUnpack, if_neg hc, h]

theorem exec_classify_digit {s : State} {b : Byte} {n : Nat} (h : DigitValue s.cfg.hexLower b n) :
    exec (.classify b) s = .next (setres (classWord (classOf (BitVec.ofNat 4 n))) true s) := by
  simp only [exec, execClassify, hexval_of_digit h]

theorem exec_classify_invalid {s : State} {b : Byte} (h : NotDigit s.cfg.hexLower b) :
    exec (.classify b) s = .next (setres 7 false s) := by
  simp only [exec, execClassify, (hexval_none_iff _ _).mpr h]

theorem exec_plen_next {s : State} {c : WidthCode} (hc : c ≠ 0) (len : Byte) :
    exec (.plen c len) s =
      .next (setres (BitVec.ofInt 32 (payloadLen c len)) (decide (0 ≤ payloadLen c len)) s) := by
  simp only [exec, execPlen, if_neg hc]

theorem exec_ckclr (s : State) : exec .ckclr s = .next (writeSum 0 s) := rfl

theorem exec_ckadd (b : Byte) (s : State) : exec (.ckadd b) s = .next (writeSum (s.ckacc + b) s) := rfl

theorem exec_ckadd16 (h : Half) (s : State) :
    exec (.ckadd16 h) s = .next (writeSum (s.ckacc + h.extractLsb' 0 8 + h.extractLsb' 8 8) s) := rfl

theorem exec_ckfin (b : Byte) (s : State) :
    exec (.ckfin b) s = .next (setres ((~~~s.ckacc + 1 - b).setWidth 32) true s) := rfl

/-! ### What every command keeps -/

/-- The window function has a value wherever `WCNT` is at most 8 (R24, R121). -/
theorem fillwin_isSome {s : State} (h : s.wcnt.toNat ≤ 8) : ∃ v, fillwin s = some v := by
  have hle : s.wcnt ≤ 8 := by rw [BitVec.le_def]; exact h
  simp only [fillwin]
  split
  · exact ⟨_, rfl⟩
  · cases s.cfg.windowFill with
    | zeroFill => exact ⟨_, rfl⟩
    | asRead => exact ⟨_, rfl⟩

/-- The window function's value as a number (R121). -/
theorem fillwin_toNat {s : State} {v : Word} (h : fillwin s = some v) : v.toNat = s.windowNat := by
  unfold fillwin at h
  unfold State.windowNat
  split at h
  · obtain rfl := Option.some.inj h; rw [if_pos ‹_›]; rfl
  · rw [if_neg ‹_›]
    cases hf : s.cfg.windowFill with
    | zeroFill =>
      rw [hf] at h; dsimp only at h ⊢
      split at h
      · obtain rfl := Option.some.inj h
        rw [BitVec.toNat_shiftLeft, Nat.shiftLeft_eq]
      · exact nomatch h
    | asRead => rw [hf] at h; obtain rfl := Option.some.inj h; rfl

/-- UNPACK's shift is a division (R120, R125). -/
theorem shift_eq_div (v : Word) (c : WidthCode) :
    v >>> shamt c = BitVec.ofNat 32 (v.toNat / 2 ^ (8 * (3 - c.toNat))) := by
  apply BitVec.eq_of_toNat_eq
  rw [BitVec.toNat_ushiftRight, Nat.shiftRight_eq_div_pow, BitVec.toNat_ofNat, shamt,
    Nat.mod_eq_of_lt (lt_of_le_of_lt (Nat.div_le_self _ _) v.isLt)]

/-- A negative payload length in 32 bits (R130, R263). -/
theorem payloadLen_negative {c : WidthCode} {len : Byte} (h : len.toNat < c.toNat + 2) :
    BitVec.ofInt 32 (payloadLen c len) = BitVec.ofNat 32 (2 ^ 32 - (c.toNat + 2 - len.toNat)) := by
  have := c.isLt
  apply BitVec.eq_of_toNat_eq
  rw [BitVec.toNat_ofInt, BitVec.toNat_ofNat]
  unfold payloadLen
  omega

/-- A command never stops the block where `WCNT` is at most 8 (R260). -/
theorem exec_next (i : Instr) {s : State} (h : s.wcnt.toNat ≤ 8) : ∃ t, exec i s = .next t := by
  cases i with
  | unpack c =>
    by_cases hc : c = 0
    · exact ⟨_, by simp only [exec, execUnpack, if_pos hc]; rfl⟩
    · obtain ⟨v, hv⟩ := fillwin_isSome h
      exact ⟨_, exec_unpack_next hc hv⟩
  | hexnib b => simp only [exec, execHexnib]; split <;> exact ⟨_, rfl⟩
  | hexbyte hi lo => simp only [exec, execHexbyte]; split <;> exact ⟨_, rfl⟩
  | wpush b => simp only [exec, execWpush]; split <;> [exact ⟨_, rfl⟩; (split <;> exact ⟨_, rfl⟩)]
  | classify b => simp only [exec, execClassify]; split <;> exact ⟨_, rfl⟩
  | plen c len => simp only [exec, execPlen]; split <;> exact ⟨_, rfl⟩
  | _ => exact ⟨_, rfl⟩

/-- No command touches the parameters, the host or the inputs (R33, R40). -/
structure SameOutside (s t : State) : Prop where
  cfg : t.cfg = s.cfg
  host : t.host = s.host
  result : t.result = s.result
  port : t.port = s.port
  resetInput : t.resetInput = s.resetInput

theorem SameOutside.refl (s : State) : SameOutside s s := ⟨rfl, rfl, rfl, rfl, rfl⟩

theorem SameOutside.trans {s t u : State} (h : SameOutside s t) (h' : SameOutside t u) : SameOutside s u :=
  ⟨h'.cfg.trans h.cfg, h'.host.trans h.host, h'.result.trans h.result, h'.port.trans h.port,
    h'.resetInput.trans h.resetInput⟩

theorem exec_outside {i : Instr} {s t : State} (h : exec i s = .next t) : SameOutside s t := by
  have aux : ∀ {u v : State}, (Host.Outcome.next u : Host.Outcome State Fault Refusal) = .next v → SameOutside s u →
      SameOutside s v := fun e hu => Host.Outcome.next.inj e ▸ hu
  cases i with
  | hexnib b => simp only [exec, execHexnib] at h; split at h <;> exact aux h ⟨rfl, rfl, rfl, rfl, rfl⟩
  | hexbyte hi lo => simp only [exec, execHexbyte] at h; split at h <;> exact aux h ⟨rfl, rfl, rfl, rfl, rfl⟩
  | wpush b =>
    simp only [exec, execWpush] at h
    split at h
    · exact aux h ⟨rfl, rfl, rfl, rfl, rfl⟩
    · split at h <;> exact aux h ⟨rfl, rfl, rfl, rfl, rfl⟩
  | unpack c =>
    simp only [exec, execUnpack] at h
    split at h
    · exact aux h ⟨rfl, rfl, rfl, rfl, rfl⟩
    · split at h
      · exact aux h ⟨rfl, rfl, rfl, rfl, rfl⟩
      · exact nomatch h
  | classify b => simp only [exec, execClassify] at h; split at h <;> exact aux h ⟨rfl, rfl, rfl, rfl, rfl⟩
  | plen c len => simp only [exec, execPlen] at h; split at h <;> exact aux h ⟨rfl, rfl, rfl, rfl, rfl⟩
  | _ => exact aux h ⟨rfl, rfl, rfl, rfl, rfl⟩

/-- A consumed digit keeps the window invariant: the value stays below `16^WCNT` (R23, R123). -/
theorem pushDigit_windowOk {s : State} {n : Nibble} (h : s.WindowOk) (hs : s.wstop = false) :
    (pushDigit n s).WindowOk := by
  obtain ⟨h8, hstop, hacc⟩ := h
  have hlt : s.wcnt.toNat < 8 := by
    rcases Nat.lt_or_eq_of_le h8 with h | h
    · exact h
    · rw [hstop h] at hs; exact nomatch hs
  have hcnt : (s.wcnt + 1).toNat = s.wcnt.toNat + 1 := by
    rw [BitVec.toNat_add]; simp; omega
  have hn := n.isLt
  have hpow : 16 ^ s.wcnt.toNat ≤ 16 ^ 7 := Nat.pow_le_pow_right (by decide) (by omega)
  have hval : (s.wacc <<< 4 ||| n.setWidth 32).toNat = s.wacc.toNat * 16 + n.toNat := by
    have h1 : (n.setWidth 32).toNat = n.toNat := by simp; omega
    have h2 : (s.wacc <<< 4).toNat = s.wacc.toNat <<< 4 := by
      rw [BitVec.toNat_shiftLeft, Nat.mod_eq_of_lt]
      rw [Nat.shiftLeft_eq]; omega
    rw [BitVec.toNat_or, h1, h2, ← Nat.shiftLeft_add_eq_or_of_lt hn, Nat.shiftLeft_eq]
  refine ⟨?_, ?_, ?_⟩
  · show (s.wcnt + 1).toNat ≤ 8
    omega
  · intro h
    have h' : (s.wcnt + 1).toNat = 8 := h
    show (s.wstop || s.wcnt + 1 == 8) = true
    rw [hs, Bool.false_or, beq_iff_eq]
    exact BitVec.eq_of_toNat_eq h'
  · show (s.wacc <<< 4 ||| n.setWidth 32).toNat < 16 ^ (s.wcnt + 1).toNat
    rw [hval, hcnt, Nat.pow_succ]; omega

/-- A command leaves the window alone, clears it, ends its scan, or pushes a digit into it (R122, R123). -/
theorem exec_window {i : Instr} {s t : State} (h : exec i s = .next t) :
    (t.wacc = s.wacc ∧ t.wcnt = s.wcnt ∧ t.wstop = s.wstop) ∨
      (i = .wclr ∧ t.wacc = 0 ∧ t.wcnt = 0 ∧ t.wstop = false) ∨
      (∃ b, i = .wpush b ∧ s.wstop = false ∧
        ((t.wacc = s.wacc ∧ t.wcnt = s.wcnt ∧ t.wstop = true) ∨ ∃ n, t = pushDigit n s)) := by
  cases i with
  | hexnib b =>
    simp only [exec, execHexnib] at h
    split at h <;> obtain rfl := Host.Outcome.next.inj h <;> exact .inl ⟨rfl, rfl, rfl⟩
  | hexbyte hi lo =>
    simp only [exec, execHexbyte] at h
    split at h <;> obtain rfl := Host.Outcome.next.inj h <;> exact .inl ⟨rfl, rfl, rfl⟩
  | wclr => obtain rfl := Host.Outcome.next.inj h; exact .inr (.inl ⟨rfl, rfl, rfl, rfl⟩)
  | wpush b =>
    simp only [exec, execWpush] at h
    split at h
    · obtain rfl := Host.Outcome.next.inj h; exact .inl ⟨rfl, rfl, rfl⟩
    · rename_i hs
      have hs' : s.wstop = false := by simpa using hs
      split at h
      · obtain rfl := Host.Outcome.next.inj h; exact .inr (.inr ⟨b, rfl, hs', .inr ⟨_, rfl⟩⟩)
      · obtain rfl := Host.Outcome.next.inj h; exact .inr (.inr ⟨b, rfl, hs', .inl ⟨rfl, rfl, rfl⟩⟩)
  | unpack c =>
    simp only [exec, execUnpack] at h
    split at h
    · obtain rfl := Host.Outcome.next.inj h; exact .inl ⟨rfl, rfl, rfl⟩
    · split at h
      · obtain rfl := Host.Outcome.next.inj h; exact .inl ⟨rfl, rfl, rfl⟩
      · exact nomatch h
  | classify b =>
    simp only [exec, execClassify] at h
    split at h <;> obtain rfl := Host.Outcome.next.inj h <;> exact .inl ⟨rfl, rfl, rfl⟩
  | plen c len =>
    simp only [exec, execPlen] at h
    split at h <;> obtain rfl := Host.Outcome.next.inj h <;> exact .inl ⟨rfl, rfl, rfl⟩
  | _ => obtain rfl := Host.Outcome.next.inj h; exact .inl ⟨rfl, rfl, rfl⟩

/-- Every command keeps the window invariant (R23 to R25). -/
theorem exec_windowOk {i : Instr} {s t : State} (hs : s.WindowOk) (h : exec i s = .next t) : t.WindowOk := by
  obtain ⟨h8, hstop, hacc⟩ := hs
  rcases exec_window h with ⟨h1, h2, h3⟩ | ⟨-, h1, h2, h3⟩ | ⟨b, -, hfalse, hpush⟩
  · simp only [State.WindowOk, h1, h2, h3]; exact ⟨h8, hstop, hacc⟩
  · simp [State.WindowOk, h1, h2, h3]
  · rcases hpush with ⟨h1, h2, h3⟩ | ⟨n, rfl⟩
    · simp only [State.WindowOk, h1, h2, h3]; exact ⟨h8, fun _ => trivial, hacc⟩
    · exact pushDigit_windowOk ⟨h8, hstop, hacc⟩ hfalse

/-- A word of a well-formed command performs it (R68). -/
theorem command_encode {i : Instr} (h : i.wellFormed = true) (s : State) : command (encode i) s = exec i s := by
  cases i with
  | nop => rw [command, Laws.RoundTrip.nop h]
  | hexnib b => rw [command, Laws.RoundTrip.hexnib b h]
  | hexbyte hi lo => rw [command, Laws.RoundTrip.hexbyte hi lo h]
  | wclr => rw [command, Laws.RoundTrip.wclr h]
  | wpush b => rw [command, Laws.RoundTrip.wpush b h]
  | unpack c => rw [command, Laws.RoundTrip.unpack c h]
  | classify b => rw [command, Laws.RoundTrip.classify b h]
  | plen c len => rw [command, Laws.RoundTrip.plen c len h]
  | ckclr => rw [command, Laws.RoundTrip.ckclr h]
  | ckadd b => rw [command, Laws.RoundTrip.ckadd b h]
  | ckadd16 x => rw [command, Laws.RoundTrip.ckadd16 x h]
  | ckfin b => rw [command, Laws.RoundTrip.ckfin b h]
  | clrst => rw [command, Laws.RoundTrip.clrst h]
  | reservedD x => rw [command, Laws.RoundTrip.reservedD x h]
  | reservedE x => rw [command, Laws.RoundTrip.reservedE x h]
  | reservedF x => rw [command, Laws.RoundTrip.reservedF x h]

/-- A host command that the block answers is followed by what the host does next. -/
theorem issue_next {i : Instr} {k : State → Host.Outcome State Fault Refusal} {s t : State}
    (hw : i.wellFormed = true) (h : exec i s = .next t) : issue i k s = k t := by
  rw [issue, command_encode hw, h]

/-- A legal command never sets `ILL` (R31, R262). -/
theorem exec_ill {i : Instr} {s t : State} (hw : i.wellFormed = true) (hr : i.reserved = false)
    (h : exec i s = .next t) : t.ill = true → s.ill = true := by
  cases i with
  | hexnib b =>
    simp only [exec, execHexnib] at h
    split at h <;> obtain rfl := Host.Outcome.next.inj h <;> exact id
  | hexbyte hi lo =>
    simp only [exec, execHexbyte] at h
    split at h <;> obtain rfl := Host.Outcome.next.inj h <;> exact id
  | wpush b =>
    simp only [exec, execWpush] at h
    split at h
    · obtain rfl := Host.Outcome.next.inj h; exact id
    · split at h <;> obtain rfl := Host.Outcome.next.inj h <;> exact id
  | unpack c =>
    have hc : c ≠ 0 := by simpa [Instr.wellFormed, legalCode] using hw
    simp only [exec, execUnpack, if_neg hc] at h
    split at h
    · obtain rfl := Host.Outcome.next.inj h; exact id
    · exact nomatch h
  | classify b =>
    simp only [exec, execClassify] at h
    split at h <;> obtain rfl := Host.Outcome.next.inj h <;> exact id
  | plen c len =>
    have hc : c ≠ 0 := by simpa [Instr.wellFormed, legalCode] using hw
    simp only [exec, execPlen, if_neg hc] at h
    obtain rfl := Host.Outcome.next.inj h; exact id
  | clrst => obtain rfl := Host.Outcome.next.inj h; exact fun h => nomatch h
  | reservedD x => exact nomatch hr
  | reservedE x => exact nomatch hr
  | reservedF x => exact nomatch hr
  | _ => obtain rfl := Host.Outcome.next.inj h; exact id

/-- A legal host command is answered, keeps the window invariant, touches nothing outside the block and never sets
`ILL`; the host goes on with what it leaves. -/
theorem issue_spec {i : Instr} (hw : i.wellFormed = true) (hr : i.reserved = false) {s : State} (hs : s.WindowOk) :
    ∃ t, exec i s = .next t ∧ (∀ k, issue i k s = k t) ∧ t.WindowOk ∧ SameOutside s t ∧
      (t.ill = true → s.ill = true) := by
  obtain ⟨t, ht⟩ := exec_next i hs.1
  exact ⟨t, ht, fun k => issue_next hw ht, exec_windowOk hs ht, exec_outside ht, exec_ill hw hr ht⟩

end Sys2Proof.Machine
end

