-- ==== Sys2Proof/Laws/Runs.lean ====
section
/-! SUPPORT. Sequences of commands: the checksum of a record (R154) and the window after a scan (R23, R123). -/

namespace Sys2Proof.Machine

/-- The state in which a list of commands, each answered with a next state, leaves the machine. -/
theorem runCommands_cons {i : Instr} {is : List Instr} {s t : State} (h : exec i s = .next t) :
    runCommands (i :: is) s = runCommands is t := by
  simp only [runCommands, h]

theorem runCommands_append (is js : List Instr) : ∀ {s t : State}, runCommands is s = .next t →
    runCommands (is ++ js) s = runCommands js t := by
  induction is with
  | nil => intro s t h; obtain rfl := Host.Outcome.next.inj h; rfl
  | cons i is ih =>
    intro s t h
    simp only [runCommands] at h
    cases hi : exec i s with
    | next u =>
      rw [hi] at h
      rw [List.cons_append, runCommands_cons hi]
      exact ih h
    | fault f => rw [hi] at h; exact nomatch h
    | refused r => rw [hi] at h; exact nomatch h

/-! ### Checksums -/

/-- What the commands that write a sum leave alone. -/
structure SameWindow (s t : State) : Prop where
  wacc : t.wacc = s.wacc
  wcnt : t.wcnt = s.wcnt
  wstop : t.wstop = s.wstop
  errs : t.errs = s.errs
  ill : t.ill = s.ill
  outside : SameOutside s t

theorem SameWindow.trans {s t u : State} (h : SameWindow s t) (h' : SameWindow t u) : SameWindow s u :=
  ⟨h'.wacc.trans h.wacc, h'.wcnt.trans h.wcnt, h'.wstop.trans h.wstop, h'.errs.trans h.errs, h'.ill.trans h.ill,
    h.outside.trans h'.outside⟩

theorem writeSum_sameWindow (v : Byte) (s : State) : SameWindow s (writeSum v s) :=
  ⟨rfl, rfl, rfl, by simp [writeSum], rfl, rfl, rfl, rfl, rfl, rfl⟩

/-- Payload bytes added one by one. -/
theorem runCommands_ckadds (payload : List Byte) : ∀ s : State, ∃ t, runCommands (payload.map .ckadd) s = .next t ∧
    t.ckacc.toNat = (s.ckacc.toNat + byteSum payload) % 256 ∧ SameWindow s t := by
  induction payload with
  | nil =>
    intro s
    refine ⟨s, rfl, ?_, rfl, rfl, rfl, rfl, rfl, SameOutside.refl s⟩
    have := s.ckacc.isLt
    simp only [byteSum]; omega
  | cons b payload ih =>
    intro s
    obtain ⟨t, ht, hacc, hsame⟩ := ih (writeSum (s.ckacc + b) s)
    refine ⟨t, by rw [List.map_cons, runCommands_cons (exec_ckadd b s), ht], ?_, (writeSum_sameWindow _ s).trans hsame⟩
    have h1 : (writeSum (s.ckacc + b) s).ckacc = s.ckacc + b := rfl
    rw [hacc, h1, BitVec.toNat_add, byteSum]; omega

/-- CKFIN's result as a number (R153). -/
theorem ckFinal_toNat (acc bias : Byte) : (~~~acc + 1 - bias).toNat = checksumNat acc.toNat bias.toNat := by
  have h1 := acc.isLt
  have h2 := bias.isLt
  have h3 : (1 : Byte).toNat = 1 := rfl
  rw [BitVec.toNat_sub, BitVec.toNat_add, BitVec.toNat_not, h3, checksumNat]; omega

/-- CKREC leaves the checksum of its summands in `RES` (R70, R154). -/
theorem runCommands_ckrec (len : Byte) (half : Half) (type : Byte) (payload : List Byte) (bias : Byte) (s : State) :
    ∃ t, runCommands (ckrec len half type payload bias) s = .next t ∧
      t.res = BitVec.ofNat 32 (checksumNat
        (len.toNat + half.toNat % 256 + half.toNat / 256 + type.toNat + byteSum payload) bias.toNat) ∧
      t.ckacc.toNat = (len.toNat + half.toNat % 256 + half.toNat / 256 + type.toNat + byteSum payload) % 256 ∧
      t.ok = true ∧ SameWindow s t := by
  have hh := half.isLt
  let s1 := writeSum 0 s
  let s2 := writeSum (s1.ckacc + len) s1
  let s3 := writeSum (s2.ckacc + half.extractLsb' 0 8 + half.extractLsb' 8 8) s2
  let s4 := writeSum (s3.ckacc + type) s3
  obtain ⟨t, ht, hacc, hsame⟩ := runCommands_ckadds payload s4
  have hs4 : s4.ckacc.toNat = (len.toNat + half.toNat % 256 + half.toNat / 256 + type.toNat) % 256 := by
    show ((0 + len) + half.extractLsb' 0 8 + half.extractLsb' 8 8 + type : Byte).toNat = _
    simp only [BitVec.toNat_add, toNat_extract, zero_toNat]; omega
  have htot : t.ckacc.toNat =
      (len.toNat + half.toNat % 256 + half.toNat / 256 + type.toNat + byteSum payload) % 256 := by
    rw [hacc, hs4]; omega
  have hall : SameWindow s s4 :=
    ((writeSum_sameWindow _ s).trans (writeSum_sameWindow _ s1)).trans
      ((writeSum_sameWindow _ s2).trans (writeSum_sameWindow _ s3))
  refine ⟨setres ((~~~t.ckacc + 1 - bias).setWidth 32) true t, ?_, ?_, htot, rfl, ?_⟩
  · rw [ckrec, List.append_assoc, List.cons_append, List.cons_append, List.cons_append, List.cons_append,
      runCommands_cons (exec_ckclr s), runCommands_cons (exec_ckadd len s1),
      runCommands_cons (exec_ckadd16 half s2), runCommands_cons (exec_ckadd type s3), List.nil_append,
      runCommands_append _ _ ht, runCommands_cons (exec_ckfin bias t)]
    rfl
  · show (~~~t.ckacc + 1 - bias).setWidth 32 = _
    apply BitVec.eq_of_toNat_eq
    rw [BitVec.toNat_setWidth, ckFinal_toNat, BitVec.toNat_ofNat, htot]
    simp only [checksumNat]; omega
  · exact hall.trans (hsame.trans ⟨rfl, rfl, rfl, by simp, rfl, rfl, rfl, rfl, rfl, rfl⟩)

/-! ### The window -/

theorem hexValue_lt {lower : Bool} {cs : List Byte} {ds : List Nat} (h : List.Forall₂ (DigitValue lower) cs ds) :
    hexValue ds < 16 ^ ds.length := by
  induction h with
  | nil => decide
  | cons hd _ ih =>
    rename_i c d cs' ds' _
    have := digit_lt hd
    simp only [hexValue, List.length_cons, Nat.pow_succ]
    have : d * 16 ^ ds'.length ≤ 15 * 16 ^ ds'.length := Nat.mul_le_mul_right _ (by omega)
    omega

/-- What the window commands leave alone. -/
structure SameSum (s t : State) : Prop where
  ckacc : t.ckacc = s.ckacc
  errs : t.errs = s.errs
  ill : t.ill = s.ill
  outside : SameOutside s t

theorem SameSum.refl (s : State) : SameSum s s := ⟨rfl, rfl, rfl, SameOutside.refl s⟩

theorem SameSum.trans {s t u : State} (h : SameSum s t) (h' : SameSum t u) : SameSum s u :=
  ⟨h'.ckacc.trans h.ckacc, h'.errs.trans h.errs, h'.ill.trans h.ill, h.outside.trans h'.outside⟩

theorem pushDigit_sameSum (n : Nibble) (s : State) : SameSum s (pushDigit n s) :=
  ⟨rfl, rfl, rfl, rfl, rfl, rfl, rfl, rfl⟩

theorem setresQuiet_sameSum (v : Word) (b : Bool) (s : State) : SameSum s (setresQuiet v b s) :=
  ⟨rfl, rfl, rfl, rfl, rfl, rfl, rfl, rfl⟩

theorem setWindow_sameSum (a : Word) (n : BitVec 4) (b : Bool) (s : State) : SameSum s (setWindow a n b s) :=
  ⟨rfl, rfl, rfl, rfl, rfl, rfl, rfl, rfl⟩

/-- A window whose scan ends exactly at the eighth digit: no other character was offered yet. -/
structure Scanning (s : State) : Prop where
  count : s.wcnt.toNat ≤ 8
  stop : s.wstop = decide (s.wcnt.toNat = 8)
  value : s.wacc.toNat < 16 ^ s.wcnt.toNat

theorem pushDigit_scanning {s : State} {n : Nibble} (h : Scanning s) (h8 : s.wcnt.toNat < 8) :
    Scanning (pushDigit n s) ∧ (pushDigit n s).wacc.toNat = s.wacc.toNat * 16 + n.toNat ∧
      (pushDigit n s).wcnt.toNat = s.wcnt.toNat + 1 := by
  have hs : s.wstop = false := by rw [h.stop]; exact decide_eq_false (by omega)
  have hw := pushDigit_windowOk (n := n) ⟨h.count, fun e => absurd e (by omega), h.value⟩ hs
  have hcnt : (s.wcnt + 1).toNat = s.wcnt.toNat + 1 := by
    rw [BitVec.toNat_add]; simp; omega
  have hn := n.isLt
  have hacc := h.value
  have hpow : 16 ^ s.wcnt.toNat ≤ 16 ^ 7 := Nat.pow_le_pow_right (by decide) (by omega)
  have hval : (s.wacc <<< 4 ||| n.setWidth 32).toNat = s.wacc.toNat * 16 + n.toNat := by
    have h1 : (n.setWidth 32).toNat = n.toNat := by simp; omega
    have h2 : (s.wacc <<< 4).toNat = s.wacc.toNat <<< 4 := by
      rw [BitVec.toNat_shiftLeft, Nat.mod_eq_of_lt]
      rw [Nat.shiftLeft_eq]; omega
    rw [BitVec.toNat_or, h1, h2, ← Nat.shiftLeft_add_eq_or_of_lt hn, Nat.shiftLeft_eq]
  refine ⟨⟨hw.1, ?_, hw.2.2⟩, hval, hcnt⟩
  show (s.wstop || s.wcnt + 1 == 8) = decide ((s.wcnt + 1).toNat = 8)
  rw [hs, Bool.false_or, Bool.eq_iff_iff, beq_iff_eq, decide_eq_true_eq, ← BitVec.toNat_inj]
  rfl

/-- Digits offered one after the other are all consumed while there is room (R123). -/
theorem runCommands_digits {lower : Bool} {cs : List Byte} {ds : List Nat}
    (h : List.Forall₂ (DigitValue lower) cs ds) : ∀ {s : State}, s.cfg.hexLower = lower → Scanning s →
      s.wcnt.toNat + ds.length ≤ 8 →
      ∃ t, runCommands (cs.map .wpush) s = .next t ∧ Scanning t ∧
        t.wacc.toNat = s.wacc.toNat * 16 ^ ds.length + hexValue ds ∧ t.wcnt.toNat = s.wcnt.toNat + ds.length ∧
        SameSum s t := by
  induction h with
  | nil =>
    intro s _ hs _
    exact ⟨s, rfl, hs, by simp [hexValue], by simp, SameSum.refl s⟩
  | cons hd _ ih =>
    rename_i c d cs ds _
    intro s hl hs hlen
    simp only [List.length_cons] at hlen
    have hd16 := digit_lt hd
    obtain ⟨hscan, hacc, hcnt⟩ := pushDigit_scanning (n := BitVec.ofNat 4 d) hs (by omega)
    have hstop : s.wstop = false := by rw [hs.stop]; exact decide_eq_false (by omega)
    obtain ⟨t, ht, htscan, htacc, htcnt, htsame⟩ := ih (s := pushDigit (BitVec.ofNat 4 d) s) hl hscan (by omega)
    have he := exec_wpush_digit hstop (by rw [hl]; exact hd)
    refine ⟨t, by rw [List.map_cons, runCommands_cons he, ht], htscan, ?_, ?_, ?_⟩
    · rw [htacc, hacc, hexValue, List.length_cons, BitVec.toNat_ofNat, Nat.mod_eq_of_lt (by omega), Nat.pow_succ]
      ring
    · rw [htcnt, hcnt, List.length_cons]; omega
    · exact (pushDigit_sameSum _ s).trans htsame

/-- Once the scan is over, no character changes the window (R123). -/
theorem runCommands_stopped (cs : List Byte) : ∀ {s : State}, s.wstop = true →
    ∃ t, runCommands (cs.map .wpush) s = .next t ∧ t.wacc = s.wacc ∧ t.wcnt = s.wcnt ∧ t.wstop = true ∧
      SameSum s t := by
  induction cs with
  | nil => intro s h; exact ⟨s, rfl, rfl, rfl, h, SameSum.refl s⟩
  | cons c cs ih =>
    intro s h
    obtain ⟨t, ht, h1, h2, h3, h4⟩ := ih (s := setresQuiet s.wacc false s) h
    exact ⟨t, by rw [List.map_cons, runCommands_cons (exec_wpush_stopped h), ht], h1, h2, h3,
      (setresQuiet_sameSum _ _ s).trans h4⟩

/-- The eight characters a window scan offers (R70). -/
def scanText (text : List Byte) : List Byte := (List.range winDigits).map fun k => text.getD k lineFeed

theorem wscan_eq (text : List Byte) : wscan text = .wclr :: (scanText text).map .wpush := by
  simp [wscan, scanText, Function.comp_def]

/-- A digit string, then nothing or a character that is no digit, makes up the eight characters offered: WSCAN
leaves the digits' value in `WACC`, their number in `WCNT`, and the scan ended (R23 to R25, R70, R123). -/
theorem runCommands_wscan {s : State} {text cs rest : List Byte} {ds : List Nat}
    (htext : scanText text = cs ++ rest) (h : List.Forall₂ (DigitValue s.cfg.hexLower) cs ds)
    (hrest : rest = [] ∨ ∃ c r, rest = c :: r ∧ NotDigit s.cfg.hexLower c) :
    ∃ t, runCommands (wscan text) s = .next t ∧ t.wacc.toNat = hexValue ds ∧ t.wcnt.toNat = ds.length ∧
      t.wstop = true ∧ SameSum s t := by
  have hlen8 : cs.length + rest.length = 8 := by
    rw [← List.length_append, ← htext]; simp [scanText]
  have hdl := h.length_eq
  let s0 := setres 0 true (setWindow 0 0 false s)
  have hsame0 : SameSum s s0 := ⟨rfl, by simp [s0], rfl, rfl, rfl, rfl, rfl, rfl⟩
  have hscan : Scanning s0 := ⟨by simp [s0], by simp [s0], by simp [s0]⟩
  obtain ⟨t, ht, htscan, htacc, htcnt, htsame⟩ :=
    runCommands_digits h (s := s0) rfl hscan (by simp [s0]; omega)
  have h0 : s0.wacc.toNat = 0 ∧ s0.wcnt.toNat = 0 := ⟨rfl, rfl⟩
  rw [h0.1, Nat.zero_mul, Nat.zero_add] at htacc
  rw [h0.2, Nat.zero_add] at htcnt
  have hrun : runCommands (wscan text) s = runCommands (rest.map .wpush) t := by
    rw [wscan_eq, htext, List.map_append, runCommands_cons (exec_wclr s)]
    exact runCommands_append _ _ ht
  rcases hrest with rfl | ⟨c, r, rfl, hc⟩
  · refine ⟨t, by rw [hrun]; rfl, htacc, htcnt, ?_, hsame0.trans htsame⟩
    rw [htscan.stop]
    simp only [List.length_nil] at hlen8
    exact decide_eq_true (by omega)
  · simp only [List.length_cons] at hlen8
    have hstop : t.wstop = false := by rw [htscan.stop]; exact decide_eq_false (by omega)
    have hcfg : t.cfg = s.cfg := (hsame0.trans htsame).outside.cfg
    have hx := exec_wpush_invalid (b := c) hstop (by rw [hcfg]; exact hc)
    obtain ⟨u, hu, h1, h2, h3, h4⟩ :=
      runCommands_stopped r (s := setresQuiet t.wacc false (setWindow t.wacc t.wcnt true t)) rfl
    refine ⟨u, ?_, ?_, ?_, h3,
      (hsame0.trans htsame).trans (((setWindow_sameSum _ _ _ t).trans (setresQuiet_sameSum _ _ _)).trans h4)⟩
    · rw [hrun, List.map_cons, runCommands_cons hx, hu]
    · rw [h1]; exact htacc
    · rw [h2]; exact htcnt

/-- The first digits of a digit string are its value with the later digits shifted out (R120, R125). -/
theorem hexValue_append (a b : List Nat) : hexValue (a ++ b) = hexValue a * 16 ^ b.length + hexValue b := by
  induction a with
  | nil => simp [hexValue]
  | cons d a ih =>
    simp only [List.cons_append, hexValue, ih, List.length_append, Nat.pow_add]
    ring

end Sys2Proof.Machine
end

