-- ==== Sys2Proof/Laws/HostDecode.lean ====
section
/-! SUPPORT. One step of a decode call: it is always answered, and it keeps what holds of the call. -/

namespace Sys2Proof.Machine

/-- What a step of a call in progress leaves, from a state `s`: the window invariant, what holds of the host and of
the last result, and the parameters, inputs and `ILL` as they were. -/
structure CallKeeps (s t : State) : Prop where
  window : t.WindowOk
  host : t.host.Ok
  result : resultOk t.result
  cfg : t.cfg = s.cfg
  port : t.port = s.port
  resetInput : t.resetInput = s.resetInput
  ill : t.ill = true → s.ill = true

/-- After a host command, the call goes on with a routine state of which the invariant holds. -/
theorem goDecode_keeps {s t : State} {d : DecodeCall} (hw : t.WindowOk) (ho : SameOutside s t)
    (hill : t.ill = true → s.ill = true) (hres : resultOk s.result) (hd : d.Ok) :
    ∃ u, goDecode d t = .next u ∧ CallKeeps s u :=
  ⟨_, rfl, hw, hd, by rw [← ho.result] at hres; exact hres, ho.cfg, ho.port, ho.resetInput, hill⟩

/-- After a host command, the call ends with a result of which the invariant holds. -/
theorem finishCall_keeps {s t : State} {r : CallResult} (hw : t.WindowOk) (ho : SameOutside s t)
    (hill : t.ill = true → s.ill = true) (hr : resultOk (some r)) : ∃ u, finishCall r t = .next u ∧ CallKeeps s u :=
  ⟨_, rfl, hw, trivial, hr, ho.cfg, ho.port, ho.resetInput, hill⟩

/-- What holds of a decode call does not depend on the line, the line count, the data record count or the expected
count, so those may change freely with a phase whose own condition holds. -/
theorem DecodeCall.Ok.withPhase {d : DecodeCall} (h : d.Ok) {p : DecodePhase}
    (hp : ({ d with phase := p } : DecodeCall).PhaseOk) : ({ d with phase := p } : DecodeCall).Ok :=
  ⟨h.1, h.2.1, h.2.2.1, h.2.2.2.1, hp⟩

/-- CLASSIFY's result carries a legal width code for every data class (R73, R128). -/
theorem exec_classify_head {b : Byte} {s t : State} (h : exec (.classify b) s = .next t) (hok : t.ok = true) :
    headOk (t.res.extractLsb' 0 4) (t.res.extractLsb' 4 2) := by
  simp only [exec, execClassify] at h
  split at h
  · rename_i n _
    obtain rfl := Host.Outcome.next.inj h
    show headOk ((classWord (classOf n)).extractLsb' 0 4) ((classWord (classOf n)).extractLsb' 4 2)
    cases classOf n <;> (unfold headOk; decide)
  · obtain rfl := Host.Outcome.next.inj h
    exact nomatch hok

/-- PLEN's result with `OK = 1` is the payload length (R130). -/
theorem exec_plen_ok {c : WidthCode} {len : Byte} {s t : State} (hc : c ≠ 0) (h : exec (.plen c len) s = .next t)
    (hok : t.ok = true) : len.toNat = t.res.toNat + c.toNat + 2 := by
  rw [exec_plen_next hc] at h
  obtain rfl := Host.Outcome.next.inj h
  have hp : 0 ≤ payloadLen c len := by simpa using hok
  show len.toNat = (BitVec.ofInt 32 (payloadLen c len)).toNat + c.toNat + 2
  have h1 := len.isLt
  have h2 := c.isLt
  unfold payloadLen at *
  rw [BitVec.toNat_ofInt]
  omega

/-- The commands of a window scan are legal (R70). -/
theorem wscan_legal (text : List Byte) : ∀ i ∈ wscan text, i.wellFormed = true ∧ i.reserved = false := by
  intro i hi
  simp only [wscan, List.mem_cons, List.mem_map] at hi
  rcases hi with rfl | ⟨k, _, rfl⟩ <;> exact ⟨rfl, rfl⟩

theorem linesOk_tail {l : List Byte} {ls : List (List Byte)} (h : linesOk (l :: ls) = true) : linesOk ls = true := by
  simp only [linesOk, List.all_cons, Bool.and_eq_true] at h
  exact h.2

/-- A count or data class is not both (R73, R208). -/
theorem unpackCode_ne_zero {r : RecordHead} (hh : headOk r.cls r.c)
    (hc : isDataClass r.cls = true ∨ isCountClass r.cls = true) : unpackCode r ≠ 0 := by
  simp only [unpackCode]
  split
  · decide
  · rename_i h
    rcases hc with hd | hd
    · exact hh hd
    · exact absurd hd h

/-- A decode call's step is always answered, and keeps what holds of the call (R260; R200 to R218). -/
theorem decodeStep_keeps {d : DecodeCall} {s : State} (hw : s.WindowOk) (hd : d.Ok) (hres : resultOk s.result) :
    ∃ t, decodeStep d s = .next t ∧ CallKeeps s t := by
  obtain ⟨hcall, hlines, hlo, hhi, hphase⟩ := id hd
  have hcall' := hcall
  simp only [callOk, Bool.and_eq_true, decide_eq_true_eq] at hcall'
  obtain ⟨⟨⟨hle, hmax⟩, hsize⟩, hwf⟩ := hcall'
  have fails : ∀ {t : State} (e : CallError), t.WindowOk → SameOutside s t → (t.ill = true → s.ill = true) →
      ∃ u, failCall e t = .next u ∧ CallKeeps s u := fun e h1 h2 h3 => finishCall_keeps h1 h2 h3 trivial
  unfold DecodeCall.PhaseOk at hphase
  unfold decodeStep
  split <;> rename_i hp <;> rw [hp] at hphase <;> dsimp only at hphase
  · obtain ⟨t, -, hk, h1, h2, h3⟩ := issue_spec (i := .clrst) rfl rfl hw
    rw [hk]
    exact goDecode_keeps h1 h2 h3 hres (hd.withPhase trivial)
  · obtain ⟨t, -, hk, h1, h2, h3⟩ := issue_spec (i := .wclr) rfl rfl hw
    rw [hk]
    exact goDecode_keeps h1 h2 h3 hres (hd.withPhase trivial)
  · obtain ⟨t, -, hk, h1, h2, h3⟩ := issue_spec (i := .ckclr) rfl rfl hw
    rw [hk]
    exact goDecode_keeps h1 h2 h3 hres (hd.withPhase trivial)
  · unfold nextLine
    split
    · have hdone : resultOk (some (.decoded (d.scan.highestAddressWritten - d.start) d.buffer)) :=
        ⟨by omega, hwf⟩
      unfold endOfStream
      split
      · exact finishCall_keeps hw (SameOutside.refl s) id hdone
      · split
        · exact finishCall_keeps hw (SameOutside.refl s) id hdone
        · exact fails _ hw (SameOutside.refl s) id
    · rename_i l rest hl
      refine goDecode_keeps hw (SameOutside.refl s) id hres ⟨hcall, linesOk_tail (hl ▸ hlines), hlo, hhi, ?_⟩
      unfold DecodeCall.PhaseOk
      dsimp only
      split <;> rename_i heq <;> first | trivial | (split at heq <;> exact nomatch heq)
  · obtain ⟨t, ht, hk, h1, h2, h3⟩ := issue_spec (i := .classify (charAt d.line 1)) rfl rfl hw
    rw [hk]
    unfold afterClassify
    split
    · rename_i hok
      exact goDecode_keeps h1 h2 h3 hres (hd.withPhase (exec_classify_head ht hok))
    · exact fails _ h1 h2 h3
  · obtain ⟨t, ht, hk, h1, h2, h3⟩ := issue_spec (i := .hexbyte (charAt d.line 2) (charAt d.line 3)) rfl rfl hw
    rw [hk]
    unfold afterLength
    split
    · exact goDecode_keeps h1 h2 h3 hres (hd.withPhase hphase)
    · exact fails _ h1 h2 h3
  · rename_i r
    obtain ⟨t, ht, hk, h1, h2, h3⟩ := issue_spec (i := .hexnib (charAt d.line 4)) rfl rfl hw
    rw [hk]
    unfold dispatch
    split
    · exact fails _ h1 h2 h3
    · split
      · rename_i hc
        exact goDecode_keeps h1 h2 h3 hres (hd.withPhase ⟨hphase, .inl hc, wscan_legal _⟩)
      · split
        · rename_i hc
          split
          · exact fails _ h1 h2 h3
          · exact goDecode_keeps h1 h2 h3 hres (hd.withPhase ⟨hphase, .inr hc, wscan_legal _⟩)
        · exact goDecode_keeps h1 h2 h3 hres (hd.withPhase trivial)
  · rename_i r i todo
    obtain ⟨hh, hc, htodo⟩ := hphase
    obtain ⟨t, ht, hk, h1, h2, h3⟩ := issue_spec (htodo i (by simp)).1 (htodo i (by simp)).2 hw
    rw [hk]
    exact goDecode_keeps h1 h2 h3 hres
      (hd.withPhase ⟨hh, hc, fun j hj => htodo j (by simp [hj])⟩)
  · rename_i r
    obtain ⟨hh, hc, -⟩ := hphase
    have hu := unpackCode_ne_zero hh hc
    obtain ⟨t, ht, hk, h1, h2, h3⟩ :=
      issue_spec (i := .unpack (unpackCode r)) (by simpa [Instr.wellFormed, legalCode] using hu) rfl hw
    rw [hk]
    unfold afterUnpack
    split
    · exact fails _ h1 h2 h3
    · split
      · exact goDecode_keeps h1 h2 h3 hres ⟨hcall, hlines, hlo, hhi, trivial⟩
      · rename_i hnc
        have hdata : isDataClass r.cls = true := hc.resolve_right (by simpa using hnc)
        exact goDecode_keeps h1 h2 h3 hres (hd.withPhase ⟨hdata, hh hdata, t.res.isLt⟩)
  · rename_i r address
    obtain ⟨hdata, hc, haddr⟩ := hphase
    obtain ⟨t, ht, hk, h1, h2, h3⟩ :=
      issue_spec (i := .plen r.c r.len) (by simpa [Instr.wellFormed, legalCode] using hc) rfl hw
    rw [hk]
    unfold afterPayloadLength
    split
    · exact fails _ h1 h2 h3
    · rename_i hok
      have hok' : t.ok = true := by simpa using hok
      have hlen := exec_plen_ok hc ht hok'
      split
      · refine goDecode_keeps h1 h2 h3 hres ⟨hcall, hlines, ?_, ?_, trivial⟩
        · exact hlo
        · exact hhi
      · exact goDecode_keeps h1 h2 h3 hres
          (hd.withPhase ⟨hdata, hc, haddr, hlen, by omega, fun h => absurd h (by omega)⟩)
  · rename_i r address p i
    obtain ⟨hdata, hc, haddr, hlen, hip, hrange⟩ := hphase
    obtain ⟨t, ht, hk, h1, h2, h3⟩ :=
      issue_spec (i := .hexbyte (charAt d.line (payloadAt r.c i)) (charAt d.line (payloadAt r.c i + 1))) rfl rfl hw
    rw [hk]
    unfold afterPayloadByte
    split
    · exact fails _ h1 h2 h3
    · split
      · exact fails _ h1 h2 h3
      · rename_i hin
        have hin' : d.start ≤ address ∧ address + p ≤ d.stop := by simpa using hin
        split
        · rename_i hnone
          simp only [Memory.write] at hnone
          rw [if_pos (by omega)] at hnone
          exact nomatch hnone
        · rename_i m hm
          have hmsize := Memory.write_size hm
          have hmwf := Memory.write_wf hwf hm
          have hcall2 : callOk m d.start d.stop = true := by
            simp only [callOk, Bool.and_eq_true, decide_eq_true_eq]
            exact ⟨⟨⟨hle, hmax⟩, by omega⟩, hmwf⟩
          split
          · rename_i hlt
            exact goDecode_keeps h1 h2 h3 hres
              ⟨hcall2, hlines, hlo, hhi, hdata, hc, haddr, hlen, hlt, fun _ => hin'⟩
          · refine goDecode_keeps h1 h2 h3 hres ⟨hcall2, hlines, ?_, ?_, trivial⟩
            · show d.start ≤ if 1 ≤ p then max d.scan.highestAddressWritten (address + p) else _
              split <;> omega
            · show (if 1 ≤ p then max d.scan.highestAddressWritten (address + p) else _) ≤ d.stop
              split <;> omega

end Sys2Proof.Machine
end

