-- ==== Sys2Proof/Laws/HostEncode.lean ====
section
/-! SUPPORT. The encoder: its chunks stay inside the range and one block (R224), and a step of an encode call is
always answered and keeps what holds of the call. -/

namespace Sys2Proof.Machine

/-- A chunk of a range that is not exhausted (R223, R224). -/
theorem chunkLength_bounds {address stop : Nat} (h : address < stop) :
    1 ≤ chunkLength address stop ∧ chunkLength address stop ≤ chunkMax ∧
      address + chunkLength address stop ≤ stop ∧ address % blockSize + chunkLength address stop ≤ blockSize := by
  simp only [chunkLength, blockSize, chunkMax]
  split <;> omega

theorem ckrec_legal (len : Byte) (half : Half) (type : Byte) (payload : List Byte) (bias : Byte) :
    ∀ i ∈ ckrec len half type payload bias, i.wellFormed = true ∧ i.reserved = false := by
  intro i hi
  simp only [ckrec, List.mem_append, List.mem_cons, List.mem_map, List.not_mem_nil, or_false] at hi
  rcases hi with ((rfl | rfl | rfl | rfl) | ⟨b, _, rfl⟩) | rfl <;> exact ⟨rfl, rfl⟩

theorem goEncode_keeps {s t : State} {e : EncodeCall} (hw : t.WindowOk) (ho : SameOutside s t)
    (hill : t.ill = true → s.ill = true) (hres : resultOk s.result) (he : e.Ok) :
    ∃ u, goEncode e t = .next u ∧ CallKeeps s u :=
  ⟨_, rfl, hw, he, by rw [← ho.result] at hres; exact hres, ho.cfg, ho.port, ho.resetInput, hill⟩

theorem EncodeCall.Ok.withPhase {e : EncodeCall} (h : e.Ok) {p : EncodePhase}
    (hp : ({ e with phase := p } : EncodeCall).PhaseOk) : ({ e with phase := p } : EncodeCall).Ok :=
  ⟨h.1, h.2.1, h.2.2.1, hp⟩

/-- The data record of a chunk: its bytes are all in the buffer (R230). -/
theorem startData_keeps {e : EncodeCall} {s : State} (hw : s.WindowOk) (hres : resultOk s.result)
    (he : callOk e.buffer e.start e.stop = true) (hlo : e.start ≤ e.currentAddress)
    (hlt : e.currentAddress < e.stop) :
    ∃ t, startData e (chunkLength e.currentAddress e.stop) s = .next t ∧ CallKeeps s t := by
  have hcall := he
  simp only [callOk, Bool.and_eq_true, decide_eq_true_eq] at hcall
  obtain ⟨h1, h2, h3, h4⟩ := chunkLength_bounds hlt
  unfold startData
  rw [Memory.readBytes_eq _ _ _ (by omega)]
  refine goEncode_keeps hw (SameOutside.refl s) id hres ⟨he, hlo, hlt.le, ?_, ckrec_legal _ _ _ _ _⟩
  simp only [EncodeCall.JobOk, List.length_map, List.length_range]
  exact ⟨h1, h2, h3, h4⟩

theorem blockIndex_toNat {address : Nat} (h : address < 2 ^ 32) : (blockIndex address).toNat = blockOf address := by
  simp only [blockIndex, blockOf, blockSize, BitVec.toNat_ofNat]
  omega

/-- An encode call's step is always answered, and keeps what holds of the call (R220 to R230, R260). -/
theorem encodeStep_keeps {e : EncodeCall} {s : State} (hw : s.WindowOk) (he : e.Ok) (hres : resultOk s.result) :
    ∃ t, encodeStep e s = .next t ∧ CallKeeps s t := by
  obtain ⟨hcall, hlo, hhi, hphase⟩ := id he
  have hcall' := hcall
  simp only [callOk, Bool.and_eq_true, decide_eq_true_eq] at hcall'
  obtain ⟨⟨⟨hle, hmax⟩, hsize⟩, hwf⟩ := hcall'
  unfold EncodeCall.PhaseOk at hphase
  unfold encodeStep
  split <;> rename_i hp <;> rw [hp] at hphase <;> dsimp only at hphase
  · obtain ⟨t, -, hk, h1, h2, h3⟩ := issue_spec (i := .clrst) rfl rfl hw
    rw [hk]
    exact goEncode_keeps h1 h2 h3 hres (he.withPhase trivial)
  · obtain ⟨t, -, hk, h1, h2, h3⟩ := issue_spec (i := .wclr) rfl rfl hw
    rw [hk]
    exact goEncode_keeps h1 h2 h3 hres (he.withPhase trivial)
  · obtain ⟨t, -, hk, h1, h2, h3⟩ := issue_spec (i := .ckclr) rfl rfl hw
    rw [hk]
    exact goEncode_keeps h1 h2 h3 hres (he.withPhase trivial)
  · unfold nextChunk
    split
    · exact finishCall_keeps hw (SameOutside.refl s) id trivial
    · rename_i hne
      have hlt : e.currentAddress < e.stop := by omega
      split
      · refine goEncode_keeps hw (SameOutside.refl s) id hres (he.withPhase ⟨⟨hlt, ?_, rfl⟩, ckrec_legal _ _ _ _ _⟩)
        exact blockIndex_toNat (by omega)
      · exact startData_keeps hw hres hcall hlo hlt
  · rename_i job i todo
    obtain ⟨hjob, htodo⟩ := hphase
    obtain ⟨t, ht, hk, h1, h2, h3⟩ := issue_spec (htodo i (by simp)).1 (htodo i (by simp)).2 hw
    rw [hk]
    exact goEncode_keeps h1 h2 h3 hres (he.withPhase ⟨by cases job <;> exact hjob, fun j hj => htodo j (by simp [hj])⟩)
  · rename_i idx n
    obtain ⟨⟨hlt, hidx, hn⟩, -⟩ := hphase
    unfold writeAnnouncement
    rw [hn]
    exact startData_keeps (e := { e with
      out := e.out ++ withLineFeed (announcementText idx (s.res.extractLsb' 0 8))
      currentBlockBase := some idx.toNat }) hw hres hcall hlo hlt
  · rename_i payload
    obtain ⟨⟨h1, h2, h3, h4⟩, -⟩ := hphase
    exact goEncode_keeps hw (SameOutside.refl s) id hres ⟨hcall, by dsimp only; omega, h3, trivial⟩

end Sys2Proof.Machine
end

