-- ==== Sys2Proof/Laws/Step.lean ====
section
/-! SUPPORT. What one step of the machine is, and runs of steps through a host call. -/

namespace Sys2Proof.Machine

/-! ### One step -/

/-- A step resets the block, or is the host's step with the sample of the reset input taken off. -/
theorem step_cases (s : State) :
    (∃ rest, s.resetInput = true :: rest ∧ step s = .next (resetBlock { s with resetInput := rest })) ∨
      (∃ rest, step s = hostStep { s with resetInput := rest }) := by
  unfold step sampleReset
  split
  · rename_i h
    exact .inr ⟨[], by rw [← h]⟩
  · rename_i rest h
    exact .inr ⟨rest, rfl⟩
  · rename_i rest h
    exact .inl ⟨rest, h, rfl⟩

theorem step_of_noReset {s : State} (h : s.resetInput = []) : step s = hostStep s := by
  unfold step sampleReset; rw [h]

theorem step_of_idle {s : State} (h : s.resetInput = []) (hh : s.host = .idle) : step s = portStep s := by
  rw [step_of_noReset h]; unfold hostStep; rw [hh]

theorem step_of_decoding {s : State} {d : DecodeCall} (h : s.resetInput = []) (hh : s.host = .decoding d) :
    step s = decodeStep d s := by
  rw [step_of_noReset h]; unfold hostStep; rw [hh]

theorem step_of_encoding {s : State} {e : EncodeCall} (h : s.resetInput = []) (hh : s.host = .encoding e) :
    step s = encodeStep e s := by
  rw [step_of_noReset h]; unfold hostStep; rw [hh]

/-- A command word is answered and touches nothing outside the block where the window invariant holds, which it
keeps (R260, R262). -/
theorem command_keeps (w : Word) {s : State} (hs : s.WindowOk) :
    ∃ t, command w s = .next t ∧ t.WindowOk ∧ SameOutside s t := by
  unfold command
  split
  · rename_i i _
    obtain ⟨t, ht⟩ := exec_next i hs.1
    exact ⟨t, ht, exec_windowOk hs ht, exec_outside ht⟩
  · exact ⟨_, rfl, hs, rfl, rfl, rfl, rfl, rfl⟩

/-- A command word changes nothing outside the block, from any state. -/
theorem command_outside {w : Word} {s t : State} (h : command w s = .next t) : SameOutside s t := by
  unfold command at h
  split at h
  · exact exec_outside h
  · obtain rfl := Host.Outcome.next.inj h
    exact ⟨rfl, rfl, rfl, rfl, rfl⟩

theorem command_windowOk {w : Word} {s t : State} (hs : s.WindowOk) (h : command w s = .next t) : t.WindowOk := by
  obtain ⟨u, hu, hw, -⟩ := command_keeps w hs
  rw [hu] at h
  obtain rfl := Host.Outcome.next.inj h
  exact hw

/-! ### What a step can change -/

/-- A host command that goes on was performed, and what follows it answered. -/
theorem issue_eq_next {i : Instr} {k : State → Host.Outcome State Fault Refusal} {s u : State}
    (h : issue i k s = .next u) : ∃ t, command (encode i) s = .next t ∧ k t = .next u := by
  unfold issue at h
  split at h
  · rename_i t ht; exact ⟨t, ht, h⟩
  · exact nomatch h
  · exact nomatch h

/-- A decode call's step changes only the host and its result, beyond at most one command. -/
theorem decodeStep_form {d : DecodeCall} {s u : State} (h : decodeStep d s = .next u) :
    ∃ t g r, u = { t with host := g, result := r } ∧ (t = s ∨ ∃ w, command w s = .next t) := by
  have fin : ∀ {t u : State} {r}, finishCall r t = .next u → u = { t with host := .idle, result := some r } :=
    fun h => (Host.Outcome.next.inj h).symm
  have go : ∀ {t u : State} {d}, goDecode d t = .next u → u = { t with host := .decoding d, result := t.result } :=
    fun h => (Host.Outcome.next.inj h).symm
  have iss : ∀ {i : Instr} {k : State → Host.Outcome State Fault Refusal},
      issue i k s = .next u → (∀ t, k t = .next u → ∃ g r, u = { t with host := g, result := r }) →
      ∃ t g r, u = { t with host := g, result := r } ∧ (t = s ∨ ∃ w, command w s = .next t) := by
    intro i k h hk
    obtain ⟨t, ht, hkt⟩ := issue_eq_next h
    obtain ⟨g, r, e⟩ := hk t hkt
    exact ⟨t, g, r, e, .inr ⟨_, ht⟩⟩
  unfold decodeStep at h
  split at h
  · exact iss h fun t ht => ⟨_, _, go ht⟩
  · exact iss h fun t ht => ⟨_, _, go ht⟩
  · exact iss h fun t ht => ⟨_, _, go ht⟩
  · unfold nextLine endOfStream failCall at h
    split at h
    · split at h
      · exact ⟨s, _, _, fin h, .inl rfl⟩
      · split at h <;> exact ⟨s, _, _, fin h, .inl rfl⟩
    · exact ⟨s, _, _, go h, .inl rfl⟩
  · refine iss h fun t ht => ?_
    unfold afterClassify malformed failCall at ht
    split at ht
    · exact ⟨_, _, go ht⟩
    · exact ⟨_, _, fin ht⟩
  · refine iss h fun t ht => ?_
    unfold afterLength malformed failCall at ht
    split at ht
    · exact ⟨_, _, go ht⟩
    · exact ⟨_, _, fin ht⟩
  · refine iss h fun t ht => ?_
    unfold dispatch malformed failCall at ht
    split at ht
    · exact ⟨_, _, fin ht⟩
    · split at ht
      · exact ⟨_, _, go ht⟩
      · split at ht
        · split at ht
          · exact ⟨_, _, fin ht⟩
          · exact ⟨_, _, go ht⟩
        · exact ⟨_, _, go ht⟩
  · exact iss h fun t ht => ⟨_, _, go ht⟩
  · refine iss h fun t ht => ?_
    unfold afterUnpack malformed failCall at ht
    split at ht
    · exact ⟨_, _, fin ht⟩
    · split at ht
      · exact ⟨_, _, go ht⟩
      · exact ⟨_, _, go ht⟩
  · refine iss h fun t ht => ?_
    unfold afterPayloadLength malformed failCall at ht
    split at ht
    · exact ⟨_, _, fin ht⟩
    · split at ht
      · exact ⟨_, _, go ht⟩
      · exact ⟨_, _, go ht⟩
  · refine iss h fun t ht => ?_
    unfold afterPayloadByte malformed failCall at ht
    split at ht
    · exact ⟨_, _, fin ht⟩
    · split at ht
      · exact ⟨_, _, fin ht⟩
      · split at ht
        · exact nomatch ht
        · split at ht
          · exact ⟨_, _, go ht⟩
          · exact ⟨_, _, go ht⟩

/-- An encode call's step changes only the host and its result, beyond at most one command. -/
theorem encodeStep_form {e : EncodeCall} {s u : State} (h : encodeStep e s = .next u) :
    ∃ t g r, u = { t with host := g, result := r } ∧ (t = s ∨ ∃ w, command w s = .next t) := by
  have fin : ∀ {t u : State} {r}, finishCall r t = .next u → u = { t with host := .idle, result := some r } :=
    fun h => (Host.Outcome.next.inj h).symm
  have go : ∀ {t u : State} {d}, goEncode d t = .next u → u = { t with host := .encoding d, result := t.result } :=
    fun h => (Host.Outcome.next.inj h).symm
  have iss : ∀ {i : Instr} {k : State → Host.Outcome State Fault Refusal},
      issue i k s = .next u → (∀ t, k t = .next u → ∃ g r, u = { t with host := g, result := r }) →
      ∃ t g r, u = { t with host := g, result := r } ∧ (t = s ∨ ∃ w, command w s = .next t) := by
    intro i k h hk
    obtain ⟨t, ht, hkt⟩ := issue_eq_next h
    obtain ⟨g, r, e⟩ := hk t hkt
    exact ⟨t, g, r, e, .inr ⟨_, ht⟩⟩
  have sd : ∀ {e : EncodeCall} {n}, startData e n s = .next u → ∃ g r, u = { s with host := g, result := r } := by
    intro e n h
    unfold startData at h
    split at h
    · exact nomatch h
    · exact ⟨_, _, go h⟩
  unfold encodeStep at h
  split at h
  · exact iss h fun t ht => ⟨_, _, go ht⟩
  · exact iss h fun t ht => ⟨_, _, go ht⟩
  · exact iss h fun t ht => ⟨_, _, go ht⟩
  · unfold nextChunk at h
    split at h
    · exact ⟨s, _, _, fin h, .inl rfl⟩
    · split at h
      · exact ⟨s, _, _, go h, .inl rfl⟩
      · obtain ⟨g, r, e⟩ := sd h; exact ⟨s, g, r, e, .inl rfl⟩
  · exact iss h fun t ht => ⟨_, _, go ht⟩
  · obtain ⟨g, r, e⟩ := sd h; exact ⟨s, g, r, e, .inl rfl⟩
  · exact ⟨s, _, _, go h, .inl rfl⟩

/-- A step changes only the host, its result and its port, beyond at most one command. -/
theorem hostStep_form {s u : State} (h : hostStep s = .next u) :
    ∃ t g r p, u = { t with host := g, result := r, port := p } ∧
      (t = s ∨ ∃ w p', command w { s with port := p' } = .next t) := by
  unfold hostStep at h
  split at h
  · unfold portStep at h
    split at h
    · exact ⟨u, _, _, _, rfl, .inr ⟨_, s.port, h⟩⟩
    · exact ⟨u, _, _, _, rfl, .inr ⟨_, _, h⟩⟩
    · unfold startDecode at h
      split at h
      · exact nomatch h
      · split at h
        · exact nomatch h
        · exact ⟨s, _, _, _, (Host.Outcome.next.inj h).symm, .inl rfl⟩
    · unfold startEncode at h
      split at h
      · exact nomatch h
      · exact ⟨s, _, _, _, (Host.Outcome.next.inj h).symm, .inl rfl⟩
  · obtain ⟨t, g, r, e, hh⟩ := decodeStep_form h
    refine ⟨t, g, r, t.port, e, ?_⟩
    rcases hh with h | ⟨w, h⟩
    · exact .inl h
    · exact .inr ⟨w, s.port, h⟩
  · obtain ⟨t, g, r, e, hh⟩ := encodeStep_form h
    refine ⟨t, g, r, t.port, e, ?_⟩
    rcases hh with h | ⟨w, h⟩
    · exact .inl h
    · exact .inr ⟨w, s.port, h⟩

/-! ### Runs -/

theorem Reaches.refl (s : State) : Reaches s s := ⟨0, rfl⟩

theorem Reaches.head {s t u : State} (h : step s = .next t) (hr : Reaches t u) : Reaches s u := by
  obtain ⟨k, hk⟩ := hr
  exact ⟨k + 1, by simp only [runSteps, h, hk]⟩

theorem Reaches.one {s t : State} (h : step s = .next t) : Reaches s t := .head h (.refl t)

theorem runSteps_add (j k : Nat) : ∀ {s t : State}, runSteps j s = .next t → runSteps (j + k) s = runSteps k t := by
  induction j with
  | zero =>
    intro s t h
    obtain rfl := Host.Outcome.next.inj h
    rw [Nat.zero_add]
  | succ j ih =>
    intro s t h
    rw [Nat.succ_add]
    simp only [runSteps] at h ⊢
    cases hs : step s with
    | next u => rw [hs] at h; exact ih h
    | fault f => rw [hs] at h; exact nomatch h
    | refused r => rw [hs] at h; exact nomatch h

theorem Reaches.trans {s t u : State} (h : Reaches s t) (h' : Reaches t u) : Reaches s u := by
  obtain ⟨j, hj⟩ := h
  obtain ⟨k, hk⟩ := h'
  exact ⟨j + k, by rw [runSteps_add j k hj, hk]⟩

/-! ### The block does not see the host -/

/-- A command does the same whatever the host is doing (R46). -/
theorem exec_withHost {i : Instr} {s t : State} (g : HostCall) (h : exec i s = .next t) :
    exec i { s with host := g } = .next { t with host := g } := by
  cases i with
  | hexnib b =>
    simp only [exec, execHexnib] at h ⊢
    split at h <;> obtain rfl := Host.Outcome.next.inj h <;> rfl
  | hexbyte hi lo =>
    simp only [exec, execHexbyte] at h ⊢
    split at h <;> obtain rfl := Host.Outcome.next.inj h <;> rfl
  | wpush b =>
    simp only [exec, execWpush] at h ⊢
    split at h
    · rename_i hs
      obtain rfl := Host.Outcome.next.inj h
      rw [if_pos hs]; rfl
    · rename_i hs
      rw [if_neg hs]
      split at h <;> obtain rfl := Host.Outcome.next.inj h <;> rfl
  | unpack c =>
    simp only [exec, execUnpack] at h ⊢
    split at h
    · rename_i hc
      obtain rfl := Host.Outcome.next.inj h
      rw [if_pos hc]; rfl
    · rename_i hc
      have hf : fillwin { s with host := g } = fillwin s := rfl
      rw [if_neg hc, hf]
      split at h
      · obtain rfl := Host.Outcome.next.inj h
        rfl
      · exact nomatch h
  | classify b =>
    simp only [exec, execClassify] at h ⊢
    split at h <;> obtain rfl := Host.Outcome.next.inj h <;> rfl
  | plen c len =>
    simp only [exec, execPlen] at h ⊢
    split at h <;> rename_i hc
    · obtain rfl := Host.Outcome.next.inj h
      rw [if_pos hc]; rfl
    · obtain rfl := Host.Outcome.next.inj h
      rw [if_neg hc]; rfl
  | _ => obtain rfl := Host.Outcome.next.inj h; rfl

theorem runCommands_withHost (is : List Instr) (g : HostCall) : ∀ {s t : State}, runCommands is s = .next t →
    runCommands is { s with host := g } = .next { t with host := g } := by
  induction is with
  | nil => intro s t h; obtain rfl := Host.Outcome.next.inj h; rfl
  | cons i is ih =>
    intro s t h
    simp only [runCommands] at h
    cases hi : exec i s with
    | next u =>
      rw [hi] at h
      rw [runCommands_cons (exec_withHost g hi)]
      exact ih h
    | fault f => rw [hi] at h; exact nomatch h
    | refused r => rw [hi] at h; exact nomatch h

/-- A list of host commands issued one a step: `go j` is the routine with the commands `j` left. The run leaves the
block as the commands leave it, and the routine with none left. -/
theorem reaches_todo (go : List Instr → HostCall)
    (hstep : ∀ i rest s, s.resetInput = [] → s.host = go (i :: rest) →
      step s = issue i (fun t => .next { t with host := go rest }) s) :
    ∀ (todo : List Instr) {s t : State}, (∀ i ∈ todo, i.wellFormed = true) → s.resetInput = [] → s.host = go todo →
      runCommands todo s = .next t → Reaches s { t with host := go [] } := by
  intro todo
  induction todo with
  | nil =>
    intro s t _ _ hh h
    obtain rfl := Host.Outcome.next.inj h
    rw [← hh]
    exact .refl _
  | cons i rest ih =>
    intro s t hw hr hh h
    simp only [runCommands] at h
    cases hi : exec i s with
    | next u =>
      rw [hi] at h
      refine .head ((hstep i rest s hr hh).trans (issue_next (hw i (by simp)) hi)) ?_
      have hout := exec_outside hi
      exact ih (t := { t with host := go rest }) (fun j hj => hw j (by simp [hj])) (hout.resetInput.trans hr) rfl
        (runCommands_withHost rest (go rest) h)
    | fault f => rw [hi] at h; exact nomatch h
    | refused r => rw [hi] at h; exact nomatch h

/-- The decoder's window scan: the commands left are issued one a step (R209, R211). -/
theorem reaches_window {s t : State} {d : DecodeCall} {r : RecordHead} {todo : List Instr}
    (hr : s.resetInput = []) (hh : s.host = .decoding { d with phase := .window r todo })
    (hw : ∀ i ∈ todo, i.wellFormed = true) (h : runCommands todo s = .next t) :
    Reaches s { t with host := .decoding { d with phase := .window r [] } } :=
  reaches_todo (fun j => .decoding { d with phase := .window r j })
    (fun _ _ _ h1 h2 => step_of_decoding h1 h2) todo hw hr hh h

/-- The encoder's checksum: the commands left are issued one a step (R226, R227). -/
theorem reaches_checksum {s t : State} {e : EncodeCall} {job : LineJob} {todo : List Instr}
    (hr : s.resetInput = []) (hh : s.host = .encoding { e with phase := .checksum job todo })
    (hw : ∀ i ∈ todo, i.wellFormed = true) (h : runCommands todo s = .next t) :
    Reaches s { t with host := .encoding { e with phase := .checksum job [] } } :=
  reaches_todo (fun j => .encoding { e with phase := .checksum job j })
    (fun _ _ _ h1 h2 => by rw [step_of_encoding h1 h2]; cases job <;> rfl) todo hw hr hh h

/-- One host command of a decode call that the block answers. -/
theorem reaches_issue {s t : State} {d : DecodeCall} {i : Instr} {k : State → Host.Outcome State Fault Refusal}
    {u : State} (hr : s.resetInput = []) (hh : s.host = .decoding d) (hd : decodeStep d s = issue i k s)
    (hw : i.wellFormed = true) (hi : exec i s = .next t) (hk : k t = .next u) : Reaches s u :=
  .one (by rw [step_of_decoding hr hh, hd, issue_next hw hi, hk])

end Sys2Proof.Machine
end

