-- ==== Sys2Proof/Laws/DecodeRun.lean ====
section
/-! SUPPORT. Runs of steps through a decode call (48_host_sequencing.md R200 to R219): what each point of the routine
answers, and the records of a stream from line to line. -/

namespace Sys2Proof.Machine

/-- What the block and the host leave alone while a record's fields are read: everything but the window, `RES`, `OK`
and the call itself. -/
structure SameForCaller (s t : State) : Prop where
  errs : t.errs = s.errs
  ill : t.ill = s.ill
  ckacc : t.ckacc = s.ckacc
  cfg : t.cfg = s.cfg
  result : t.result = s.result
  port : t.port = s.port
  resetInput : t.resetInput = s.resetInput

theorem SameForCaller.refl (s : State) : SameForCaller s s := ⟨rfl, rfl, rfl, rfl, rfl, rfl, rfl⟩
theorem SameForCaller.trans {s t u : State} (h : SameForCaller s t) (h' : SameForCaller t u) : SameForCaller s u :=
  ⟨h'.errs.trans h.errs, h'.ill.trans h.ill, h'.ckacc.trans h.ckacc, h'.cfg.trans h.cfg, h'.result.trans h.result,
      h'.port.trans h.port, h'.resetInput.trans h.resetInput⟩

theorem setres_sameForCaller (v : Word) (s : State) (g : HostCall) : SameForCaller s
    { setres v true s with host := g } :=
  ⟨by simp, rfl, rfl, rfl, rfl, rfl, rfl⟩

/-- The preconditions of R200, one by one. -/
theorem callOk_iff {buffer : Memory} {start stop : Nat} : callOk buffer start stop = true ↔
    (start ≤ stop ∧ stop ≤ 2 ^ 32 ∧ buffer.size = stop - start ∧ buffer.wf = true) := by
  simp only [callOk, Bool.and_eq_true, decide_eq_true_eq]; tauto

/-- One host command of a decode call. -/
theorem step_issue {s t : State} {d : DecodeCall} {i : Instr} {k : State → Host.Outcome State Fault Refusal}
    {u : State} (hr : s.resetInput = []) (hh : s.host = .decoding d) (hd : decodeStep d s = issue i k s)
    (hw : i.wellFormed = true) (hi : exec i s = .next t) (hk : k t = .next u) : step s = .next u := by
  rw [step_of_decoding hr hh, hd, issue_next hw hi, hk]

/-- The call with its next line taken and counted, going on at this point (R203). -/
abbrev DecodeCall.lineTaken (d : DecodeCall) (l : List Byte) (rest : List (List Byte)) (p : DecodePhase) : DecodeCall :=
  { d with lines := rest, line := l, scan := { d.scan with lineNumber := d.scan.lineNumber + 1 }, phase := p }

/-- What the header's digits say of a record (R207). -/
abbrev headOf (n l1 l2 : Nat) : RecordHead :=
  ⟨(classOf (BitVec.ofNat 4 n)).number, (classOf (BitVec.ofNat 4 n)).widthCode, BitVec.ofNat 8 (16 * l1 + l2)⟩

/-- A line that begins with `S` is taken (R203, R205). -/
theorem step_takes_line {s : State} {d : DecodeCall} {l : List Byte} {rest : List (List Byte)}
    (hr : s.resetInput = []) (hh : s.host = .decoding d) (hp : d.phase = .nextLine) (hl : d.lines = l :: rest)
    (h0 : l.head? = some 0x53) :
    step s = .next { s with host := .decoding (d.lineTaken l rest .classify) } := by
  rw [step_of_decoding hr hh]; unfold decodeStep; rw [hp]; dsimp only; unfold nextLine; rw [hl]; dsimp only
  rw [if_pos h0]; rfl

/-- The two fields of CLASSIFY's result (R128). -/
theorem class_fields (n : Nibble) : (classWord (classOf n)).extractLsb' 0 4 = (classOf n).number ∧
    (classWord (classOf n)).extractLsb' 4 2 = (classOf n).widthCode := by
  cases classOf n <;> decide

/-- The type character (R206, R207). -/
theorem step_classifies {s : State} {d : DecodeCall} {n : Nat}
    (hr : s.resetInput = []) (hh : s.host = .decoding d) (hp : d.phase = .classify)
    (h0 : DigitValue s.cfg.hexLower (charAt d.line 1) n) :
    ∃ t, step s = .next t ∧ SameForCaller s t ∧
        t.host = .decoding { d with phase := .length (classOf (BitVec.ofNat 4 n)).number (classOf (BitVec.ofNat 4 n)).widthCode } := by
  refine ⟨_, ?_, setres_sameForCaller (classWord (classOf (BitVec.ofNat 4 n))) s _, rfl⟩
  rw [step_of_decoding hr hh]; unfold decodeStep; rw [hp]; dsimp only
  rw [issue_next rfl (exec_classify_digit h0)]
  unfold afterClassify
  rw [if_pos (by simp)]
  simp only [setres_res, class_fields, goDecode]

/-- The length field (R206, R207). -/
theorem step_reads_length {s : State} {d : DecodeCall} {cls c} {h l : Nat}
    (hr : s.resetInput = []) (hh : s.host = .decoding d) (hp : d.phase = .length cls c)
    (h0 : DigitValue s.cfg.hexLower (charAt d.line 2) h) (h1 : DigitValue s.cfg.hexLower (charAt d.line 3) l) :
    ∃ t, step s = .next t ∧ SameForCaller s t ∧
        t.host = .decoding { d with phase := .firstDigit ⟨cls, c, BitVec.ofNat 8 (16 * h + l)⟩ } := by
  refine ⟨_, ?_, setres_sameForCaller (BitVec.ofNat 32 (16 * h + l)) s _, rfl⟩
  rw [step_of_decoding hr hh]; unfold decodeStep; rw [hp]; dsimp only
  rw [issue_next rfl (exec_hexbyte_digits h0 h1)]
  unfold afterLength
  rw [if_pos (by simp)]
  have : (BitVec.ofNat 32 (16 * h + l)).extractLsb' 0 8 = BitVec.ofNat 8 (16 * h + l) := by
    apply BitVec.eq_of_toNat_eq
    have := digit_lt h0; have := digit_lt h1
    rw [toNat_extract]; simp
  simp only [setres_res, this]; rfl

/-- A character is a digit or is none (R100). -/
theorem digit_or_not (lower : Bool) (c : Byte) : (∃ n, DigitValue lower c n) ∨ NotDigit lower c := by
  by_cases h : ∃ n, DigitValue lower c n
  · exact .inl h
  · exact .inr fun n hn => h ⟨n, hn⟩

/-- The header of a record up to the dispatch (R206, R207): the block is left with `OK = 1`, and nothing else the
caller sees changed. -/
theorem reaches_dispatch {s : State} {d : DecodeCall} {l : List Byte} {rest : List (List Byte)} {n l1 l2 a : Nat}
    (hr : s.resetInput = []) (hh : s.host = .decoding d) (hp : d.phase = .nextLine) (hl : d.lines = l :: rest)
    (h0 : l.head? = some 0x53) (h1 : DigitValue s.cfg.hexLower (charAt l 1) n)
    (h2 : DigitValue s.cfg.hexLower (charAt l 2) l1) (h3 : DigitValue s.cfg.hexLower (charAt l 3) l2)
    (h4 : DigitValue s.cfg.hexLower (charAt l 4) a) :
    ∃ t, SameForCaller s t ∧ t.ok = true ∧ ∀ u, dispatch (d.lineTaken l rest (.firstDigit (headOf n l1 l2)))
        (headOf n l1 l2) t = .next u → Reaches s u := by
  have e1 := step_takes_line hr hh hp hl h0
  obtain ⟨t2, e2, q2, hh2⟩ := step_classifies (s := { s with host := .decoding (d.lineTaken l rest .classify) }) hr
      rfl rfl h1
  obtain ⟨t3, e3, q3, hh3⟩ := step_reads_length (q2.resetInput.trans hr) hh2 rfl (by rw [q2.cfg]; exact h2)
      (by rw [q2.cfg]; exact h3)
  have hcfg : t3.cfg = s.cfg := q3.cfg.trans q2.cfg
  refine ⟨setres (BitVec.ofNat 32 a) true t3,
      ⟨by simp [q3.errs, q2.errs], q3.ill.trans q2.ill, q3.ckacc.trans q2.ckacc, hcfg, q3.result.trans q2.result, q3.port.trans q2.port, q3.resetInput.trans q2.resetInput⟩, rfl, fun u hu => ?_⟩
  refine .head e1 (.head e2 (.head e3 (.one ?_)))
  exact step_issue (q3.resetInput.trans (q2.resetInput.trans hr)) hh3 rfl rfl (exec_hexnib_digit
      (by rw [hcfg]; exact h4)) hu

/-- The dispatch of a data record (R208, R209). -/
theorem dispatch_data {d : DecodeCall} {r : RecordHead} {t : State} (hok : t.ok = true) (hd : isDataClass r.cls =
    true) :
    dispatch d r t = .next { t with host := .decoding { d with phase := .window r (wscan (windowText d.line)) } } := by
  unfold dispatch; rw [if_neg (by simp [hok]), if_pos hd]; rfl

/-- The dispatch of a count record (R208, R211). -/
theorem dispatch_count {d : DecodeCall} {r : RecordHead} {t : State} (hok : t.ok = true) (hd : isDataClass r.cls =
    false)
    (hc : isCountClass r.cls = true) :
    dispatch d r t = if r.len = 3 then .next
        { t with host := .decoding { d with phase := .window r (wscan (windowText d.line)) } } else
      .next { t with host := .idle, result := some (.failed (.malformedCountRecord d.scan.lineNumber)) } := by
  unfold dispatch; rw [if_neg (by simp [hok]), if_neg (by simp [hd]), if_pos hc]
  by_cases h : r.len = 3
  · rw [if_neg (by simp [h]), if_pos h]; rfl
  · rw [if_pos h, if_neg h]; rfl

/-- The dispatch of every other record (R208). -/
theorem dispatch_other {d : DecodeCall} {r : RecordHead} {t : State} (hok : t.ok = true) (hd : isDataClass r.cls =
    false)
    (hc : isCountClass r.cls = false) : dispatch d r t = .next
        { t with host := .decoding { d with phase := .nextLine } } := by
  unfold dispatch; rw [if_neg (by simp [hok]), if_neg (by simp [hd]), if_neg (by simp [hc])]; rfl

/-- The characters the window scan offers are `ch(4)` to `ch(11)` (R209). -/
theorem windowText_scan (line : List Byte) : scanText (windowText line) = (List.range 8).map fun k => charAt line
    (4 + k) := by
  simp [scanText, windowText, winDigits, List.range_succ]

/-- The window scan of a record (R209, R211). -/
theorem reaches_unpack {s : State} {d : DecodeCall} {r : RecordHead} {cs rest : List Byte} {ds : List Nat}
    (hr : s.resetInput = []) (hh : s.host = .decoding d) (hp : d.phase = .window r (wscan (windowText d.line)))
    (htext : ((List.range 8).map fun k => charAt d.line (4 + k)) = cs ++ rest)
    (h : List.Forall₂ (DigitValue s.cfg.hexLower) cs ds)
    (hrest : rest = [] ∨ ∃ c r, rest = c :: r ∧ NotDigit s.cfg.hexLower c) :
    ∃ t, Reaches s t ∧ SameForCaller s t ∧ t.host = .decoding { d with phase := .window r [] } ∧
      t.wacc.toNat = hexValue ds ∧ t.wcnt.toNat = ds.length ∧ t.wstop = true := by
  obtain ⟨t, ht, h1, h2, h3, hs⟩ := runCommands_wscan (text :=
      windowText d.line) (by rw [windowText_scan]; exact htext) h hrest
  refine ⟨_, reaches_window (d := d) hr (by rw [hh, ← hp]) (fun i hi => (wscan_legal _ i hi).1) ht, ?_, rfl, h1, h2, h3⟩
  exact ⟨hs.errs, hs.ill, hs.ckacc, hs.outside.cfg, hs.outside.result, hs.outside.port, hs.outside.resetInput⟩

/-- Digits of a field and those after it, as numbers. -/
theorem hexValue_append_lt {lower : Bool} {cs : List Byte} {ds es : List Nat} (h : List.Forall₂ (DigitValue lower) cs
    (ds ++ es)) :
    hexValue ds < 16 ^ ds.length ∧ hexValue es < 16 ^ es.length := by
  obtain ⟨h1, h2⟩ : List.Forall₂ (DigitValue lower) (cs.take ds.length) ds ∧
      List.Forall₂ (DigitValue lower) (cs.drop ds.length) es := by
    have := List.forall₂_take_append cs ds es h
    have := List.forall₂_drop_append cs ds es h
    constructor <;> assumption
  exact ⟨hexValue_lt h1, hexValue_lt h2⟩

/-- UNPACK of a window that holds a field's digits and whatever is over-read after them gives the field's value (R120,
R121, R125). -/
theorem unpack_value {t : State} {c : WidthCode} {field extra : List Nat} {lower}  {cs : List Byte} (hc : c ≠ 0)
    (h : List.Forall₂ (DigitValue lower) cs (field ++ extra))
    (hacc : t.wacc.toNat = hexValue (field ++ extra)) (hcnt : t.wcnt.toNat = (field ++ extra).length)
    (hlen : field.length = 2 * (c.toNat + 1)) (h8 : (field ++ extra).length ≤ 8)
    (hfill : t.cfg.windowFill = .zeroFill ∨ (field ++ extra).length = 8) :
    ∃ v : Word, exec (.unpack c) t = .next (setres v true t) ∧ v.toNat = hexValue field := by
  have hf := hexValue_append_lt h
  rw [hexValue_append] at hacc
  rw [List.length_append] at hcnt h8 hfill
  have hcl : c.toNat < 4 := c.isLt
  have hc0 : c.toNat ≠ 0 := by
    intro e; apply hc; apply BitVec.eq_of_toNat_eq; rw [e]; rfl
  have hn0 : ¬ t.wcnt = 0 := by
    intro e; rw [e] at hcnt; simp at hcnt; omega
  have hle : t.wcnt ≤ 8 := by
    rw [BitVec.le_def]; simp; omega
  have hv : ∃ v, fillwin t = some v ∧ v.toNat = (hexValue field * 16 ^ extra.length + hexValue extra) * 16 ^
      (8 - (field.length + extra.length)) := by
    have hbig : (hexValue field * 16 ^ extra.length + hexValue extra) * 16 ^ (8 - (field.length + extra.length)) < 2 ^
        32 := by
      have e1 : hexValue field * 16 ^ extra.length + hexValue extra < 16 ^ (field.length + extra.length) := by
        rw [Nat.pow_add]
        have : (hexValue field + 1) * 16 ^ extra.length ≤ 16 ^ field.length * 16 ^ extra.length :=
            Nat.mul_le_mul_right _ hf.1
        rw [Nat.add_mul] at this
        omega
      have e2 : 16 ^ (field.length + extra.length) * 16 ^ (8 - (field.length + extra.length)) = 2 ^ 32 := by
        rw [← Nat.pow_add, show field.length + extra.length + (8 - (field.length + extra.length)) = 8 by omega];
            norm_num
      rw [← e2]
      exact Nat.mul_lt_mul_of_pos_right e1 (Nat.pow_pos (by decide))
    rcases hfill with hz | hr
    · refine ⟨t.wacc <<< (4 * (8 - t.wcnt.toNat)), ?_, ?_⟩
      · unfold fillwin; rw [if_neg hn0, hz]; simp only [if_pos hle]
      · rw [BitVec.toNat_shiftLeft, Nat.shiftLeft_eq, hacc, hcnt, Nat.pow_mul]
        exact Nat.mod_eq_of_lt hbig
    · have : 8 - (field.length + extra.length) = 0 := by omega
      rw [this, Nat.pow_zero, Nat.mul_one]
      rw [this, Nat.pow_zero, Nat.mul_one] at hbig
      refine ⟨t.wacc, ?_, hacc⟩
      unfold fillwin; rw [if_neg hn0]
      cases t.cfg.windowFill with
      | zeroFill =>
        simp only [if_pos hle]
        have : t.wcnt.toNat = 8 := by omega
        rw [this]; simp
      | asRead => rfl
  obtain ⟨v, hv, hvn⟩ := hv
  refine ⟨v >>> shamt c, ?_, ?_⟩
  · rw [exec_unpack_next hc hv, decide_eq_true]
    rw [addressBytes]; omega
  · rw [BitVec.toNat_ushiftRight, Nat.shiftRight_eq_div_pow, hvn, shamt]
    have hsh : 2 ^ (8 * (3 - c.toNat)) = 16 ^ (8 - field.length) := by
      rw [show (16:ℕ) = 2 ^ 4 from rfl, ← Nat.pow_mul]; congr 1; omega
    rw [hsh]
    have : 16 ^ (8 - field.length) = 16 ^ extra.length * 16 ^ (8 - (field.length + extra.length)) := by
      rw [← Nat.pow_add]; congr 1; omega
    rw [this, Nat.mul_div_mul_right _ _ (Nat.pow_pos (by decide)), Nat.mul_comm,
        Nat.mul_add_div (Nat.pow_pos (by decide)), Nat.div_eq_of_lt hf.2]; rfl

/-- Every text splits after its leading digits. -/
theorem split_digits (lower : Bool) (text : List Byte) : ∃ cs rest ds, text = cs ++ rest ∧
    List.Forall₂ (DigitValue lower) cs ds ∧ (rest = [] ∨ ∃ c r, rest = c :: r ∧ NotDigit lower c) := by
  induction text with
  | nil => exact ⟨[], [], [], rfl, .nil, .inl rfl⟩
  | cons c text ih =>
    rcases digit_or_not lower c with ⟨n, hn⟩ | hn
    · obtain ⟨cs, rest, ds, h1, h2, h3⟩ := ih
      exact ⟨c :: cs, rest, n :: ds, by rw [h1]; rfl, .cons hn h2, h3⟩
    · exact ⟨[], c :: text, [], rfl, .nil, .inr ⟨c, text, rfl, hn⟩⟩

/-- A text that begins with digits splits after those and the digits that follow. -/
theorem split_after {lower : Bool} {cs : List Byte} {ds : List Nat} (h : List.Forall₂ (DigitValue lower) cs ds)
    (text : List Byte) :
    ∃ cs' rest extra, cs ++ text = cs' ++ rest ∧ List.Forall₂ (DigitValue lower) cs' (ds ++ extra) ∧
      (rest = [] ∨ ∃ c r, rest = c :: r ∧ NotDigit lower c) := by
  obtain ⟨es, rest, fs, h1, h2, h3⟩ := split_digits lower text
  exact ⟨cs ++ es, rest, fs, by rw [h1, List.append_assoc], List.rel_append h h2, h3⟩

/-- After the UNPACK of a count record (R211). -/
theorem afterUnpack_count {d : DecodeCall} {r : RecordHead} {t : State} (hok : t.ok = true) (hc : isCountClass r.cls =
    true) :
    afterUnpack d r t = .next
        { t with host := .decoding { d with scan := { d.scan with expectedDataRecords := some t.res.toNat }, phase := .nextLine } } := by
  unfold afterUnpack; rw [if_neg (by simp [hok]), if_pos hc]; rfl

/-- After the UNPACK of a data record (R209). -/
theorem afterUnpack_data {d : DecodeCall} {r : RecordHead} {t : State} (hok : t.ok = true) (hc : isCountClass r.cls =
    false) :
    afterUnpack d r t = .next { t with host := .decoding { d with phase := .payloadLength r t.res.toNat } } := by
  unfold afterUnpack; rw [if_neg (by simp [hok]), if_neg (by simp [hc])]; rfl

/-- A record without payload (R215). -/
theorem afterPayloadLength_zero {d : DecodeCall} {r : RecordHead} {address : Nat} {t : State} (hok : t.ok = true)
    (h : t.res.toNat = 0) :
    afterPayloadLength d r address t = .next { t with host := .decoding (recordDone d address 0) } := by
  unfold afterPayloadLength; rw [if_neg (by simp [hok]), if_pos h]; rfl

/-- A record with payload (R210). -/
theorem afterPayloadLength_pos {d : DecodeCall} {r : RecordHead} {address : Nat} {t : State} (hok : t.ok = true)
    (h : t.res.toNat ≠ 0) :
    afterPayloadLength d r address t = .next
        { t with host := .decoding { d with phase := .payload r address t.res.toNat 0 } } := by
  unfold afterPayloadLength; rw [if_neg (by simp [hok]), if_neg h]; rfl

/-- The class of a data record's type digit and its width code (R73). -/
theorem class_of_data {c : WidthCode} (hc : c ≠ 0) : isDataClass (classOf (BitVec.ofNat 4 c.toNat)).number = true ∧
    isCountClass (classOf (BitVec.ofNat 4 c.toNat)).number = false ∧ (classOf (BitVec.ofNat 4 c.toNat)).widthCode =
        c := by
  revert c; decide

/-- PLEN of a length field that leaves `n` payload bytes (R130). -/
theorem plen_value {c : WidthCode} {len : Byte} {n : Nat} {s : State} (hc : c ≠ 0) (h : len.toNat = n + c.toNat + 2) :
    exec (.plen c len) s = .next (setres (BitVec.ofNat 32 n) true s) := by
  have hp : payloadLen c len = (n : Int) := by unfold payloadLen; omega
  rw [exec_plen_next hc, hp, decide_eq_true (by omega)]
  congr 2

/-- A data record from its line to its payload (R206 to R210). -/
theorem reaches_payload {s : State} {d : DecodeCall} {l : List Byte} {rest : List (List Byte)} {c : WidthCode}
    {l1 l2 a n : Nat}
    {cs more : List Byte} {field extra : List Nat}
    (hr : s.resetInput = []) (hh : s.host = .decoding d) (hp : d.phase = .nextLine) (hl : d.lines = l :: rest)
    (hc : c ≠ 0)
    (h0 : l.head? = some 0x53) (h1 : DigitValue s.cfg.hexLower (charAt l 1) c.toNat)
    (h2 : DigitValue s.cfg.hexLower (charAt l 2) l1) (h3 : DigitValue s.cfg.hexLower (charAt l 3) l2)
    (h4 : DigitValue s.cfg.hexLower (charAt l 4) a) (hlen : 16 * l1 + l2 = n + c.toNat + 2)
    (htext : ((List.range 8).map fun k => charAt l (4 + k)) = cs ++ more)
    (h : List.Forall₂ (DigitValue s.cfg.hexLower) cs (field ++ extra))
    (hmore : more = [] ∨ ∃ c r, more = c :: r ∧ NotDigit s.cfg.hexLower c)
    (hflen : field.length = 2 * (c.toNat + 1))
    (hfill : s.cfg.windowFill = .zeroFill ∨ (field ++ extra).length = 8) :
    ∃ t r, Reaches s t ∧ SameForCaller s t ∧ r.c = c ∧ t.host = .decoding
      (if n = 0 then recordDone (d.lineTaken l rest .nextLine) (hexValue field) 0
        else (d.lineTaken l rest (.payload r (hexValue field) n 0))) := by
  obtain ⟨t, q, hok, hu⟩ := reaches_dispatch hr hh hp hl h0 h1 h2 h3 h4
  obtain ⟨k1, k2, k3⟩ := class_of_data hc
  have hd1 := digit_lt h2
  have hd2 := digit_lt h3
  rw [headOf, k3] at hu
  generalize hcls : (classOf (BitVec.ofNat 4 c.toNat)).number = cls at *
  obtain ⟨u, hrun, qu, hhu⟩ : ∃ u, Reaches s u ∧ SameForCaller t u ∧
      u.host = .decoding (d.lineTaken l rest (.window ⟨cls, c, BitVec.ofNat 8 (16 * l1 + l2)⟩
      (wscan (windowText l)))) :=
    ⟨_, hu _ (dispatch_data hok k1), ⟨rfl, rfl, rfl, rfl, rfl, rfl, rfl⟩, rfl⟩
  have qsu := q.trans qu
  obtain ⟨v, hv, qv, hhv, hacc, hcnt, -⟩ := reaches_unpack (qsu.resetInput.trans hr) hhu rfl htext
      (by rw [qsu.cfg]; exact h) (by rw [qsu.cfg]; exact hmore)
  have qv := qsu.trans qv
  have hl8 := congrArg List.length htext
  simp only [List.length_append, List.length_map, List.length_range] at hl8
  have hl9 := h.length_eq
  obtain ⟨w, hw, hwn⟩ := unpack_value (t := v) hc h hacc hcnt hflen (by omega) (by rw [qv.cfg]; exact hfill)
  let r : RecordHead := ⟨cls, c, BitVec.ofNat 8 (16 * l1 + l2)⟩
  have hcode : unpackCode r = c := by unfold unpackCode; rw [show isCountClass r.cls = false from k2]; rfl
  have hstep := step_issue (s := v) (d := (d.lineTaken l rest (.window r []))) (i := .unpack c)
    (k := afterUnpack _ r) (qv.resetInput.trans hr) hhv (by show issue (.unpack (unpackCode r)) _ _ = _; rw [hcode])
        (by simpa [Instr.wellFormed, legalCode] using hc) hw (afterUnpack_data rfl k2)
  rw [setres_res, hwn] at hstep
  have q5 := qv.trans (setres_sameForCaller w v (.decoding (d.lineTaken l rest (.payloadLength r (hexValue field)))))
  have hpl := plen_value (len := BitVec.ofNat 8 (16 * l1 + l2)) (n := n) (s :=
      { setres w true v with host := .decoding (d.lineTaken l rest (.payloadLength r (hexValue field))) }) hc
      (by rw [BitVec.toNat_ofNat]; omega)
  have hn : (BitVec.ofNat 32 n).toNat = n := by rw [BitVec.toNat_ofNat]; omega
  by_cases hz : n = 0
  · simp only [if_pos hz]
    have h6 := step_issue (q5.resetInput.trans hr) rfl (k :=
        afterPayloadLength (d.lineTaken l rest (.payloadLength r (hexValue field))) r (hexValue field)) rfl
        (by simpa [Instr.wellFormed, legalCode] using hc) hpl (afterPayloadLength_zero rfl (hn.trans hz))
    exact ⟨_, r, hrun.trans (hv.trans (.head hstep (.one h6))), q5.trans (setres_sameForCaller _ _ _), rfl, rfl⟩
  · simp only [if_neg hz]
    have h6 := step_issue (q5.resetInput.trans hr) rfl (k :=
        afterPayloadLength (d.lineTaken l rest (.payloadLength r (hexValue field))) r (hexValue field)) rfl
        (by simpa [Instr.wellFormed, legalCode] using hc) hpl (afterPayloadLength_pos rfl
        (by rw [setres_res, hn]; exact hz))
    rw [setres_res, hn] at h6
    exact ⟨_, r, hrun.trans (hv.trans (.head hstep (.one h6))), q5.trans (setres_sameForCaller _ _ _), rfl, rfl⟩

/-- A bad payload pair (R213). -/
theorem afterPayloadByte_bad {d : DecodeCall} {r : RecordHead} {address p i : Nat} {t : State} (hok : t.ok = false) :
    afterPayloadByte d r address p i t = .next
        { t with host := .idle, result := some (.failed (.malformedRecord d.scan.lineNumber (some i))) } := by
  unfold afterPayloadByte; rw [if_pos (by simp [hok])]; rfl

/-- A good payload pair of a record out of range (R214). -/
theorem afterPayloadByte_range {d : DecodeCall} {r : RecordHead} {address p i : Nat} {t : State} (hok : t.ok = true)
    (h : ¬(d.start ≤ address ∧ address + p ≤ d.stop)) :
    afterPayloadByte d r address p i t = .next
        { t with host := .idle, result := some (.failed (.addressOutOfRange address d.scan.lineNumber)) } := by
  unfold afterPayloadByte; rw [if_neg (by simp [hok]), if_pos h]; rfl

/-- A good payload pair of a record in range (R214, R215). -/
theorem afterPayloadByte_write {d : DecodeCall} {r : RecordHead} {address p i : Nat} {t : State} {m : Memory}
    (hok : t.ok = true)
    (h : d.start ≤ address ∧ address + p ≤ d.stop) (hm : d.buffer.write (address - d.start + i) (t.res.extractLsb' 0
        8) = some m) :
    afterPayloadByte d r address p i t = .next
        { t with host := .decoding (if i + 1 < p then { d with buffer := m, phase := .payload r address p (i + 1) } else recordDone { d with buffer := m } address p) } := by
  unfold afterPayloadByte; rw [if_neg (by simp [hok]), if_neg (by simpa using h), hm]; dsimp only
  split <;> rfl

/-- HEXBYTE of a good pair (R102). -/
theorem pair_value {lower : Bool} {q : Byte × Byte} {v : Byte} (h : PairValue lower q v) {s : State}
    (hl : s.cfg.hexLower = lower) :
    exec (.hexbyte q.1 q.2) s = .next (setres (v.setWidth 32) true s) := by
  obtain ⟨x, y, hx, hy, hv⟩ := h
  subst hl
  rw [exec_hexbyte_digits hx hy]
  congr 2
  apply BitVec.eq_of_toNat_eq
  have := v.isLt
  simp [hv]

/-- The byte of a zero-extended byte. -/
theorem byte_of_word (v : Byte) : (v.setWidth 32).extractLsb' 0 8 = v := by
  apply BitVec.eq_of_toNat_eq
  have := v.isLt
  rw [toNat_extract]; simp; omega

/-- One payload byte of a record in range (R212 to R215). -/
theorem step_payload {s : State} {d : DecodeCall} {r : RecordHead} {address p i : Nat} {v : Byte} {m : Memory}
    {c1 c2 : Byte}
    (hr : s.resetInput = []) (hh : s.host = .decoding d) (hp : d.phase = .payload r address p i)
    (h1 : charAt d.line (payloadAt r.c i) = c1) (h2 : charAt d.line (payloadAt r.c i + 1) = c2)
    (hv : PairValue s.cfg.hexLower (c1, c2) v) (hrange : d.start ≤ address ∧ address + p ≤ d.stop)
    (hm : d.buffer.write (address - d.start + i) v = some m) :
    step s = .next { setres (v.setWidth 32) true s with host := .decoding (if i + 1 < p then { d with buffer := m, phase := .payload r address p (i + 1) } else recordDone { d with buffer := m } address p) } := by
  refine step_issue (i := .hexbyte (charAt d.line (payloadAt r.c i)) (charAt d.line (payloadAt r.c i + 1))) (k :=
      afterPayloadByte d r address p i) (t := setres (v.setWidth 32) true s) hr hh ?_ rfl ?_ ?_
  · unfold decodeStep; rw [hp]
  · rw [h1, h2]; exact pair_value hv rfl
  · rw [afterPayloadByte_write rfl hrange]
    rw [setres_res, byte_of_word]; exact hm

/-- A character further on in a line. -/
theorem charAt_drop {l r : List Byte} {n : Nat} (h : l.drop n = r) (k : Nat) : charAt l (n + k) = r.getD k
    lineFeed := by
  subst h
  simp [charAt, List.getD_eq_getElem?_getD, List.getElem?_drop]

/-- The rest of a payload: every byte is written at its place, no other byte of the buffer changes (R212 to R215). -/
theorem reaches_recordDone {lower : Bool} {qs : List (Byte × Byte)} {vs : List Byte} (h : List.Forall₂
    (PairValue lower) qs vs) :
    ∀ {s : State} {d : DecodeCall} {r : RecordHead} {address p i : Nat} {tail : List Byte},
      s.resetInput = [] → s.host = .decoding d → d.phase = .payload r address p i → s.cfg.hexLower = lower →
      p = i + vs.length → vs ≠ [] → d.line.drop (payloadAt r.c i) = qs.flatMap (fun q => [q.1, q.2]) ++ tail →
      d.start ≤ address ∧ address + p ≤ d.stop → d.buffer.wf = true → d.buffer.size = d.stop - d.start →
      ∃ t m, Reaches s t ∧ SameForCaller s t ∧ t.host = .decoding (recordDone { d with buffer := m } address p) ∧
        m.wf = true ∧ m.size = d.buffer.size ∧ (∀ k (hk : k < vs.length), m.read (address - d.start + i + k) = some
            vs[k]) ∧
        ∀ j, (∀ k < vs.length, j ≠ address - d.start + i + k) → m.read j = d.buffer.read j := by
  induction h with
  | nil => intro s d r address p i tail _ _ _ _ _ h; exact absurd rfl h
  | cons hq hqs ih =>
    rename_i q v qs vs
    intro s d r address p i tail hr hh hp hl hpl _ hline hrange hwf hsize
    simp only [List.length_cons] at hpl
    have hlt : address - d.start + i < d.buffer.size := by omega
    obtain ⟨m, hm⟩ : ∃ m, d.buffer.write (address - d.start + i) v = some m := ⟨_, if_pos hlt⟩
    have hmw := Memory.write_wf hwf hm
    have hms := Memory.write_size hm
    have hrw := Memory.read_write hwf hm
    have c1 := charAt_drop hline 0
    have c2 := charAt_drop hline 1
    have hstep := step_payload hr hh hp c1 c2 (v := v) (by rw [hl]; exact hq) hrange hm
    by_cases hvs : vs = []
    · subst hvs
      simp only [List.length_nil] at hpl
      rw [if_neg (by omega)] at hstep
      refine ⟨_, m, .one hstep, setres_sameForCaller _ s _, rfl, hmw, hms, ?_, ?_⟩
      · intro k hk
        simp only [List.length_cons, List.length_nil] at hk
        obtain rfl : k = 0 := by omega
        rw [hrw, if_pos (by omega)]; rfl
      · intro j hj
        rw [hrw, if_neg (by have := hj 0 (by simp); simpa using this)]
    · have hpos : 0 < vs.length := List.length_pos_iff.mpr hvs
      rw [if_pos (by omega)] at hstep
      obtain ⟨t, m', ht, hq', hhost, hw', hs', hr1, hr2⟩ := ih
        (s := { setres (v.setWidth 32) true s with host := .decoding { d with buffer := m, phase := .payload r address p (i + 1) } }) (tail := tail)
        hr rfl rfl hl (by omega) hvs (by
          show d.line.drop (payloadAt r.c (i + 1)) = _
          have e : payloadAt r.c (i + 1) = payloadAt r.c i + 2 := by simp only [payloadAt]; omega
          rw [e, ← List.drop_drop, hline]; rfl) hrange hmw (hms.trans hsize)
      refine ⟨t, m', .head hstep ht, (setres_sameForCaller _ s _).trans hq', hhost, hw', hs'.trans hms, ?_, ?_⟩
      · intro k hk
        cases k with
        | zero =>
          rw [hr2 _ (fun k _ => by dsimp only; omega)]
          dsimp only
          rw [hrw, if_pos (by omega)]; rfl
        | succ k =>
          have hk' : k < vs.length := by simpa using hk
          have := hr1 k hk'
          dsimp only at this
          rw [show address - d.start + i + (k + 1) = address - d.start + (i + 1) + k by omega, this]; rfl
      · intro j hj
        rw [hr2 j (fun k hk => by
          have := hj (k + 1) (by simp; omega)
          dsimp only; omega)]
        dsimp only
        rw [hrw, if_neg (by have := hj 0 (by simp); simpa using this)]

/-- A payload's text is two digits a byte. -/
theorem flat_digits {lower : Bool} {pairs : List (Byte × Byte)} {payload : List Byte} (h : List.Forall₂
    (PairValue lower) pairs payload) :
    (pairs.flatMap (fun q => [q.1, q.2])).length = 2 * payload.length ∧ ∀ x ∈ pairs.flatMap (fun q => [q.1, q.2]),
        ∃ n, DigitValue lower x n := by
  induction h with
  | nil => exact ⟨rfl, fun x hx => nomatch hx⟩
  | cons hq _ ih =>
    obtain ⟨x, y, hx, hy, -⟩ := hq
    refine ⟨by simp [ih.1]; omega, fun z hz => ?_⟩
    simp only [List.flatMap_cons, List.cons_append, List.nil_append, List.mem_cons] at hz
    rcases hz with rfl | rfl | hz
    · exact ⟨_, hx⟩
    · exact ⟨_, hy⟩
    · exact ih.2 z hz

/-- A character of the second part of a line. -/
theorem charAt_append (a b : List Byte) (k : Nat) : charAt (a ++ b) (a.length + k) = charAt b k := by
  simp only [charAt, List.getD_eq_getElem?_getD]
  rw [List.getElem?_append_right (by omega), Nat.add_sub_cancel_left]

/-- The eight characters from a field on split after the field's digits and those over-read (R123). -/
theorem window_split {lower : Bool} {addr : List Byte} {field : List Nat} (h : List.Forall₂ (DigitValue lower) addr
    field)
    (hlen : addr.length ≤ 8) (b : List Byte) :
    ∃ cs more extra, ((List.range 8).map fun k => charAt (addr ++ b) k) = cs ++ more ∧
      List.Forall₂ (DigitValue lower) cs (field ++ extra) ∧ (more = [] ∨ ∃ c r, more = c :: r ∧ NotDigit lower c) := by
  have : ((List.range 8).map fun k => charAt (addr ++ b) k) = addr ++ ((List.range (8 - addr.length)).map fun k =>
      charAt b k) := by
    have e : 8 = addr.length + (8 - addr.length) := by omega
    conv_lhs => rw [e]
    rw [List.range_add, List.map_append, List.map_map]
    congr 1
    · apply List.ext_getElem
      · simp
      · intro k h1 h2
        simp [charAt, List.getD_eq_getElem?_getD, List.getElem?_append_left h2, List.getElem?_eq_getElem h2]
    · apply List.map_congr_left
      intro k _
      exact charAt_append addr b k
  rw [this]
  exact split_after h _

end Sys2Proof.Machine
end

