-- ==== Sys2Proof/Laws/EncodeRun.lean ====
section
/-! SUPPORT. Runs of steps through an encode call (48_host_sequencing.md R220 to R230): the checksum of a line and the
line it ends in. -/

namespace Sys2Proof.Machine

/-- What the host's caller sees is unchanged while a line's checksum is made. -/
structure SameForEncoder (s t : State) : Prop where
  errs : t.errs = s.errs
  ill : t.ill = s.ill
  cfg : t.cfg = s.cfg
  result : t.result = s.result
  port : t.port = s.port
  resetInput : t.resetInput = s.resetInput

theorem SameForEncoder.refl (s : State) : SameForEncoder s s := ⟨rfl, rfl, rfl, rfl, rfl, rfl⟩
theorem SameForEncoder.trans {s t u : State} (h : SameForEncoder s t) (h' : SameForEncoder t u) : SameForEncoder s u :=
  ⟨h'.errs.trans h.errs, h'.ill.trans h.ill, h'.cfg.trans h.cfg, h'.result.trans h.result, h'.port.trans h.port,
      h'.resetInput.trans h.resetInput⟩

theorem SameForEncoder.host (s : State) (g : HostCall) : SameForEncoder s { s with host := g } := ⟨rfl, rfl, rfl, rfl,
    rfl, rfl⟩

/-- A line's checksum is in `RES` when its commands are done (R154, R226, R227). -/
theorem reaches_line {s : State} {e : EncodeCall} {job : LineJob} {len half type payload bias}
    (hr : s.resetInput = []) (hh : s.host = .encoding e) (hp : e.phase = .checksum job (ckrec len half type payload
        bias)) :
    ∃ t, Reaches s t ∧ SameForEncoder s t ∧ t.host = .encoding { e with phase := .checksum job [] } ∧
      t.res.extractLsb' 0 8 = BitVec.ofNat 8 (checksumNat (len.toNat + half.toNat % 256 + half.toNat / 256 +
          type.toNat + byteSum payload) bias.toNat) := by
  obtain ⟨t, ht, hres, -, -, hs⟩ := runCommands_ckrec len half type payload bias s
  refine ⟨_, reaches_checksum (e := e) hr (by rw [hh, ← hp]) (fun i hi => (ckrec_legal _ _ _ _ _ i hi).1) ht,
      ⟨hs.errs, hs.ill, hs.outside.cfg, hs.outside.result, hs.outside.port, hs.outside.resetInput⟩, rfl, ?_⟩
  dsimp only
  rw [hres]
  apply BitVec.eq_of_toNat_eq
  rw [toNat_extract, BitVec.toNat_ofNat, BitVec.toNat_ofNat]
  omega

/-- The bytes of the chunk of `n` bytes at the cursor (R227, R230). -/
abbrev EncodeCall.chunkBytes (e : EncodeCall) (n : Nat) : List Byte :=
  bufferBytes e.buffer (e.currentAddress - e.start) n

/-- The data record of a chunk inside the buffer begins (R227). -/
theorem startData_eq {e : EncodeCall} {s : State} {n : Nat} (h : e.currentAddress - e.start + n ≤ e.buffer.size) :
    startData e n s = .next
        { s with host := .encoding { e with phase := .checksum (.data (e.chunkBytes n)) (dataSum s.cfg (lowAddress e.currentAddress) (e.chunkBytes n)) } } := by
  unfold startData
  rw [Memory.readBytes_eq _ _ _ h]; rfl

/-- The announcement is written, and the chunk's data record begins (R226). -/
theorem writeAnnouncement_eq {e : EncodeCall} {s : State} {n : Nat} {idx : Half} (h : e.currentAddress - e.start + n ≤
    e.buffer.size) :
    writeAnnouncement e idx n s = .next { s with host := .encoding { e with
      out := e.out ++ withLineFeed (announcementText idx (s.res.extractLsb' 0 8))
      currentBlockBase := some idx.toNat
      phase := .checksum (.data (e.chunkBytes n)) (dataSum s.cfg (lowAddress e.currentAddress) (e.chunkBytes n)) }
          } := by
  unfold writeAnnouncement
  exact startData_eq (e :=
      { e with out := e.out ++ withLineFeed (announcementText idx (s.res.extractLsb' 0 8)), currentBlockBase := some idx.toNat }) h

/-! ### The lines, character by character -/

theorem upperDigit_eq (n : Nat) : upperDigit (n % 16) = hexDigit (BitVec.ofNat 4 n) := by
  have : ∀ k < 16, upperDigit k = hexDigit (BitVec.ofNat 4 k) := by decide
  rw [this _ (Nat.mod_lt _ (by decide))]
  congr 1
  apply BitVec.eq_of_toNat_eq
  simp

/-- `text2` spells `HEX2` out (R79, R230). -/
theorem text2_eq (v : Nat) : text2 v = hex2 (BitVec.ofNat 8 v) := by
  have h4 : (BitVec.ofNat 8 v).extractLsb' 4 4 = BitVec.ofNat 4 (v / 16) := by
    apply BitVec.eq_of_toNat_eq; rw [toNat_extract, BitVec.toNat_ofNat, BitVec.toNat_ofNat]; omega
  have h0 : (BitVec.ofNat 8 v).extractLsb' 0 4 = BitVec.ofNat 4 v := by
    apply BitVec.eq_of_toNat_eq; rw [toNat_extract, BitVec.toNat_ofNat, BitVec.toNat_ofNat]; omega
  rw [text2, hex2, h4, h0, upperDigit_eq, upperDigit_eq]

/-- `text4` spells `HEX4` out (R79, R230). -/
theorem text4_eq (v : Nat) : text4 v = hex4 (BitVec.ofNat 16 v) := by
  have h8 : (BitVec.ofNat 16 v).extractLsb' 8 8 = BitVec.ofNat 8 (v / 256) := by
    apply BitVec.eq_of_toNat_eq; rw [toNat_extract, BitVec.toNat_ofNat, BitVec.toNat_ofNat]; omega
  have h0 : (BitVec.ofNat 16 v).extractLsb' 0 8 = BitVec.ofNat 8 v := by
    apply BitVec.eq_of_toNat_eq; rw [toNat_extract, BitVec.toNat_ofNat, BitVec.toNat_ofNat]; omega
  rw [text4, hex4, h8, h0, text2_eq, text2_eq]

/-- The encoder's announcement is the line of R76 and R226. -/
theorem announcementLine_eq (address : Nat) :
    announcementLine address =
      withLineFeed
        (announcementText (blockIndex address)
          (BitVec.ofNat 8 (checksumNat (6 + blockOf address / 256 + blockOf address % 256) 0))) := by
  rw [announcementLine, text4_eq, text2_eq]
  rfl

/-- The encoder's data record is the line of R77 and R227. -/
theorem dataLine_eq (cfg : Config) (address : Nat) (payload : List Byte) :
    dataLine cfg address payload =
      withLineFeed
        (dataText (lowAddress address) payload
          (BitVec.ofNat 8
            (checksumNat
              (payload.length + address % 256 + address / 256 % 256 + cfg.dataCksumType.toNat + byteSum payload)
              4))) := by
  have h : (fun b : Byte => text2 b.toNat) = hex2 := by
    funext b; rw [text2_eq, BitVec.ofNat_toNat, BitVec.setWidth_eq]
  rw [dataLine, text2_eq, text4_eq, text2_eq, h]
  rfl

/-- The terminator is the line of R78. -/
theorem terminatorLine_eq : terminatorLine = withLineFeed terminatorText := rfl

/-! ### A line from its checksum to its text -/

/-- A data record from its start to the next chunk (R227, R228). -/
theorem reaches_nextChunk {s : State} {e : EncodeCall} {payload : List Byte}
    (hr : s.resetInput = []) (hh : s.host = .encoding e)
    (hp : e.phase = .checksum (.data payload) (dataSum s.cfg (lowAddress e.currentAddress) payload))
        (hlen : payload.length < 256) :
    ∃ t, Reaches s t ∧ SameForEncoder s t ∧ t.host = .encoding { e with
      out := e.out ++ dataLine s.cfg e.currentAddress payload
      currentAddress := e.currentAddress + payload.length
      phase := .chunk } := by
  obtain ⟨t, ht, q, hht, hres⟩ := reaches_line hr hh hp
  refine ⟨_, ht.trans (.one (t := { t with host := .encoding { e with
      out := e.out ++ dataLine s.cfg e.currentAddress payload
      currentAddress := e.currentAddress + payload.length
      phase := .chunk } }) ?_), q.trans ⟨rfl, rfl, rfl, rfl, rfl, rfl⟩, rfl⟩
  rw [step_of_encoding (q.resetInput.trans hr) hht]
  show writeData _ _ _ = _
  unfold writeData goEncode
  dsimp only
  rw [hres]
  have e1 : (BitVec.ofNat 8 payload.length).toNat = payload.length := by rw [BitVec.toNat_ofNat]; omega
  have e2 : (lowAddress e.currentAddress).toNat = e.currentAddress % 65536 := by
    unfold lowAddress blockSize; rw [BitVec.toNat_ofNat]; omega
  rw [e1, e2]
  rw [dataLine_eq]
  rw [show e.currentAddress % 65536 % 256 = e.currentAddress %
      256 by omega, show e.currentAddress % 65536 / 256 = e.currentAddress / 256 % 256 by omega]
  rfl

theorem bufferBytes_length (m : Memory) (i n : Nat) : (bufferBytes m i n).length = n := by simp [bufferBytes]

end Sys2Proof.Machine
end

