-- ==== Sys2Proof/Tests/Slice0.lean ====
section
/-! SUPPORT. Tests of the decoder, the checks of WellFormed and one step of each command, with results from the spec's
vectors (95_test_vectors.md), and a witness for the hypotheses of every statement that has some. -/

open Sys2Proof Sys2Proof.Machine

namespace Sys2Proof.Tests

/-! ### Helpers -/

/-- The state after one command word, if it is answered. -/
def after (w : Nat) (s : State) : Option State :=
  match step (s.withFetchWord 32 w) with
  | .next t => some t
  | .fault _ => none
  | .refused _ => none

/-- What the two output ports show after one command word. -/
def ports (w : Nat) (s : State) : Option (Word × Word) := (after w s).map fun t => (readRes t, readStatus t)

/-- Reset, with these parameters. -/
def withCfg (lower : Bool) (fill : WindowFill) : State :=
  { State.reset with cfg := { Config.thisSpec with hexLower := lower, windowFill := fill } }

/-- Reset, with these window registers. -/
def withWindow (wacc : Word) (wcnt : BitVec 4) (wstop : Bool) : State :=
  { State.reset with wacc := wacc, wcnt := wcnt, wstop := wstop }

/-- Reset, with this sum. -/
def withSum (v : Byte) : State := { State.reset with ckacc := v }

/-- The state of V-K1: after `HEXNIB 'A'`. -/
def afterA : State := { State.reset with res := 0xA, ok := true }

/-- A decode call over a buffer of four zeros at `[0, 4)`, in its second line. -/
def callAt (lines : List (List Byte)) (line : List Byte) (p : DecodePhase) : DecodeCall :=
  { start := 0, stop := 4, buffer := { size := 4, cells := [] }, lines := lines, line := line
    scan := { lineNumber := 1, dataRecordsSeen := 0, expectedDataRecords := none, highestAddressWritten := 0 }
    phase := p }

/-- Reset, with a decode call in progress. -/
def decodingState (d : DecodeCall) : State := { State.reset with host := .decoding d }

/-- An encode call over the buffer `00 07` at `[0, 2)`. -/
def encodeAt (a : Nat) (p : EncodePhase) : EncodeCall :=
  { start := 0, stop := 2, buffer := { size := 2, cells := [(1, 0x07)] }, currentAddress := a, currentBlockBase := none
    out := [], phase := p }

/-- Reset, with an encode call in progress. -/
def encodingState (e : EncodeCall) : State := { State.reset with host := .encoding e }

theorem digit0 (lower : Bool) : DigitValue lower 0x30 0 := .inl ⟨by decide, rfl⟩
theorem digit1 (lower : Bool) : DigitValue lower 0x31 1 := .inl ⟨by decide, rfl⟩
theorem digit3 (lower : Bool) : DigitValue lower 0x33 3 := .inl ⟨by decide, rfl⟩
theorem digit4 (lower : Bool) : DigitValue lower 0x34 4 := .inl ⟨by decide, rfl⟩
theorem notDigitX : NotDigit true 0x58 := (hexval_none_iff _ _).mp (by decide)

/-! ### Decoding: words written out from the formats (30_encoding.md R61 to R65; 95_test_vectors.md) -/

theorem test_decode_nop : decode 0x00000000 = .ok .nop := rfl
theorem test_decode_hexnib : decode 0x10000043 = .ok (.hexnib 0x43) := rfl
theorem test_decode_hexbyte : decode 0x20003242 = .ok (.hexbyte 0x32 0x42) := rfl
theorem test_decode_wclr : decode 0x30000000 = .ok .wclr := rfl
theorem test_decode_wpush : decode 0x40000039 = .ok (.wpush 0x39) := rfl
theorem test_decode_unpack : decode 0x53000000 = .ok (.unpack 3) := rfl
theorem test_decode_classify : decode 0x60000053 = .ok (.classify 0x53) := rfl
theorem test_decode_plen : decode 0x720000FF = .ok (.plen 2 0xFF) := rfl
theorem test_decode_ckclr : decode 0x80000000 = .ok .ckclr := rfl
theorem test_decode_ckadd : decode 0x900000F0 = .ok (.ckadd 0xF0) := rfl
theorem test_decode_ckadd16 : decode 0xA0001234 = .ok (.ckadd16 0x1234) := rfl
theorem test_decode_ckfin : decode 0xB0000004 = .ok (.ckfin 4) := rfl
theorem test_decode_clrst : decode 0xC0000000 = .ok .clrst := rfl
theorem test_decode_reservedD : decode 0xD0000000 = .ok (.reservedD 0) := rfl
theorem test_decode_reservedE : decode 0xE1234567 = .ok (.reservedE 0x1234567) := rfl
theorem test_decode_reservedF : decode 0xFFFFFFFF = .ok (.reservedF 0xFFFFFFF) := rfl

/-- The illegal words of V-K1 that are no reserved opcode are rejected by name. -/
theorem test_decode_illegal :
    decode 0x00000001 = .error .mustBeZero ∧ decode 0x10000100 = .error .mustBeZero ∧
      decode 0x20010000 = .error .mustBeZero ∧ decode 0x50000000 = .error .widthCodeZero ∧
      decode 0x51000001 = .error .unpackLength ∧ decode 0x54000000 = .error .mustBeZero ∧
      decode 0x70000003 = .error .widthCodeZero ∧ decode 0xC0000001 = .error .mustBeZero :=
  ⟨rfl, rfl, rfl, rfl, rfl, rfl, rfl, rfl⟩

theorem test_decodeTableWord : decodeTableWord 32 0x7100002B = some (.plen 1 0x2B) := by decide

/-- The assembler text of R69. -/
theorem test_assembly : (Instr.plen 1 0x2B).assembly = "PLEN 1, 0x2B" := by decide

/-! ### WellFormed refuses ill-formed terms -/

theorem test_unpack_zero_refused : (Instr.unpack 0).wellFormed = false := by decide
theorem test_plen_zero_refused : (Instr.plen 0 0x03).wellFormed = false := by decide

/-! ### One step of each command -/

/-- V-K4. -/
theorem test_nop : ports 0x00000000 afterA = some (0xA, 0x01) := by decide
/-- V-H1. -/
theorem test_hexnib_lower : ports 0x10000066 State.reset = some (0xF, 0x01) := by decide
/-- V-H2. -/
theorem test_hexnib_lower_off : ports 0x10000061 (withCfg false .zeroFill) = some (0, 0x02) := by decide
/-- V-H3. -/
theorem test_hexbyte : ports 0x20003242 State.reset = some (0x2B, 0x01) := by decide
/-- V-H4. -/
theorem test_hexbyte_bad_low : ports 0x20003947 State.reset = some (0, 0x02) := by decide
/-- R122. -/
theorem test_wclr : ports 0x30000000 (withWindow 0x12 2 true) = some (0, 0x01) := by decide
/-- V-U0, the eighth digit. -/
theorem test_wpush_eighth : ports 0x40000038 (withWindow 0x1234567 7 false) = some (0x12345678, 0x89) := by decide
/-- V-U0b. -/
theorem test_wpush_invalid : ports 0x40000058 (withWindow 0x12 2 false) = some (0x12, 0x28) := by decide
/-- V-U13 under AS_READ. -/
theorem test_unpack_as_read :
    (after 0x52000000 { withCfg true .asRead with wacc := 0x12345, wcnt := 5, wstop := true }).map (·.res) =
      some 0x123 := by
  decide
/-- V-U10. -/
theorem test_unpack_short : ports 0x51000000 (withWindow 0x123 3 true) = some (0x1230, 0x3A) := by decide
/-- V-U16. -/
theorem test_classify : ports 0x60000032 State.reset = some (0x22, 0x01) := by decide
/-- V-U19. -/
theorem test_classify_invalid : ports 0x60000053 State.reset = some (0x07, 0x02) := by decide
/-- V-U20. -/
theorem test_plen : ports 0x7100002B State.reset = some (0x28, 0x01) := by decide
/-- V-U31. -/
theorem test_plen_negative : ports 0x73000000 State.reset = some (0xFFFFFFFB, 0x02) := by decide
/-- R150. -/
theorem test_ckclr : (after 0x80000000 (withSum 0x56)).map (·.ckacc) = some 0 := by decide
/-- V-C1, the carry lost. -/
theorem test_ckadd : ports 0x90000020 (withSum 0xF0) = some (0x10, 0x01) := by decide
/-- V-C1. -/
theorem test_ckadd16 : ports 0xA0001234 (withSum 0x10) = some (0x56, 0x01) := by decide
/-- V-C1. -/
theorem test_ckfin : ports 0xB0000004 (withSum 0x56) = some (0xA6, 0x01) := by decide
/-- V-C3, the wrap. -/
theorem test_ckfin_wrap : ports 0xB0000004 (withSum 0x00) = some (0xFC, 0x01) := by decide
/-- V-K5. -/
theorem test_clrst : ports 0xC0000000 { afterA with ill := true } = some (0xA, 0x01) := by decide
/-- V-K1. -/
theorem test_reservedD : ports 0xD0000000 afterA = some (0xA, 0x05) := by decide
/-- V-K1. -/
theorem test_reservedE : ports 0xE1234567 afterA = some (0xA, 0x05) := by decide
/-- V-K1. -/
theorem test_reservedF : ports 0xF0000000 afterA = some (0xA, 0x05) := by decide
/-- V-K2: an illegal WCLR does not clear the window. -/
theorem test_illegal_wclr : ports 0x30000001 { withWindow 0xA 1 false with ok := true } = some (0, 0x15) := by decide
/-- V-C4: the announcement of block 1, and `FD` at 0. -/
theorem test_cksum : cksum 2 0x0000 4 [0x00, 0x01] 0 = 0xF9 ∧ cksum 1 0x0000 0 [0xFD] 4 = 0xFE := by decide
/-- V-E2's chunk at the 64K boundary, and V-E5's, which is not shrunk. -/
theorem test_chunkLength : chunkLength 0x1FFF0 0x20010 = 16 ∧ chunkLength 0xFFE0 0x10000 = 32 := by decide

/-! ### Witnesses -/

theorem witness_DecodeReadsBackEveryEncodedInstruction : (Instr.plen 1 0x2B).wellFormed = true := by decide

theorem witness_EncodeReturnsEveryDecodedWord : decode 0xA0001234 = .ok (.ckadd16 0x1234) := rfl

theorem witness_LegalWordsAreTheirCommands_legal :
    ¬IllegalWord 0x00000000 ∧ ¬IllegalWord 0x100000FF ∧ ¬IllegalWord 0x2000FFFF ∧ ¬IllegalWord 0x30000000 ∧
      ¬IllegalWord 0x400000FF ∧ ¬IllegalWord 0x53000000 ∧ ¬IllegalWord 0x600000FF ∧ ¬IllegalWord 0x730000FF ∧
      ¬IllegalWord 0x80000000 ∧ ¬IllegalWord 0x900000FF ∧ ¬IllegalWord 0xA000FFFF ∧ ¬IllegalWord 0xB00000FF ∧
      ¬IllegalWord 0xC0000000 := by
  refine ⟨?_, ?_, ?_, ?_, ?_, ?_, ?_, ?_, ?_, ?_, ?_, ?_, ?_⟩ <;> (unfold IllegalWord; decide)

theorem witness_LegalWordsAreTheirCommands_illegal :
    IllegalWord 0xD0000000 ∧ IllegalWord 0x00000001 ∧ IllegalWord 0x10000100 ∧ IllegalWord 0x20010000 ∧
      IllegalWord 0x70000003 ∧ IllegalWord 0x74000003 ∧ IllegalWord 0x51000001 := by
  refine ⟨?_, ?_, ?_, ?_, ?_, ?_, ?_⟩ <;> (unfold IllegalWord; decide)

theorem witness_IllegalWordSetsIllAndNothingElse :
    IllegalWord 0x50000000 ∧ { afterA with ill := true }.ill = true ∧ (0x00000000 : Word) ≠ 0xC0000000 ∧
      command 0x00000000 { afterA with ill := true } = .next { afterA with ill := true } ∧
      { State.reset with resetInput := [true] }.resetInput = true :: [] :=
  ⟨by unfold IllegalWord; decide, rfl, by decide, rfl, rfl⟩

theorem witness_StepPerformsTheNextCommand :
    (State.reset.withFetchWord 32 0x10000043).host = .idle ∧
      (State.reset.withFetchWord 32 0x10000043).resetInput = [] ∧
      (State.reset.withFetchWord 32 0x10000043).port = [.command 0x10000043] ∧
      decode 0x10000043 = .ok (.hexnib 0x43) ∧ decode 0x10000100 = .error .mustBeZero := by
  refine ⟨rfl, rfl, by decide, rfl, rfl⟩

theorem witness_ResetInputLowIsNoReset :
    { State.reset with resetInput := [false, true] }.resetInput = false :: [true] := rfl

theorem witness_ResetSetsEveryRegister :
    { withWindow 0x12 2 true with resetInput := [true] }.resetInput = true :: [] := rfl

theorem witness_IdlePortChangesNothing :
    afterA.host = .idle ∧ afterA.port = [] ∧ afterA.resetInput = [] := ⟨rfl, rfl, rfl⟩

/-- The three ranges of R100's table at their ends, and the characters next to them. -/
theorem witness_HexnibReadsOneDigit :
    (0x10000100 : Word).toNat / 2 ^ 28 = 0x1 ∧ (0x10000100 : Word).toNat / 2 ^ 8 % 2 ^ 20 ≠ 0 ∧
      DigitValue State.reset.cfg.hexLower 0x30 0 ∧ DigitValue State.reset.cfg.hexLower 0x39 9 ∧
      DigitValue State.reset.cfg.hexLower 0x41 10 ∧ DigitValue State.reset.cfg.hexLower 0x46 15 ∧
      DigitValue State.reset.cfg.hexLower 0x61 10 ∧ DigitValue State.reset.cfg.hexLower 0x66 15 ∧
      NotDigit State.reset.cfg.hexLower 0x2F ∧ NotDigit State.reset.cfg.hexLower 0x3A ∧
      NotDigit State.reset.cfg.hexLower 0x40 ∧ NotDigit State.reset.cfg.hexLower 0x47 ∧
      NotDigit State.reset.cfg.hexLower 0x60 ∧ NotDigit State.reset.cfg.hexLower 0x67 ∧ NotDigit false 0x61 := by
  refine ⟨by decide, by decide, ?_, ?_, ?_, ?_, ?_, ?_, ?_, ?_, ?_, ?_, ?_, ?_, ?_⟩
  all_goals first
    | (unfold DigitValue; decide)
    | exact (hexval_none_iff _ _).mp (by decide)

theorem witness_HexbyteReadsAPairHighNibbleFirst :
    (0x20010000 : Word).toNat / 2 ^ 28 = 0x2 ∧ (0x20010000 : Word).toNat / 2 ^ 16 % 2 ^ 12 ≠ 0 ∧
      DigitValue State.reset.cfg.hexLower 0x31 1 ∧ DigitValue State.reset.cfg.hexLower 0x33 3 ∧
      NotDigit State.reset.cfg.hexLower 0x58 :=
  ⟨by decide, by decide, digit1 _, digit3 _, notDigitX⟩

theorem witness_WclrClearsTheWindow :
    (0x30000001 : Word).toNat / 2 ^ 28 = 0x3 ∧ (0x30000001 : Word).toNat % 2 ^ 28 ≠ 0 := by decide

/-- The three branches, and the eighth digit. -/
theorem witness_WpushScansGreedily :
    (0x40000100 : Word).toNat / 2 ^ 28 = 0x4 ∧ (0x40000100 : Word).toNat / 2 ^ 8 % 2 ^ 20 ≠ 0 ∧
      (withWindow 0x12 2 true).wstop = true ∧ (withWindow 0x1234567 7 false).wstop = false ∧
      DigitValue (withWindow 0x1234567 7 false).cfg.hexLower 0x31 1 ∧
      NotDigit (withWindow 0x1234567 7 false).cfg.hexLower 0x58 :=
  ⟨by decide, by decide, rfl, rfl, digit1 _, notDigitX⟩

/-- Each ground of illegality, a full window, and AS_READ with a count above 8. -/
theorem witness_UnpackShiftsTheWindow :
    (0x50000000 : Word).toNat / 2 ^ 28 = 0x5 ∧ (0x50000000 : Word).toNat / 2 ^ 24 % 4 = 0 ∧
      (0x54000000 : Word).toNat / 2 ^ 28 = 0x5 ∧ (0x54000000 : Word).toNat / 2 ^ 26 % 4 ≠ 0 ∧
      (0x51000001 : Word).toNat / 2 ^ 28 = 0x5 ∧ (0x51000001 : Word).toNat % 2 ^ 24 ≠ 0 ∧
      (3 : WidthCode) ≠ 0 ∧ (withWindow 0x1234ABCD 8 true).wcnt.toNat ≤ 8 ∧
      { withCfg true .asRead with wcnt := 9 }.cfg.windowFill = .asRead := by
  decide

theorem witness_UnpackStopsOnlyOnAnUnreachableCount :
    (1 : WidthCode) ≠ 0 ∧ (withWindow 0 9 true).cfg.windowFill = .zeroFill ∧ 8 < (withWindow 0 9 true).wcnt.toNat ∧
      exec (.unpack 1) (withWindow 0 9 true) = .fault .windowCount :=
  ⟨by decide, by decide, by decide, rfl⟩

theorem witness_ClassifyGivesClassAndWidthCode :
    (0x60000100 : Word).toNat / 2 ^ 28 = 0x6 ∧ (0x60000100 : Word).toNat / 2 ^ 8 % 2 ^ 20 ≠ 0 ∧
      DigitValue State.reset.cfg.hexLower 0x30 0 ∧ DigitValue State.reset.cfg.hexLower 0x66 15 ∧
      NotDigit State.reset.cfg.hexLower 0x58 :=
  ⟨by decide, by decide, digit0 _, by unfold DigitValue; decide, notDigitX⟩

/-- Each ground of illegality, and the length on each side of `c + 2`. -/
theorem witness_PlenGivesThePayloadLength :
    (0x70000003 : Word).toNat / 2 ^ 28 = 0x7 ∧ (0x70000003 : Word).toNat / 2 ^ 24 % 4 = 0 ∧
      (0x74000003 : Word).toNat / 2 ^ 26 % 4 ≠ 0 ∧ (0x71000100 : Word).toNat / 2 ^ 8 % 2 ^ 16 ≠ 0 ∧
      (1 : WidthCode) ≠ 0 ∧ (1 : WidthCode).toNat + 2 ≤ (3 : Byte).toNat ∧
      (2 : Byte).toNat < (1 : WidthCode).toNat + 2 := by
  decide

theorem witness_CkclrClearsTheSum :
    (0x80000001 : Word).toNat / 2 ^ 28 = 0x8 ∧ (0x80000001 : Word).toNat % 2 ^ 28 ≠ 0 := by decide

theorem witness_CkaddAddsModulo256 :
    (0x90000100 : Word).toNat / 2 ^ 28 = 0x9 ∧ (0x90000100 : Word).toNat / 2 ^ 8 % 2 ^ 20 ≠ 0 := by decide

theorem witness_Ckadd16AddsBothBytes :
    (0xA0010000 : Word).toNat / 2 ^ 28 = 0xA ∧ (0xA0010000 : Word).toNat / 2 ^ 16 % 2 ^ 12 ≠ 0 := by decide

theorem witness_CkfinFinalisesTheSum :
    (0xB0000100 : Word).toNat / 2 ^ 28 = 0xB ∧ (0xB0000100 : Word).toNat / 2 ^ 8 % 2 ^ 20 ≠ 0 := by decide

theorem witness_NopChangesNothing :
    (0x00000001 : Word).toNat / 2 ^ 28 = 0x0 ∧ (0x00000001 : Word).toNat % 2 ^ 28 ≠ 0 := by decide

theorem witness_ClrstClearsTheStickyFlags :
    (0xC0000001 : Word).toNat / 2 ^ 28 = 0xC ∧ (0xC0000001 : Word).toNat % 2 ^ 28 ≠ 0 := by decide

/-- Each cause code, and a command with a valid result. -/
theorem witness_FlagsFollowTheCauseOfEachCommand :
    causeOf (.hexnib 0x58) State.reset = some .b1 ∧ causeOf (.hexbyte 0x30 0x58) State.reset = some .b2 ∧
      causeOf (.unpack 1) (withWindow 0x123 3 true) = some .b3 ∧ causeOf (.classify 0x53) State.reset = some .b4 ∧
      causeOf (.plen 1 2) State.reset = some .b5 ∧ causeOf (.wpush 0x58) State.reset = some .b6 ∧
      causeOf (.reservedD 0) State.reset = some .b7 ∧ causeOf (.plen 1 3) State.reset = none ∧
      exec (.hexnib 0x58) State.reset = .next { State.reset with errs := true } ∧
      exec (.unpack 1) (withWindow 0x123 3 true) = .next { withWindow 0x123 3 true with res := 0x1230, errs := true } ∧
      exec (.plen 1 2) State.reset = .next { State.reset with res := 0xFFFFFFFF, errs := true } ∧
      IllegalWord 0x50000000 ∧
      { State.reset with resetInput := [true] }.resetInput = true :: [] :=
  ⟨by decide, by decide, by decide, by decide, by decide, by decide, by decide, by decide, rfl,
    rfl, rfl, by unfold IllegalWord; decide, rfl⟩

theorem witness_OnlyTheirCommandsWriteWindowAndSum :
    exec (.ckfin 4) afterA = .next { afterA with res := 0xFC } ∧ Instr.ckfin 4 ≠ .wclr ∧ Instr.ckfin 4 ≠ .ckclr :=
  ⟨rfl, by decide, by decide⟩

theorem witness_CommandsTouchOnlyTheBlock : exec .clrst { afterA with ill := true } = .next afterA := rfl

theorem witness_EveryCommandIsAnswered : (withWindow 0x1234ABCD 8 true).wcnt.toNat ≤ 8 := by decide

theorem witness_EveryStepKeepsTheWindow :
    (withWindow 0x1234ABCD 8 true).WindowOk ∧
      step (withWindow 0x1234ABCD 8 true) = .next (withWindow 0x1234ABCD 8 true) :=
  ⟨by unfold State.WindowOk; decide, rfl⟩

theorem witness_EveryStepKeepsTheMachineInvariant :
    (encodingState (encodeAt 0 .chunk)).Inv ∧
      ∃ t, step (encodingState (encodeAt 0 .chunk)) = .next t ∧ t.host ≠ .idle := by
  refine ⟨⟨by unfold State.WindowOk; decide, ⟨by decide, by decide, by decide, trivial⟩, trivial⟩, ?_⟩
  exact ⟨_, rfl, by decide⟩

theorem witness_MachineInInvariantNeverFaults :
    (decodingState (callAt [] [] .nextLine)).Inv :=
  ⟨by unfold State.WindowOk; decide, ⟨by decide, by decide, by decide, by decide, trivial⟩, trivial⟩

/-- A state that meets the invariant and whose next call is refused, its buffer being a byte short. -/
theorem witness_MachineInInvariantNeverFaults_refused :
    { State.reset with port := [.encodeCall ⟨3, []⟩ 0 4] }.Inv ∧ ¬CallPrecondition ⟨3, []⟩ 0 4 ∧
      step { State.reset with port := [.encodeCall ⟨3, []⟩ 0 4] } = .refused .callPrecondition :=
  ⟨⟨by unfold State.WindowOk; decide, trivial, trivial⟩, by unfold CallPrecondition; decide, rfl⟩

theorem witness_NoStepChangesAParameter : step afterA = .next afterA := rfl

theorem witness_HostCallsIssueOnlyLegalCommands :
    { encodingState (encodeAt 2 .chunk) with ill := true }.Inv ∧
      { encodingState (encodeAt 2 .chunk) with ill := true }.host ≠ .idle ∧
      ∃ t, step { encodingState (encodeAt 2 .chunk) with ill := true } = .next t ∧ t.ill = true := by
  refine ⟨⟨by unfold State.WindowOk; decide, ⟨by decide, by decide, by decide, trivial⟩, trivial⟩, by decide, ?_⟩
  exact ⟨_, rfl, rfl⟩

/-- `"13X"`: two digits, then a character that ends the scan. -/
theorem witness_WscanHoldsTheDigitsOfTheField :
    (List.range 8).map (fun k => [0x31, 0x33, 0x58].getD k (0x0A : Byte)) =
        [0x31, 0x33] ++ [0x58, 0x0A, 0x0A, 0x0A, 0x0A, 0x0A] ∧
      List.Forall₂ (DigitValue State.reset.cfg.hexLower) [0x31, 0x33] [1, 3] ∧
      NotDigit State.reset.cfg.hexLower 0x58 :=
  ⟨by decide, .cons (digit1 _) (.cons (digit3 _) .nil), notDigitX⟩

/-- The digits `01030103`. -/
theorem eightDigits (lower : Bool) :
    List.Forall₂ (DigitValue lower) [0x30, 0x31, 0x30, 0x33, 0x30, 0x31, 0x30, 0x33] [0, 1, 0, 3, 0, 1, 0, 3] :=
  .cons (digit0 _) (.cons (digit1 _) (.cons (digit0 _) (.cons (digit3 _)
    (.cons (digit0 _) (.cons (digit1 _) (.cons (digit0 _) (.cons (digit3 _) .nil)))))))

/-- `"010301031"`: eight digits, and the scan is over before the ninth. -/
theorem witness_WscanHoldsTheDigitsOfTheField_eight :
    (List.range 8).map (fun k => [0x30, 0x31, 0x30, 0x33, 0x30, 0x31, 0x30, 0x33, 0x31].getD k (0x0A : Byte)) =
        [0x30, 0x31, 0x30, 0x33, 0x30, 0x31, 0x30, 0x33] ++ [] ∧
      List.Forall₂ (DigitValue State.reset.cfg.hexLower) [0x30, 0x31, 0x30, 0x33, 0x30, 0x31, 0x30, 0x33]
        [0, 1, 0, 3, 0, 1, 0, 3] :=
  ⟨by decide, eightDigits _⟩

/-- `"01030103"` under AS_READ: the field's four digits and four over-read. -/
theorem witness_UnpackRecoversTheTrueAddress_asRead :
    (withCfg true .asRead).cfg.windowFill = .asRead ∧ (1 : WidthCode) ≠ 0 ∧
      (List.range 8).map (fun k => [0x30, 0x31, 0x30, 0x33, 0x30, 0x31, 0x30, 0x33].getD k (0x0A : Byte)) =
        [0x30, 0x31, 0x30, 0x33, 0x30, 0x31, 0x30, 0x33] ++ [] ∧
      List.Forall₂ (DigitValue (withCfg true .asRead).cfg.hexLower) [0x30, 0x31, 0x30, 0x33, 0x30, 0x31, 0x30, 0x33]
        ([0, 1, 0, 3] ++ [0, 1, 0, 3]) ∧
      [0, 1, 0, 3].length = 2 * ((1 : WidthCode).toNat + 1) :=
  ⟨rfl, by decide, by decide, eightDigits _, rfl⟩

/-- `"0103X"`: the field's four digits, nothing over-read. -/
theorem witness_UnpackRecoversTheTrueAddress :
    (1 : WidthCode) ≠ 0 ∧
      (List.range 8).map (fun k => [0x30, 0x31, 0x30, 0x33, 0x58].getD k (0x0A : Byte)) =
        [0x30, 0x31, 0x30, 0x33] ++ [0x58, 0x0A, 0x0A, 0x0A] ∧
      List.Forall₂ (DigitValue State.reset.cfg.hexLower) [0x30, 0x31, 0x30, 0x33] ([0, 1, 0, 3] ++ []) ∧
      NotDigit State.reset.cfg.hexLower 0x58 ∧ [0, 1, 0, 3].length = 2 * ((1 : WidthCode).toNat + 1) ∧
      State.reset.cfg.windowFill = .zeroFill :=
  ⟨by decide, by decide, .cons (digit0 _) (.cons (digit1 _) (.cons (digit0 _) (.cons (digit3 _) .nil))), notDigitX,
    rfl, rfl⟩

theorem witness_DataRecordChecksumMeetsTheStandardCheck :
    [(0xFD : Byte)].length < 256 ∧
      ∃ t, runCommands (ckrec (BitVec.ofNat 8 [(0xFD : Byte)].length) 0x0000 0 [0xFD] 4) State.reset = .next t :=
  ⟨by decide, _, rfl⟩

theorem witness_AnnouncementChecksumSumsToFC :
    ∃ t, runCommands (ckrec 2 0x0000 4 [0x00, 0x01] 0) State.reset = .next t := ⟨_, rfl⟩

/-- Both ends of the buffer. -/
theorem witness_BufferReadsBackWhatWasWritten :
    Memory.wf { size := 4, cells := [(1, 0x07)] } = true ∧ 3 < 4 ∧
      Memory.size { size := 4, cells := [(1, 0x07)] } ≤ 4 := by
  decide

/-- A call that starts, and one whose buffer has another size. -/
theorem witness_DecodeCallStartsOrIsRefused :
    ∀ buffer ∈ [(⟨4, []⟩ : Memory), ⟨3, []⟩], ∃ (s : State) (rest : List HostAction),
      s.host = .idle ∧ s.resetInput = [] ∧ s.port = .decodeCall [0x58] buffer 0 4 :: rest ∧
        (∀ l ∈ splitLines [0x58], l.length ≤ 255) ∧
        (0 ≤ 4 ∧ 4 ≤ 2 ^ 32 ∧ buffer.wf = true ∧ (buffer.size = 4 - 0 ∨ buffer.size ≠ 4 - 0)) := by
  intro buffer h
  refine ⟨{ State.reset with port := [.decodeCall [0x58] buffer 0 4] }, [], rfl, rfl, rfl, by decide, ?_⟩
  revert buffer; decide

theorem witness_DecodeCallStartsOrIsRefused_long :
    ∃ l ∈ splitLines (List.replicate 256 0x58), 255 < l.length := by
  have h : splitLines (List.replicate 256 0x58) = [List.replicate 256 0x58] := by
    have : ∀ n, splitLines (List.replicate (n + 1) 0x58) = [List.replicate (n + 1) 0x58] := by
      intro n
      induction n with
      | zero => rfl
      | succ n ih =>
        rw [List.replicate_succ, splitLines, if_neg (by decide), ih]
    exact this 255
  exact ⟨_, by rw [h]; exact List.mem_singleton.mpr rfl, by rw [List.length_replicate]; decide⟩

theorem witness_CallsClearTheBlockFirst :
    (∃ (s : State) (d : DecodeCall), s.resetInput = [] ∧ s.host = .decoding d ∧ d.phase = .callClrst) ∧
      (∃ (s : State) (e : EncodeCall), s.resetInput = [] ∧ s.host = .encoding e ∧ e.phase = .callClrst) :=
  ⟨⟨decodingState (callAt [] [] .callClrst), callAt [] [] .callClrst, rfl, rfl, rfl⟩,
    ⟨encodingState (encodeAt 0 .callClrst), encodeAt 0 .callClrst, rfl, rfl, rfl⟩⟩

/-- The stale digit count of an earlier call is gone when an encode call has begun (R293). -/
theorem test_encodeCall_clears_window :
    (match runSteps 3 { withWindow 0x123 3 true with host := .encoding (encodeAt 0 .callClrst) } with
      | .next t => some (readStatus t)
      | .fault _ => none
      | .refused _ => none) = some 0x00000001 := by decide

/-- An empty line, and one that begins with another character. -/
theorem witness_NoiseLineOnlyCounts :
    ∀ l ∈ [[], [0x58]], ∃ (s : State) (d : DecodeCall) (rest : List (List Byte)),
      s.resetInput = [] ∧ s.host = .decoding d ∧ d.phase = .nextLine ∧ d.lines = l :: rest ∧ l.head? ≠ some 0x53 := by
  intro l hl
  refine ⟨decodingState (callAt [l] [] .nextLine), callAt [l] [] .nextLine, [], rfl, rfl, rfl, rfl, ?_⟩
  revert l; decide

/-- Without a count record, with one that agrees, and with one that does not. -/
theorem witness_EndOfStreamGivesTheResult :
    ∀ n ∈ [none, some 0, some 1], ∃ (s : State) (d : DecodeCall),
      s.resetInput = [] ∧ s.host = .decoding d ∧ d.phase = .nextLine ∧ d.lines = [] ∧
        d.scan.expectedDataRecords = n ∧ d.scan.dataRecordsSeen = 0 :=
  fun n _ => ⟨decodingState { callAt [] [] .nextLine with scan := ⟨1, 0, n, 0⟩ },
    { callAt [] [] .nextLine with scan := ⟨1, 0, n, 0⟩ }, rfl, rfl, rfl, rfl, rfl, rfl⟩

/-- `"SX"`: the type character is bad, and so is the missing fourth character. -/
theorem witness_BadHeaderFailsWithTheLineNumber :
    ∀ k ∈ [1, 4], ∃ (s : State) (d : DecodeCall) (l : List Byte) (rest : List (List Byte)),
      s.resetInput = [] ∧ s.host = .decoding d ∧ d.phase = .nextLine ∧ d.lines = l :: rest ∧ l.head? = some 0x53 ∧
        1 ≤ k ∧ k ≤ 4 ∧ NotDigit s.cfg.hexLower (l.getD k 0x0A) := by
  intro k hk
  have h : 1 ≤ k ∧ k ≤ 4 ∧ hexval true ([0x53, 0x58].getD k 0x0A) = none := by revert k; decide
  exact ⟨decodingState (callAt [[0x53, 0x58]] [] .nextLine), callAt [[0x53, 0x58]] [] .nextLine, [0x53, 0x58], [],
    rfl, rfl, rfl, rfl, rfl, h.1, h.2.1, (hexval_none_iff _ _).mp h.2.2⟩

/-- `"S0030"`. -/
theorem witness_OtherRecordsAreSkipped :
    ∃ (s : State) (d : DecodeCall) (l : List Byte) (rest : List (List Byte)),
      s.resetInput = [] ∧ s.host = .decoding d ∧ d.phase = .nextLine ∧ d.lines = l :: rest ∧ l.head? = some 0x53 ∧
        DigitValue s.cfg.hexLower (l.getD 1 0x0A) 0 ∧ DigitValue s.cfg.hexLower (l.getD 2 0x0A) 0 ∧
        DigitValue s.cfg.hexLower (l.getD 3 0x0A) 3 ∧ DigitValue s.cfg.hexLower (l.getD 4 0x0A) 0 ∧
        (0 = 0 ∨ 0 = 4 ∨ 6 ≤ 0) :=
  ⟨decodingState (callAt [[0x53, 0x30, 0x30, 0x33, 0x30]] [] .nextLine),
    callAt [[0x53, 0x30, 0x30, 0x33, 0x30]] [] .nextLine, [0x53, 0x30, 0x30, 0x33, 0x30], [],
    rfl, rfl, rfl, rfl, rfl, digit0 _, digit0 _, digit3 _, digit0 _, .inl rfl⟩

/-- `"S5030001"`: the length is 3. -/
theorem witness_CountRecordSetsTheExpectedCount :
    ∃ (s : State) (d : DecodeCall) (l : List Byte) (rest : List (List Byte)),
      s.resetInput = [] ∧ s.host = .decoding d ∧ d.phase = .nextLine ∧ d.lines = l :: rest ∧ l.head? = some 0x53 ∧
        l.getD 1 0x0A = 0x35 ∧ DigitValue s.cfg.hexLower (l.getD 2 0x0A) 0 ∧
        DigitValue s.cfg.hexLower (l.getD 3 0x0A) 3 ∧ DigitValue s.cfg.hexLower (l.getD 4 0x0A) 0 ∧ 16 * 0 + 3 = 3 ∧
        s.cfg.windowFill = .zeroFill ∧ DigitValue s.cfg.hexLower (l.getD 5 0x0A) 0 ∧
        DigitValue s.cfg.hexLower (l.getD 6 0x0A) 0 ∧ DigitValue s.cfg.hexLower (l.getD 7 0x0A) 1 :=
  ⟨decodingState (callAt [[0x53, 0x35, 0x30, 0x33, 0x30, 0x30, 0x30, 0x31]] [] .nextLine),
    callAt [[0x53, 0x35, 0x30, 0x33, 0x30, 0x30, 0x30, 0x31]] [] .nextLine,
    [0x53, 0x35, 0x30, 0x33, 0x30, 0x30, 0x30, 0x31], [],
    rfl, rfl, rfl, rfl, rfl, rfl, digit0 _, digit3 _, digit0 _, rfl, rfl, digit0 _, digit0 _, digit1 _⟩

/-- `"S503000X"`: the length is 3 and the fourth address character is no digit. -/
theorem witness_CountRecordSetsTheExpectedCount_short :
    ∃ (s : State) (d : DecodeCall) (l : List Byte) (rest : List (List Byte)),
      s.resetInput = [] ∧ s.host = .decoding d ∧ d.phase = .nextLine ∧ d.lines = l :: rest ∧ l.head? = some 0x53 ∧
        l.getD 1 0x0A = 0x35 ∧ DigitValue s.cfg.hexLower (l.getD 2 0x0A) 0 ∧
        DigitValue s.cfg.hexLower (l.getD 3 0x0A) 3 ∧ DigitValue s.cfg.hexLower (l.getD 4 0x0A) 0 ∧ 16 * 0 + 3 = 3 ∧
        (5 ≤ 7 ∧ 7 ≤ 7 ∧ NotDigit s.cfg.hexLower (l.getD 7 0x0A)) :=
  ⟨decodingState (callAt [[0x53, 0x35, 0x30, 0x33, 0x30, 0x30, 0x30, 0x58]] [] .nextLine),
    callAt [[0x53, 0x35, 0x30, 0x33, 0x30, 0x30, 0x30, 0x58]] [] .nextLine,
    [0x53, 0x35, 0x30, 0x33, 0x30, 0x30, 0x30, 0x58], [],
    rfl, rfl, rfl, rfl, rfl, rfl, digit0 _, digit3 _, digit0 _, rfl, by decide, by decide, notDigitX⟩

/-- `"S50300010000"` under AS_READ: eight digits. -/
theorem witness_CountRecordSetsTheExpectedCount_asRead :
    ∃ (s : State) (d : DecodeCall) (l : List Byte) (rest : List (List Byte)),
      s.resetInput = [] ∧ s.host = .decoding d ∧ d.phase = .nextLine ∧ d.lines = l :: rest ∧ l.head? = some 0x53 ∧
        l.getD 1 0x0A = 0x35 ∧ DigitValue s.cfg.hexLower (l.getD 2 0x0A) 0 ∧
        DigitValue s.cfg.hexLower (l.getD 3 0x0A) 3 ∧ DigitValue s.cfg.hexLower (l.getD 4 0x0A) 0 ∧
        s.cfg.windowFill = .asRead ∧
        (∀ k, 8 ≤ k → k ≤ 11 → ∃ n, DigitValue s.cfg.hexLower (l.getD k 0x0A) n) ∧
        DigitValue s.cfg.hexLower (l.getD 5 0x0A) 0 ∧ DigitValue s.cfg.hexLower (l.getD 6 0x0A) 0 ∧
        DigitValue s.cfg.hexLower (l.getD 7 0x0A) 1 := by
  refine ⟨{ withCfg true .asRead with
      host := .decoding
        (callAt [[0x53, 0x35, 0x30, 0x33, 0x30, 0x30, 0x30, 0x31, 0x30, 0x30, 0x30, 0x30]] [] .nextLine) },
    callAt [[0x53, 0x35, 0x30, 0x33, 0x30, 0x30, 0x30, 0x31, 0x30, 0x30, 0x30, 0x30]] [] .nextLine,
    [0x53, 0x35, 0x30, 0x33, 0x30, 0x30, 0x30, 0x31, 0x30, 0x30, 0x30, 0x30], [],
    rfl, rfl, rfl, rfl, rfl, rfl, digit0 _, digit3 _, digit0 _, rfl, fun k h1 h2 => ⟨0, ?_⟩,
    digit0 _, digit0 _, digit1 _⟩
  have : k = 8 ∨ k = 9 ∨ k = 10 ∨ k = 11 := by omega
  rcases this with rfl | rfl | rfl | rfl <;> exact digit0 _

/-- `"S5040"`: the length is not 3. -/
theorem witness_CountRecordSetsTheExpectedCount_length :
    ∃ (s : State) (d : DecodeCall) (l : List Byte) (rest : List (List Byte)),
      s.resetInput = [] ∧ s.host = .decoding d ∧ d.phase = .nextLine ∧ d.lines = l :: rest ∧ l.head? = some 0x53 ∧
        l.getD 1 0x0A = 0x35 ∧ DigitValue s.cfg.hexLower (l.getD 2 0x0A) 0 ∧
        DigitValue s.cfg.hexLower (l.getD 3 0x0A) 4 ∧ DigitValue s.cfg.hexLower (l.getD 4 0x0A) 0 ∧ 16 * 0 + 4 ≠ 3 :=
  ⟨decodingState (callAt [[0x53, 0x35, 0x30, 0x34, 0x30]] [] .nextLine),
    callAt [[0x53, 0x35, 0x30, 0x34, 0x30]] [] .nextLine, [0x53, 0x35, 0x30, 0x34, 0x30], [],
    rfl, rfl, rfl, rfl, rfl, rfl, digit0 _, digit4 _, digit0 _, by decide⟩

/-- One digit short of the field, and one short of the length. -/
theorem witness_ShortAddressOrLengthFails :
    (∃ (s : State) (d : DecodeCall) (r : RecordHead),
      s.resetInput = [] ∧ s.host = .decoding d ∧ d.phase = .window r [] ∧ isDataClass r.cls = true ∧ r.c ≠ 0 ∧
        s.wcnt.toNat < 2 * (r.c.toNat + 1)) ∧
      (∃ (s : State) (d : DecodeCall) (r : RecordHead) (address : Nat),
        s.resetInput = [] ∧ s.host = .decoding d ∧ d.phase = .payloadLength r address ∧ r.c ≠ 0 ∧
          r.len.toNat < r.c.toNat + 2) :=
  ⟨⟨{ withWindow 0x123 3 true with host := .decoding (callAt [] [] (.window ⟨1, 1, 4⟩ [])) },
      callAt [] [] (.window ⟨1, 1, 4⟩ []), ⟨1, 1, 4⟩, rfl, rfl, rfl, by decide, by decide, by decide⟩,
    ⟨decodingState (callAt [] [] (.payloadLength ⟨1, 1, 2⟩ 0)), callAt [] [] (.payloadLength ⟨1, 1, 2⟩ 0), ⟨1, 1, 2⟩, 0,
      rfl, rfl, rfl, by decide, by decide⟩⟩

/-- `"S10400000X"`: a bad pair. -/
theorem witness_PayloadByteIsCheckedThenWritten_bad :
    ∃ (s : State) (d : DecodeCall) (r : RecordHead),
      s.resetInput = [] ∧ s.host = .decoding d ∧ d.phase = .payload r 0 1 0 ∧ d.Ok ∧
        NotDigit s.cfg.hexLower (d.line.getD (5 + 2 * (r.c.toNat + 1) + 2 * 0) 0x0A) :=
  ⟨decodingState (callAt [] [0x53, 0x31, 0x30, 0x34, 0x30, 0x30, 0x30, 0x30, 0x30, 0x58] (.payload ⟨1, 1, 4⟩ 0 1 0)),
    callAt [] [0x53, 0x31, 0x30, 0x34, 0x30, 0x30, 0x30, 0x30, 0x30, 0x58] (.payload ⟨1, 1, 4⟩ 0 1 0), ⟨1, 1, 4⟩,
    rfl, rfl, rfl, ⟨by decide, by decide, by decide, by decide, by unfold DecodeCall.PhaseOk callAt; decide⟩, notDigitX⟩

/-- `"S104000001"`: a good pair, in range at the end of `[0, 4)` and out of range just after. -/
theorem witness_PayloadByteIsCheckedThenWritten :
    ∀ address ∈ [3, 4], ∃ (s : State) (d : DecodeCall) (r : RecordHead),
      s.resetInput = [] ∧ s.host = .decoding d ∧ d.phase = .payload r address 1 0 ∧ d.Ok ∧
        PairValue s.cfg.hexLower
          (d.line.getD (4 + 2 * (r.c.toNat + 1) + 2 * 0) 0x0A, d.line.getD (5 + 2 * (r.c.toNat + 1) + 2 * 0) 0x0A) 1 ∧
        (address = 3 → d.start ≤ address ∧ address + 1 ≤ d.stop) ∧
        (address = 4 → ¬(d.start ≤ address ∧ address + 1 ≤ d.stop)) := by
  intro address h
  have h32 : address < 2 ^ 32 := by revert address; decide
  refine ⟨decodingState
      (callAt [] [0x53, 0x31, 0x30, 0x34, 0x30, 0x30, 0x30, 0x30, 0x30, 0x31] (.payload ⟨1, 1, 4⟩ address 1 0)),
    callAt [] [0x53, 0x31, 0x30, 0x34, 0x30, 0x30, 0x30, 0x30, 0x30, 0x31] (.payload ⟨1, 1, 4⟩ address 1 0), ⟨1, 1, 4⟩,
    rfl, rfl, rfl, ⟨rfl, rfl, Nat.le_refl 0, Nat.zero_le 4, ?_⟩, ⟨0, 1, digit0 _, digit1 _, rfl⟩,
    fun h => ?_, fun h => ?_⟩
  · exact ⟨by decide, by decide, h32, by decide, by decide, fun h => absurd h (by decide)⟩
  · subst h; decide
  · subst h; decide

/-- `"S104000001"`, where the line ends: address 0, payload `01`. -/
theorem witness_DataRecordFillsTheBuffer :
    ∃ (s : State) (d : DecodeCall) (addr : List Byte) (field : List Nat) (pairs : List (Byte × Byte))
      (payload tail : List Byte) (rest : List (List Byte)),
      s.resetInput = [] ∧ s.host = .decoding d ∧ d.phase = .nextLine ∧ d.Ok ∧
        d.lines = ([0x53, 0x31, 0x30, 0x34] ++ addr ++ pairs.flatMap (fun q => [q.1, q.2]) ++ tail) :: rest ∧
        (1 : WidthCode) ≠ 0 ∧ DigitValue s.cfg.hexLower 0x31 (1 : WidthCode).toNat ∧
        DigitValue s.cfg.hexLower 0x30 0 ∧ DigitValue s.cfg.hexLower 0x34 4 ∧
        16 * 0 + 4 = payload.length + (1 : WidthCode).toNat + 2 ∧
        List.Forall₂ (DigitValue s.cfg.hexLower) addr field ∧ field.length = 2 * ((1 : WidthCode).toNat + 1) ∧
        List.Forall₂ (PairValue s.cfg.hexLower) pairs payload ∧ s.cfg.windowFill = .zeroFill ∧
        (1 ≤ payload.length ∧ d.start ≤ hexValue field ∧ hexValue field + payload.length ≤ d.stop) :=
  ⟨decodingState (callAt [[0x53, 0x31, 0x30, 0x34, 0x30, 0x30, 0x30, 0x30, 0x30, 0x31]] [] .nextLine),
    callAt [[0x53, 0x31, 0x30, 0x34, 0x30, 0x30, 0x30, 0x30, 0x30, 0x31]] [] .nextLine,
    [0x30, 0x30, 0x30, 0x30], [0, 0, 0, 0], [(0x30, 0x31)], [0x01], [], [],
    rfl, rfl, rfl, ⟨by decide, by decide, by decide, by decide, trivial⟩, rfl, by decide, digit1 _, digit0 _, digit4 _,
    by decide, .cons (digit0 _) (.cons (digit0 _) (.cons (digit0 _) (.cons (digit0 _) .nil))), by decide,
    .cons ⟨0, 1, digit0 _, digit1 _, rfl⟩ .nil, rfl, by decide⟩

/-- `"S10300010000"` under AS_READ: no payload, at an address outside the buffer; the checksum and two characters more
fill the window. -/
theorem witness_DataRecordFillsTheBuffer_asRead :
    ∃ (s : State) (d : DecodeCall) (addr : List Byte) (field : List Nat) (pairs : List (Byte × Byte))
      (payload tail : List Byte) (rest : List (List Byte)),
      s.resetInput = [] ∧ s.host = .decoding d ∧ d.phase = .nextLine ∧ d.Ok ∧
        d.lines = ([0x53, 0x31, 0x30, 0x33] ++ addr ++ pairs.flatMap (fun q => [q.1, q.2]) ++ tail) :: rest ∧
        16 * 0 + 3 = payload.length + (1 : WidthCode).toNat + 2 ∧
        List.Forall₂ (DigitValue s.cfg.hexLower) addr field ∧ field.length = 2 * ((1 : WidthCode).toNat + 1) ∧
        List.Forall₂ (PairValue s.cfg.hexLower) pairs payload ∧ s.cfg.windowFill = .asRead ∧
        (∀ k < 8, ∃ n,
          DigitValue s.cfg.hexLower ((addr ++ pairs.flatMap (fun q => [q.1, q.2]) ++ tail).getD k 0x0A) n) ∧
        (1 ≤ payload.length → d.start ≤ hexValue field ∧ hexValue field + payload.length ≤ d.stop) ∧
        payload = [] := by
  refine ⟨{ withCfg true .asRead with
      host := .decoding
        (callAt [[0x53, 0x31, 0x30, 0x33, 0x31, 0x30, 0x30, 0x30, 0x30, 0x30, 0x30, 0x30]] [] .nextLine) },
    callAt [[0x53, 0x31, 0x30, 0x33, 0x31, 0x30, 0x30, 0x30, 0x30, 0x30, 0x30, 0x30]] [] .nextLine,
    [0x31, 0x30, 0x30, 0x30], [1, 0, 0, 0], [], [], [0x30, 0x30, 0x30, 0x30], [],
    rfl, rfl, rfl, ⟨by decide, by decide, by decide, by decide, trivial⟩, rfl, by decide,
    .cons (digit1 _) (.cons (digit0 _) (.cons (digit0 _) (.cons (digit0 _) .nil))), by decide, .nil, rfl,
    fun k hk => ?_, by decide, rfl⟩
  have : k = 0 ∨ k = 1 ∨ k = 2 ∨ k = 3 ∨ k = 4 ∨ k = 5 ∨ k = 6 ∨ k = 7 := by omega
  rcases this with rfl | rfl | rfl | rfl | rfl | rfl | rfl | rfl
  · exact ⟨1, digit1 _⟩
  all_goals exact ⟨0, digit0 _⟩

/-- A call that starts, and one whose buffer lists a zero. -/
theorem witness_EncodeCallStartsOrIsRefused :
    ∀ v ∈ [(0x07 : Byte), 0x00], ∃ (s : State) (rest : List HostAction),
      s.host = .idle ∧ s.resetInput = [] ∧ s.port = .encodeCall ⟨2, [(1, v)]⟩ 0 2 :: rest ∧
        (v = 0x07 → (0 ≤ 2 ∧ 2 ≤ 2 ^ 32 ∧ (⟨2, [(1, v)]⟩ : Memory).size = 2 - 0 ∧ (⟨2, [(1, v)]⟩ : Memory).wf = true)) ∧
        (v = 0x00 → (⟨2, [(1, v)]⟩ : Memory).wf = false) := by
  intro v _
  refine ⟨{ State.reset with port := [.encodeCall ⟨2, [(1, v)]⟩ 0 2] }, [], rfl, rfl, rfl, ?_, ?_⟩
  · rintro rfl; decide
  · rintro rfl; decide

/-- A chunk of one byte, one of 32, and one cut at a 64K boundary. -/
theorem witness_ChunkStaysInRangeAndBlock : (0 < 1 ∧ 0 < 40 ∧ 0x1FFF0 < 0x20010) := by decide

/-- A chunk that is announced, and one whose block was announced before. -/
theorem witness_ChunkIsAnnouncedAndWritten :
    ∀ base ∈ [none, some 0], ∃ (s : State) (e : EncodeCall),
      s.resetInput = [] ∧ s.host = .encoding e ∧ e.phase = .chunk ∧ e.Ok ∧ e.currentAddress < e.stop ∧
        e.currentBlockBase = base ∧ s.cfg.announceEveryChunkIfWide = State.reset.cfg.announceEveryChunkIfWide ∧
        e.stop - e.start ≤ 65536 :=
  fun base _ => ⟨encodingState { encodeAt 0 .chunk with currentBlockBase := base },
    { encodeAt 0 .chunk with currentBlockBase := base }, rfl, rfl, rfl,
    ⟨rfl, Nat.le_refl 0, Nat.zero_le 2, trivial⟩, Nat.two_pos, rfl, rfl, show 2 ≤ 65536 by decide⟩

/-- `S00200000000FA`, `S1060000AABBCCC8`, `S9030000FC` (95_test_vectors.md W10). -/
theorem test_encodedText_lines :
    encodedText Config.thisSpec ⟨3, [(0, 0xAA), (1, 0xBB), (2, 0xCC)]⟩ 0 3 =
      [0x53, 0x30, 0x30, 0x32, 0x30, 0x30, 0x30, 0x30, 0x30, 0x30, 0x30, 0x30, 0x46, 0x41, 0x0A] ++
        [0x53, 0x31, 0x30, 0x36, 0x30, 0x30, 0x30, 0x30, 0x41, 0x41, 0x42, 0x42, 0x43, 0x43, 0x43, 0x38, 0x0A] ++
        [0x53, 0x39, 0x30, 0x33, 0x30, 0x30, 0x30, 0x30, 0x46, 0x43, 0x0A] := by decide

theorem witness_EncodeEndsWithTheTerminator :
    ∃ (s : State) (e : EncodeCall), s.resetInput = [] ∧ s.host = .encoding e ∧ e.phase = .chunk ∧
      e.currentAddress = e.stop :=
  ⟨encodingState (encodeAt 2 .chunk), encodeAt 2 .chunk, rfl, rfl, rfl, rfl⟩

theorem witness_EncodeWritesTheWholeText :
    ∃ (s : State) (buffer : Memory) (rest : List HostAction),
      s.host = .idle ∧ s.resetInput = [] ∧ s.port = .encodeCall buffer 0 2 :: rest ∧ 0 ≤ 2 ∧ 2 ≤ 2 ^ 32 ∧
        buffer.size = 2 - 0 ∧ buffer.wf = true :=
  ⟨{ State.reset with port := [.encodeCall ⟨2, [(1, 0x07)]⟩ 0 2] }, ⟨2, [(1, 0x07)]⟩, [], rfl, rfl, rfl,
    by decide, by decide, rfl, by decide⟩

/-- Both calls, on a range of two bytes. -/
theorem witness_EncodedTextDecodesToTheSameBuffer :
    ∃ (s u : State) (source target : Memory) (rest next : List HostAction) (text : List Byte),
      s.host = .idle ∧ s.resetInput = [] ∧ s.port = .encodeCall source 0 2 :: rest ∧ 0 ≤ 2 ∧ 2 ≤ 65536 ∧
        source.size = 2 - 0 ∧ source.wf = true ∧ u.host = .idle ∧ u.resetInput = [] ∧
        u.port = .decodeCall text target 0 2 :: next ∧ target.size = 2 - 0 ∧ target.wf = true :=
  ⟨{ State.reset with port := [.encodeCall ⟨2, [(1, 0x07)]⟩ 0 2] },
    { State.reset with port := [.decodeCall (withLineFeed terminatorText) ⟨2, []⟩ 0 2] },
    ⟨2, [(1, 0x07)]⟩, ⟨2, []⟩, [], [], withLineFeed terminatorText,
    rfl, rfl, rfl, by decide, by decide, rfl, by decide, rfl, rfl, rfl, rfl, by decide⟩

end Sys2Proof.Tests
end

section
/-! PROOFS. The obligations on the scope of the model (00_scope.md): a step performs the next command word, no step
changes a parameter, and the host's buffer reads back what was written. -/

namespace Sys2Proof.Machine

/-! ### The command port -/

/-- A word that decodes is performed as its command (R68). -/
theorem command_of_decode_ok {w : Word} {i : Instr} (h : decode w = .ok i) (s : State) : command w s = exec i s := by
  rw [command, h]

/-- A word the decoder rejects takes the illegal-command outcome (R68, R262). -/
theorem command_of_decode_error {w : Word} {e : Illegal} (h : decode w = .error e) (s : State) :
    command w s = .next (raiseIll s) := by
  rw [command, h]

/-- A command word at the head of the port is taken off it before the block performs it. -/
theorem portStep_of_command {s : State} {w : Word} {rest : List HostAction} (h : s.port = .command w :: rest) :
    portStep s = command w { s with port := rest } := by
  rw [portStep, h]

/-- Settles O6: such a step is the port's step, which is the command of the word at its head. -/
theorem stepPerformsTheNextCommand : Obligations.StepPerformsTheNextCommand := by
  intro s w rest hidle hreset hport
  have hstep : step s = command w { s with port := rest } := by
    rw [step_of_idle hreset hidle, portStep_of_command hport]
  refine ⟨fun i hi => ?_, fun e he => ?_⟩
  · rw [hstep, command_of_decode_ok hi]
  · rw [hstep, command_of_decode_error he]
    rfl

/-! ### The parameters -/

/-- No step of the host changes a parameter: all it does to the block is at most one command (R33). -/
theorem hostStep_cfg {s u : State} (h : hostStep s = .next u) : u.cfg = s.cfg := by
  obtain ⟨t, g, r, p, rfl, rfl | ⟨w, p', hcommand⟩⟩ := hostStep_form h
  · rfl
  · exact (command_outside hcommand).cfg

/-- Settles O35: a step is the reset event, which writes the block's registers only, or a step of the host. -/
theorem noStepChangesAParameter : Obligations.NoStepChangesAParameter := by
  intro s t h
  obtain ⟨rest, -, hreset⟩ | ⟨rest, hhost⟩ := step_cases s
  · obtain rfl := Host.Outcome.next.inj (hreset.symm.trans h)
    exact resetBlock_cfg _
  · exact hostStep_cfg (s := { s with resetInput := rest }) (hhost.symm.trans h)

/-! ### The buffer -/

/-- Inside the buffer a write answers. -/
theorem Memory.write_of_lt {m : Memory} {i : Nat} (h : i < m.size) (b : Byte) :
    m.write i b = some { m with cells := cellsWrite m.cells i b } :=
  Memory.write_eq_some.mpr ⟨h, rfl⟩

/-- Outside the buffer there is no byte to write (R43). -/
theorem Memory.write_of_size_le {m : Memory} {i : Nat} (h : m.size ≤ i) (b : Byte) : m.write i b = none :=
  if_neg (Nat.not_lt.mpr h)

/-- Outside the buffer there is no byte to read (R43). -/
theorem Memory.read_of_size_le {m : Memory} {i : Nat} (h : m.size ≤ i) : m.read i = none :=
  if_neg (Nat.not_lt.mpr h)

/-- Settles O43: inside the buffer by the rules of a write that answers, outside it by the bounds check of each
access. -/
theorem bufferReadsBackWhatWasWritten : Obligations.BufferReadsBackWhatWasWritten := by
  intro m i b hwf
  refine ⟨fun hi => ?_, fun hi => ⟨Memory.write_of_size_le hi b, Memory.read_of_size_le hi⟩⟩
  have hwrite := Memory.write_of_lt hi b
  refine ⟨_, hwrite, Memory.write_wf hwf hwrite, Memory.write_size hwrite, ?_, fun j hj => ?_⟩
  · rw [Memory.read_write hwf hwrite, if_pos rfl]
  · rw [Memory.read_write hwf hwrite, if_neg hj]

end Sys2Proof.Machine
end

section
/-! PROOFS. The obligations on the block's state (10_state.md): the window registers and the machine's invariant over
every step, what each command does to the flags by its cause, and what it leaves alone. -/

namespace Sys2Proof.Machine

/-! ### The window over every step -/

/-- No step of the host breaks the window: all it does to the block is at most one command (R23 to R25). -/
theorem hostStep_windowOk {s u : State} (hs : s.WindowOk) (h : hostStep s = .next u) : u.WindowOk := by
  obtain ⟨t, g, r, p, rfl, rfl | ⟨w, p', hcommand⟩⟩ := hostStep_form h
  · exact hs
  · have ht : t.WindowOk := command_windowOk (s := { s with port := p' }) hs hcommand
    exact ht

/-- The reset event leaves an empty window (R37, R290). -/
theorem resetBlock_windowOk (s : State) : (resetBlock s).WindowOk := by
  simp [State.WindowOk]

/-- Settles O31: the reset event empties the window, and any other step is a step of the host. -/
theorem everyStepKeepsTheWindow : Obligations.EveryStepKeepsTheWindow := by
  intro s t hs h
  obtain ⟨rest, -, hreset⟩ | ⟨rest, hhost⟩ := step_cases s
  · obtain rfl := Host.Outcome.next.inj (hreset.symm.trans h)
    exact resetBlock_windowOk _
  · exact hostStep_windowOk (s := { s with resetInput := rest }) hs (hhost.symm.trans h)

/-! ### The machine's invariant over every step -/

/-- The invariant speaks of the block's window, the host and the result only, and a command touches the window alone. -/
theorem command_inv {w : Word} {s t : State} (hs : s.Inv) (h : command w s = .next t) : t.Inv := by
  obtain ⟨hwindow, hhost, hresult⟩ := hs
  have hsame := command_outside h
  exact ⟨command_windowOk hwindow h, hsame.host ▸ hhost, hsame.result ▸ hresult⟩

/-- A decode call that starts meets its invariant: its preconditions have been checked (R200, R201, R204). -/
theorem startDecode_inv {stream : List Byte} {buffer : Memory} {start stop : Nat} {s t : State} (hs : s.Inv)
    (h : startDecode stream buffer start stop s = .next t) : t.Inv := by
  obtain ⟨hwindow, -, hresult⟩ := hs
  unfold startDecode at h
  split at h
  · exact nomatch h
  · rename_i hcall
    split at h
    · exact nomatch h
    · rename_i hlines
      obtain rfl := Host.Outcome.next.inj h
      have hcall' : callOk buffer start stop = true := by simpa using hcall
      exact ⟨hwindow, ⟨hcall', by simpa using hlines, le_rfl, (callOk_iff.mp hcall').1, trivial⟩, hresult⟩

/-- An encode call that starts meets its invariant (R220, R221). -/
theorem startEncode_inv {buffer : Memory} {start stop : Nat} {s t : State} (hs : s.Inv)
    (h : startEncode buffer start stop s = .next t) : t.Inv := by
  obtain ⟨hwindow, -, hresult⟩ := hs
  unfold startEncode at h
  split at h
  · exact nomatch h
  · rename_i hcall
    obtain rfl := Host.Outcome.next.inj h
    have hcall' : callOk buffer start stop = true := by simpa using hcall
    exact ⟨hwindow, ⟨hcall', le_rfl, (callOk_iff.mp hcall').1, trivial⟩, hresult⟩

/-- The next action of an idle host, of each kind, keeps the invariant. -/
theorem portStep_inv {s t : State} (hs : s.Inv) (h : portStep s = .next t) : t.Inv := by
  unfold portStep at h
  split at h
  · exact command_inv hs h
  · rename_i rest _
    exact command_inv (s := { s with port := rest }) hs h
  · rename_i rest _
    exact startDecode_inv (s := { s with port := rest }) hs h
  · rename_i rest _
    exact startEncode_inv (s := { s with port := rest }) hs h

/-- What a call's step keeps is the invariant. -/
theorem CallKeeps.inv {s t : State} (h : CallKeeps s t) : t.Inv := ⟨h.window, h.host, h.result⟩

/-- The host's step keeps the invariant, with no call in progress and within either call. -/
theorem hostStep_inv {s t : State} (hs : s.Inv) (h : hostStep s = .next t) : t.Inv := by
  have ⟨hwindow, hhost, hresult⟩ := hs
  unfold hostStep at h
  split at h <;> rename_i hcall
  · exact portStep_inv hs h
  · obtain ⟨u, hu, hkeeps⟩ := decodeStep_keeps hwindow (hcall ▸ hhost) hresult
    obtain rfl := Host.Outcome.next.inj (hu.symm.trans h)
    exact hkeeps.inv
  · obtain ⟨u, hu, hkeeps⟩ := encodeStep_keeps hwindow (hcall ▸ hhost) hresult
    obtain rfl := Host.Outcome.next.inj (hu.symm.trans h)
    exact hkeeps.inv

/-- The reset event keeps the invariant: it empties the window and leaves the host as it is (log 4). -/
theorem resetBlock_inv {s : State} (hs : s.Inv) : (resetBlock s).Inv := by
  obtain ⟨-, hhost, hresult⟩ := hs
  exact ⟨resetBlock_windowOk s, hhost, hresult⟩

/-- Settles O32: a step is the reset event or a step of the host, and both keep the invariant. -/
theorem everyStepKeepsTheMachineInvariant : Obligations.EveryStepKeepsTheMachineInvariant := by
  intro s t hs h
  obtain ⟨rest, -, hreset⟩ | ⟨rest, hhost⟩ := step_cases s
  · obtain rfl := Host.Outcome.next.inj (hreset.symm.trans h)
    exact resetBlock_inv (s := { s with resetInput := rest }) hs
  · exact hostStep_inv (s := { s with resetInput := rest }) hs (hhost.symm.trans h)

/-- Settles O33: the window is empty, the host idle and no result given. -/
theorem resetMeetsTheMachineInvariant : Obligations.ResetMeetsTheMachineInvariant := by
  have hwindow : State.reset.WindowOk := by simp [State.WindowOk, State.reset]
  exact ⟨hwindow, trivial, trivial⟩

/-! ### What a command leaves alone -/

/-- Only CKCLR, CKADD and CKADD16 write the sum (R26). -/
theorem exec_ckacc {i : Instr} {s t : State} (h : exec i s = .next t) (hclr : i ≠ .ckclr) (hadd : ∀ b, i ≠ .ckadd b)
    (hadd16 : ∀ x, i ≠ .ckadd16 x) : t.ckacc = s.ckacc := by
  have keeps : ∀ {u v : State}, (Host.Outcome.next u : Host.Outcome State Fault Refusal) = .next v →
      u.ckacc = s.ckacc → v.ckacc = s.ckacc := fun e hu => Host.Outcome.next.inj e ▸ hu
  cases i with
  | hexnib b => simp only [exec, execHexnib] at h; split at h <;> exact keeps h rfl
  | hexbyte hi lo => simp only [exec, execHexbyte] at h; split at h <;> exact keeps h rfl
  | wpush b =>
    simp only [exec, execWpush] at h
    split at h
    · exact keeps h rfl
    · split at h <;> exact keeps h rfl
  | unpack c =>
    simp only [exec, execUnpack] at h
    split at h
    · exact keeps h rfl
    · split at h
      · exact keeps h rfl
      · exact nomatch h
  | classify b => simp only [exec, execClassify] at h; split at h <;> exact keeps h rfl
  | plen c len => simp only [exec, execPlen] at h; split at h <;> exact keeps h rfl
  | ckclr => exact absurd rfl hclr
  | ckadd b => exact absurd rfl (hadd b)
  | ckadd16 x => exact absurd rfl (hadd16 x)
  | _ => exact keeps h rfl

/-- Settles O28: a command leaves the window alone, or is WCLR or WPUSH; and it leaves the sum alone, or is one of
three. -/
theorem onlyTheirCommandsWriteWindowAndSum : Obligations.OnlyTheirCommandsWriteWindowAndSum := by
  intro i s t h
  refine ⟨fun hclr hpush => ?_, exec_ckacc h⟩
  obtain hkept | ⟨hi, -⟩ | ⟨b, hi, -⟩ := exec_window h
  · exact hkept
  · exact absurd hi hclr
  · exact absurd hi (hpush b)

/-- Settles O29: every command writes within the block. -/
theorem commandsTouchOnlyTheBlock : Obligations.CommandsTouchOnlyTheBlock := by
  intro i s t h
  obtain ⟨hcfg, hhost, hresult, hport, hreset⟩ := exec_outside h
  exact ⟨hcfg, hhost, hresult, hport, hreset⟩

/-- Settles O30: the window function, where alone a command can stop, has a value at every count up to 8. -/
theorem everyCommandIsAnswered : Obligations.EveryCommandIsAnswered :=
  fun i _ hcount => exec_next i hcount

/-! ### UNPACK's one stop -/

/-- The window function has no value exactly under `ZERO_FILL` with a count above 8 (R24, R121; log 5). -/
theorem fillwin_eq_none_iff {s : State} :
    fillwin s = none ↔ s.cfg.windowFill = .zeroFill ∧ 8 < s.wcnt.toNat := by
  unfold fillwin
  split
  · rename_i hempty
    simp [hempty]
  · cases s.cfg.windowFill with
    | zeroFill => simp [BitVec.lt_def]
    | asRead => simp

/-- UNPACK with a legal code stops where the window function has no value (R125; log 5). -/
theorem exec_unpack_stuck {s : State} {c : WidthCode} (hc : c ≠ 0) (h : fillwin s = none) :
    exec (.unpack c) s = .fault .windowCount := by
  simp only [exec, execUnpack, if_neg hc, h]

/-- Settles O17: UNPACK with a legal code faults exactly where the window function has no value. -/
theorem unpackStopsOnlyOnAnUnreachableCount : Obligations.UnpackStopsOnlyOnAnUnreachableCount := by
  intro s c f
  by_cases hc : c = 0
  · have hnext : exec (.unpack c) s = .next (raiseIll s) := by rw [hc]; rfl
    rw [hnext]
    simp [hc]
  rw [← and_assoc (a := s.cfg.windowFill = .zeroFill), ← fillwin_eq_none_iff]
  cases hv : fillwin s with
  | some v => simp [exec_unpack_next hc hv]
  | none =>
    rw [exec_unpack_stuck hc hv, Host.Outcome.fault.injEq]
    exact ⟨fun h => ⟨hc, rfl, h.symm⟩, fun h => h.2.2.symm⟩

/-! ### The flags by cause -/

/-- What a command answers, by its cause of failure (R263): NOP and CLRST have neither result nor cause, an illegal
command (B7) only raises `ILL`, a valid result leaves the sticky flags, B1 to B5 are `setres` with `OK` 0 and the value
of the command's own rule, and B6 leaves `ERRS` alone. -/
inductive Answer (s : State) : Instr → State → Prop where
  | nop : Answer s .nop s
  | clrst : Answer s .clrst (clearSticky s)
  | illegal {i} (cause : causeOf i s = some .b7) : Answer s i (raiseIll s)
  | valid {i t} (cause : causeOf i s = none) (notNop : i ≠ .nop) (notClrst : i ≠ .clrst) (ok : t.ok = true)
      (errs : t.errs = s.errs) (ill : t.ill = s.ill) : Answer s i t
  | badDigit {b} (cause : causeOf (.hexnib b) s = some .b1) : Answer s (.hexnib b) (setres 0 false s)
  | badPair {hi lo} (cause : causeOf (.hexbyte hi lo) s = some .b2) : Answer s (.hexbyte hi lo) (setres 0 false s)
  | shortWindow {c} (cause : causeOf (.unpack c) s = some .b3) :
      Answer s (.unpack c) (setres (BitVec.ofNat 32 (s.windowNat / 2 ^ (8 * (3 - c.toNat)))) false s)
  | badClass {b} (cause : causeOf (.classify b) s = some .b4) : Answer s (.classify b) (setres 7 false s)
  | shortRecord {c len} (cause : causeOf (.plen c len) s = some .b5) :
      Answer s (.plen c len) (setres (BitVec.ofNat 32 (2 ^ 32 - (c.toNat + 2 - len.toNat))) false s)
  | scanOver {b t} (cause : causeOf (.wpush b) s = some .b6) (res : t.res = s.wacc) (ok : t.ok = false)
      (errs : t.errs = s.errs) (ill : t.ill = s.ill) : Answer s (.wpush b) t

/-- A character is a hex digit of some value, or none (R100). -/
theorem digit_or_notDigit (lower : Bool) (c : Byte) : (∃ n, DigitValue lower c n) ∨ NotDigit lower c := by
  by_cases h : ∃ n, DigitValue lower c n
  · exact .inl h
  · exact .inr (not_exists.mp h)

theorem ishex_of_digit {lower : Bool} {c : Byte} {n : Nat} (h : DigitValue lower c n) : ishex lower c = true := by
  rw [ishex, hexval_of_digit h]; rfl

theorem ishex_of_notDigit {lower : Bool} {c : Byte} (h : NotDigit lower c) : ishex lower c = false := by
  rw [ishex, (hexval_none_iff _ _).mpr h]; rfl

theorem exec_inj {i : Instr} {s t u : State} (h : exec i s = .next t) (h' : exec i s = .next u) : t = u :=
  Host.Outcome.next.inj (h.symm.trans h')

/-- WPUSH's answer, in the three branches of R123. -/
theorem exec_wpush_answer {b : Byte} {s t : State} (h : exec (.wpush b) s = .next t) : Answer s (.wpush b) t := by
  cases hs : s.wstop with
  | true =>
    obtain rfl := exec_inj (exec_wpush_stopped hs) h
    exact .scanOver (by simp [causeOf, hs]) rfl rfl rfl rfl
  | false =>
    obtain ⟨n, hn⟩ | hn := digit_or_notDigit s.cfg.hexLower b
    · obtain rfl := exec_inj (exec_wpush_digit hs hn) h
      exact .valid (by simp [causeOf, hs, ishex_of_digit hn]) nofun nofun rfl rfl rfl
    · obtain rfl := exec_inj (exec_wpush_invalid hs hn) h
      exact .scanOver (by simp [causeOf, hs, ishex_of_notDigit hn]) rfl rfl rfl rfl

/-- UNPACK's answer: an illegal code, a window with too few digits, or the address (R125, R126). -/
theorem exec_unpack_answer {c : WidthCode} {s t : State} (h : exec (.unpack c) s = .next t) :
    Answer s (.unpack c) t := by
  by_cases hc : c = 0
  · obtain rfl := exec_inj (t := raiseIll s) (by rw [hc]; rfl) h
    exact .illegal (by simp [causeOf, hc])
  cases hv : fillwin s with
  | none => exact nomatch (exec_unpack_stuck hc hv).symm.trans h
  | some v =>
    obtain rfl := exec_inj (exec_unpack_next hc hv) h
    rw [shift_eq_div, fillwin_toNat hv, addressBytes]
    by_cases hfew : s.wcnt.toNat < 2 * (c.toNat + 1)
    · rw [decide_eq_false (Nat.not_le.mpr hfew)]
      exact .shortWindow (by rw [causeOf, if_neg hc, if_pos hfew])
    · rw [decide_eq_true (Nat.not_lt.mp hfew)]
      exact .valid (by rw [causeOf, if_neg hc, if_neg hfew]) nofun nofun rfl (by simp) rfl

/-- PLEN's answer: an illegal code, a negative length, or the length (R130). -/
theorem exec_plen_answer {c : WidthCode} {len : Byte} {s t : State} (h : exec (.plen c len) s = .next t) :
    Answer s (.plen c len) t := by
  by_cases hc : c = 0
  · obtain rfl := exec_inj (t := raiseIll s) (by rw [hc]; rfl) h
    exact .illegal (by simp [causeOf, hc])
  obtain rfl := exec_inj (exec_plen_next hc len) h
  have hsign : 0 ≤ payloadLen c len ↔ ¬len.toNat < c.toNat + 2 := by unfold payloadLen; omega
  by_cases hshort : len.toNat < c.toNat + 2
  · rw [payloadLen_negative hshort, decide_eq_false (mt hsign.mp (not_not_intro hshort))]
    exact .shortRecord (by rw [causeOf, if_neg hc, if_pos hshort])
  · rw [decide_eq_true (hsign.mpr hshort)]
    exact .valid (by rw [causeOf, if_neg hc, if_neg hshort]) nofun nofun rfl (by simp) rfl

/-- A command that is answered is answered by its cause. -/
theorem exec_answer {i : Instr} {s t : State} (h : exec i s = .next t) : Answer s i t := by
  cases i with
  | nop => obtain rfl := Host.Outcome.next.inj h; exact .nop
  | clrst => obtain rfl := Host.Outcome.next.inj h; exact .clrst
  | hexnib b =>
    obtain ⟨n, hn⟩ | hn := digit_or_notDigit s.cfg.hexLower b
    · obtain rfl := exec_inj (exec_hexnib_digit hn) h
      exact .valid (by simp [causeOf, ishex_of_digit hn]) nofun nofun rfl (by simp) rfl
    · obtain rfl := exec_inj (exec_hexnib_invalid hn) h
      exact .badDigit (by simp [causeOf, ishex_of_notDigit hn])
  | hexbyte hi lo =>
    have invalid (hn : NotDigit s.cfg.hexLower hi ∨ NotDigit s.cfg.hexLower lo) : Answer s (.hexbyte hi lo) t := by
      obtain rfl := exec_inj (exec_hexbyte_invalid hn) h
      refine .badPair ?_
      obtain hn | hn := hn <;> simp [causeOf, ishex_of_notDigit hn]
    obtain ⟨m, hm⟩ | hm := digit_or_notDigit s.cfg.hexLower hi
    · obtain ⟨n, hn⟩ | hn := digit_or_notDigit s.cfg.hexLower lo
      · obtain rfl := exec_inj (exec_hexbyte_digits hm hn) h
        exact .valid (by simp [causeOf, ishex_of_digit hm, ishex_of_digit hn]) nofun nofun rfl (by simp) rfl
      · exact invalid (.inr hn)
    · exact invalid (.inl hm)
  | wpush b => exact exec_wpush_answer h
  | unpack c => exact exec_unpack_answer h
  | classify b =>
    obtain ⟨n, hn⟩ | hn := digit_or_notDigit s.cfg.hexLower b
    · obtain rfl := exec_inj (exec_classify_digit hn) h
      exact .valid (by simp [causeOf, ishex_of_digit hn]) nofun nofun rfl (by simp) rfl
    · obtain rfl := exec_inj (exec_classify_invalid hn) h
      exact .badClass (by simp [causeOf, ishex_of_notDigit hn])
  | plen c len => exact exec_plen_answer h
  | wclr | ckclr | ckadd | ckadd16 | ckfin =>
    obtain rfl := Host.Outcome.next.inj h
    exact .valid rfl nofun nofun rfl (by simp [writeSum]) rfl
  | reservedD | reservedE | reservedF =>
    obtain rfl := Host.Outcome.next.inj h
    exact .illegal rfl

/-! ### Illegal words -/

/-- A format's check that fails rejects the word (R67). -/
theorem ifZero_error {ok : Bool} (h : ¬ok = true) (i : Instr) : ifZero ok i = .error .mustBeZero := if_neg h

/-- UNPACK's word with a bit that must be zero, code 0 or a length is rejected (R64, R67). -/
theorem decodeUnpack_error {w : Word} (h : ¬zeroW w = true ∨ widthField w = 0 ∨ lowByte w ≠ 0) :
    ∃ e, decodeUnpack w = .error e := by
  unfold decodeUnpack
  split
  · exact ⟨_, rfl⟩
  · split
    · exact ⟨_, rfl⟩
    · split
      · exact ⟨_, rfl⟩
      · simp_all

/-- PLEN's word with a bit that must be zero or code 0 is rejected (R64, R67). -/
theorem decodePlen_error {w : Word} (h : ¬zeroW w = true ∨ widthField w = 0) : ∃ e, decodePlen w = .error e := by
  unfold decodePlen
  split
  · exact ⟨_, rfl⟩
  · split
    · exact ⟨_, rfl⟩
    · simp_all

/-- Format W's two grounds by the bits of the word (R64, R67). -/
theorem formatW_illegal {w : Word}
    (h : w.toNat / 2 ^ 26 % 4 ≠ 0 ∨ w.toNat / 2 ^ 8 % 2 ^ 16 ≠ 0 ∨ w.toNat / 2 ^ 24 % 4 = 0) :
    ¬zeroW w = true ∨ widthField w = 0 := by
  rw [zeroW_iff, ← BitVec.toNat_inj, widthField_toNat, zero_toNat]
  omega

/-- An illegal word is rejected by the decoder or has a reserved opcode, by the grounds of R67. -/
theorem decode_of_illegalWord {w : Word} (h : IllegalWord w) :
    (∃ e, decode w = .error e) ∨ ∃ i, decode w = .ok i ∧ i.reserved = true := by
  have hw := w.isLt
  obtain hop | ⟨hop, hz⟩ | ⟨hop, hz⟩ | ⟨hop, hz⟩ | ⟨hop, hz⟩ | ⟨hop, hz⟩ := h
  · right
    have hcases : w.toNat / 2 ^ 28 = 0xD ∨ w.toNat / 2 ^ 28 = 0xE ∨ w.toNat / 2 ^ 28 = 0xF := by omega
    obtain hop | hop | hop := hcases <;> rw [decode_op, hop] <;> exact ⟨_, rfl, rfl⟩
  · have hzero := ifZero_error (mt (zeroN_iff w).mp hz)
    simp only [List.mem_cons, List.not_mem_nil, or_false] at hop
    obtain hop | hop | hop | hop := hop <;> rw [decode_op, hop] <;> exact .inl ⟨_, hzero _⟩
  · have hzero := ifZero_error (mt (zeroB_iff w).mp hz)
    simp only [List.mem_cons, List.not_mem_nil, or_false] at hop
    obtain hop | hop | hop | hop | hop := hop <;> rw [decode_op, hop] <;> exact .inl ⟨_, hzero _⟩
  · have hzero := ifZero_error (mt (zeroH_iff w).mp hz)
    simp only [List.mem_cons, List.not_mem_nil, or_false] at hop
    obtain hop | hop := hop <;> rw [decode_op, hop] <;> exact .inl ⟨_, hzero _⟩
  · have hformat := formatW_illegal hz
    simp only [List.mem_cons, List.not_mem_nil, or_false] at hop
    obtain hop | hop := hop <;> rw [decode_op, hop]
    · exact .inl (decodeUnpack_error (hformat.imp_right .inl))
    · exact .inl (decodePlen_error hformat)
  · have hlength : lowByte w ≠ 0 := by rwa [Ne, ← BitVec.toNat_inj, lowByte_toNat, zero_toNat]
    rw [decode_op, hop]
    exact .inl (decodeUnpack_error (.inr (.inr hlength)))

theorem causeOf_reserved {i : Instr} (h : i.reserved = true) (s : State) : causeOf i s = some .b7 := by
  cases i with
  | reservedD | reservedE | reservedF => rfl
  | _ => exact nomatch h

theorem exec_reserved {i : Instr} (h : i.reserved = true) (s : State) : exec i s = .next (raiseIll s) := by
  cases i with
  | reservedD | reservedE | reservedF => rfl
  | _ => exact nomatch h

theorem wordCause_of_illegalWord {w : Word} (h : IllegalWord w) (s : State) : wordCause w s = some .b7 := by
  obtain ⟨e, he⟩ | ⟨i, hi, hreserved⟩ := decode_of_illegalWord h
  · rw [wordCause, he]
  · rw [wordCause, hi]
    exact causeOf_reserved hreserved s

theorem command_of_illegalWord {w : Word} (h : IllegalWord w) (s : State) : command w s = .next (raiseIll s) := by
  obtain ⟨e, he⟩ | ⟨i, hi, hreserved⟩ := decode_of_illegalWord h
  · exact command_of_decode_error he s
  · rw [command_of_decode_ok hi, exec_reserved hreserved]

/-! ### The flags after a command, an illegal word and reset -/

/-- A reset input sampled high makes the step the reset event (R290). -/
theorem step_of_reset {s : State} {rest : List Bool} (h : s.resetInput = true :: rest) :
    step s = .next (resetBlock { s with resetInput := rest }) := by
  rw [step, sampleReset, h]

/-- Settles O27: what a command answers by its cause says every flag; an illegal word has cause B7. -/
theorem flagsFollowTheCauseOfEachCommand : Obligations.FlagsFollowTheCauseOfEachCommand := by
  refine ⟨fun i s t h => ?_, fun w s h => ?_, fun s rest h => ?_⟩
  · cases exec_answer h with
    | nop => simp [causeOf]
    | clrst => simp [causeOf]
    | illegal cause =>
      have hclrst : i ≠ .clrst := by rintro rfl; exact nomatch cause
      simp [cause, hclrst]
    | valid cause hnop hclrst ok errs ill => simp [cause, hnop, hclrst, ok, errs, ill]
    | scanOver cause res ok errs ill => simp [cause, res, ok, errs, ill]
    | badDigit cause | badPair cause | shortWindow cause | badClass cause | shortRecord cause => simp [cause]
  · exact ⟨wordCause_of_illegalWord h s, command_of_illegalWord h s⟩
  · exact ⟨_, step_of_reset h, rfl, rfl, rfl, rfl⟩

/-! ### The window scan -/

/-- Settles O39: the eight characters offered are those of `scanText`, and the run is `runCommands_wscan`'s. -/
theorem wscanHoldsTheDigitsOfTheField : Obligations.WscanHoldsTheDigitsOfTheField := by
  intro s text cs rest ds htext hdigits hrest
  obtain ⟨t, hrun, hvalue, hcount, hstop, hsame⟩ := runCommands_wscan htext hdigits hrest
  exact ⟨t, hrun, hvalue, hcount, hstop, hsame.ckacc, hsame.errs, hsame.ill⟩

/-! ### Registers at reset and the STATUS port -/

/-- Settles O9: each register is read off the reset state. -/
theorem resetStateIsTheSpecs : Obligations.ResetStateIsTheSpecs :=
  ⟨rfl, rfl, rfl, rfl, rfl, rfl, rfl, rfl, rfl⟩

/-- Settles O10: the port is its fields one above the other, and a field's weight is what stands below it. -/
theorem statusPortShowsEveryFlag : Obligations.StatusPortShowsEveryFlag := by
  intro s
  simp only [readStatus, toNat_append_add, zero_toNat, BitVec.toNat_ofBool]
  omega

end Sys2Proof.Machine
end

section
/-! PROOFS. The obligation on the host's buffer (20_memory.md): a machine in its invariant never faults, and what it
refuses is a call that its preconditions, or the longest line, forbid. -/

namespace Sys2Proof.Machine

/-! ### What the start of a call answers -/

/-- A call whose preconditions fail does not pass the check (R200, R220). -/
theorem callOk_eq_false_iff {buffer : Memory} {start stop : Nat} :
    callOk buffer start stop = false ↔ ¬CallPrecondition buffer start stop := by
  rw [← Bool.not_eq_true, callOk_iff]

/-- Lines that do not pass the check have one of more than 255 characters among them (R81, R204). -/
theorem linesOk_eq_false_iff {lines : List (List Byte)} : linesOk lines = false ↔ ∃ l ∈ lines, 255 < l.length := by
  simp [linesOk]

/-- The three answers to a decode call: it starts, its preconditions fail, or a line is too long (R200, R204). -/
theorem startDecode_answer (stream : List Byte) (buffer : Memory) (start stop : Nat) (s : State) :
    (∃ t, startDecode stream buffer start stop s = .next t) ∨
      (startDecode stream buffer start stop s = .refused .callPrecondition ∧ ¬CallPrecondition buffer start stop) ∨
      (startDecode stream buffer start stop s = .refused .lineTooLong ∧ ∃ l ∈ splitLines stream, 255 < l.length) := by
  unfold startDecode
  cases hcall : callOk buffer start stop with
  | false => exact .inr (.inl ⟨rfl, callOk_eq_false_iff.mp hcall⟩)
  | true =>
    cases hlines : linesOk (splitLines stream) with
    | false => exact .inr (.inr ⟨rfl, linesOk_eq_false_iff.mp hlines⟩)
    | true => exact .inl ⟨_, rfl⟩

/-- The two answers to an encode call: it starts, or its preconditions fail (R220). -/
theorem startEncode_answer (buffer : Memory) (start stop : Nat) (s : State) :
    (∃ t, startEncode buffer start stop s = .next t) ∨
      (startEncode buffer start stop s = .refused .callPrecondition ∧ ¬CallPrecondition buffer start stop) := by
  unfold startEncode
  cases hcall : callOk buffer start stop with
  | false => exact .inr ⟨rfl, callOk_eq_false_iff.mp hcall⟩
  | true => exact .inl ⟨_, rfl⟩

/-! ### What a step of the host answers -/

/-- The outcome is the refusal of the call at the head of the port, for a reason that call gives (log 9, 12). -/
def RefusesCall (port : List HostAction) (o : Host.Outcome State Fault Refusal) : Prop :=
  (o = .refused .callPrecondition ∧
      ∃ buffer start stop, ¬CallPrecondition buffer start stop ∧
        (port.head? = some (.encodeCall buffer start stop) ∨
          ∃ stream, port.head? = some (.decodeCall stream buffer start stop))) ∨
    (o = .refused .lineTooLong ∧
      ∃ stream buffer start stop, port.head? = some (.decodeCall stream buffer start stop) ∧
        ∃ l ∈ splitLines stream, 255 < l.length)

/-- A command word is always answered where the window invariant holds (R260). -/
theorem command_next (w : Word) {s : State} (hs : s.WindowOk) : ∃ t, command w s = .next t := by
  obtain ⟨t, ht, -⟩ := command_keeps w hs
  exact ⟨t, ht⟩

/-- An idle host's next action is answered, or is a call that is refused: a command word always has an answer, and a
call is checked before it starts. -/
theorem portStep_answer {s : State} (hs : s.WindowOk) :
    (∃ t, portStep s = .next t) ∨ RefusesCall s.port (portStep s) := by
  unfold portStep
  split
  · exact .inl (command_next _ hs)
  · exact .inl (command_next _ hs)
  · rename_i stream buffer start stop rest hport
    obtain hnext | ⟨hrefused, hpre⟩ | ⟨hrefused, hlong⟩ :=
      startDecode_answer stream buffer start stop { s with port := rest }
    · exact .inl hnext
    · exact .inr (.inl ⟨hrefused, buffer, start, stop, hpre, .inr ⟨stream, by rw [hport]; rfl⟩⟩)
    · exact .inr (.inr ⟨hrefused, stream, buffer, start, stop, by rw [hport]; rfl, hlong⟩)
  · rename_i buffer start stop rest hport
    obtain hnext | ⟨hrefused, hpre⟩ := startEncode_answer buffer start stop { s with port := rest }
    · exact .inl hnext
    · exact .inr (.inl ⟨hrefused, buffer, start, stop, hpre, .inl (by rw [hport]; rfl)⟩)

/-- From the invariant the host's step is answered, or the host is idle and its next action is a call that is refused:
within a call every command and every access to the buffer is answered (R43, R214, R230). -/
theorem hostStep_answer {s : State} (hs : s.Inv) :
    (∃ t, hostStep s = .next t) ∨ (s.host = .idle ∧ RefusesCall s.port (hostStep s)) := by
  obtain ⟨hwindow, hhost, hresult⟩ := hs
  unfold hostStep
  cases hcall : s.host with
  | idle => exact (portStep_answer hwindow).imp_right fun hrefuses => ⟨rfl, hrefuses⟩
  | decoding d =>
    obtain ⟨t, ht, -⟩ := decodeStep_keeps hwindow (hcall ▸ hhost) hresult
    exact .inl ⟨t, ht⟩
  | encoding e =>
    obtain ⟨t, ht, -⟩ := encodeStep_keeps hwindow (hcall ▸ hhost) hresult
    exact .inl ⟨t, ht⟩

/-- Settles O34: the reset event is always answered, and any other step is a step of the host. -/
theorem machineInInvariantNeverFaults : Obligations.MachineInInvariantNeverFaults := by
  intro s hs
  obtain ⟨rest, -, hreset⟩ | ⟨rest, hhost⟩ := step_cases s
  · exact .inl ⟨_, hreset⟩
  · rw [hhost]
    exact hostStep_answer (s := { s with resetInput := rest }) hs

end Sys2Proof.Machine
end

section
/-! PROOFS. The obligations on the encoding of command words (30_encoding.md): decoder and encoder are inverse to each
other, and a legal word is the command its bits name. -/

namespace Sys2Proof

/-! ### A decoded word is the word of its command -/

/-- Settles O1: the decoder reads each constructor's format back. -/
theorem decodeReadsBackEveryEncodedInstruction : Obligations.DecodeReadsBackEveryEncodedInstruction := by
  intro i
  cases i with
  | nop => exact Laws.RoundTrip.nop
  | hexnib b => exact Laws.RoundTrip.hexnib b
  | hexbyte hi lo => exact Laws.RoundTrip.hexbyte hi lo
  | wclr => exact Laws.RoundTrip.wclr
  | wpush b => exact Laws.RoundTrip.wpush b
  | unpack c => exact Laws.RoundTrip.unpack c
  | classify b => exact Laws.RoundTrip.classify b
  | plen c len => exact Laws.RoundTrip.plen c len
  | ckclr => exact Laws.RoundTrip.ckclr
  | ckadd b => exact Laws.RoundTrip.ckadd b
  | ckadd16 x => exact Laws.RoundTrip.ckadd16 x
  | ckfin b => exact Laws.RoundTrip.ckfin b
  | clrst => exact Laws.RoundTrip.clrst
  | reservedD x => exact Laws.RoundTrip.reservedD x
  | reservedE x => exact Laws.RoundTrip.reservedE x
  | reservedF x => exact Laws.RoundTrip.reservedF x

section
variable {w : Word} {op : BitVec 4}

/-- A word with this opcode and format N's zeros is the format's word (R61). -/
theorem formatN_of_zeroN (hop : w.toNat / 2 ^ 28 = op.toNat) (hz : zeroN w = true) : formatN op = w := by
  apply BitVec.eq_of_toNat_eq
  rw [zeroN_iff] at hz
  rw [formatN_toNat]; omega

/-- A word with this opcode and format B's zeros is the format's word of its operand (R62, R66). -/
theorem formatB_of_zeroB (hop : w.toNat / 2 ^ 28 = op.toNat) (hz : zeroB w = true) : formatB op (lowByte w) = w := by
  apply BitVec.eq_of_toNat_eq
  rw [zeroB_iff] at hz
  rw [formatB_toNat, lowByte_toNat]; omega

/-- A word with this opcode and format H's zeros is the format's word of its operand (R63, R66). -/
theorem formatH_of_zeroH (hop : w.toNat / 2 ^ 28 = op.toNat) (hz : zeroH w = true) : formatH op (lowHalf w) = w := by
  apply BitVec.eq_of_toNat_eq
  rw [zeroH_iff] at hz
  rw [formatH_toNat, lowHalf_toNat]; omega

/-- A word with this opcode and format W's zeros is the format's word of its operands (R64, R66). -/
theorem formatW_of_zeroW (hop : w.toNat / 2 ^ 28 = op.toNat) (hz : zeroW w = true) :
    formatW op (widthField w) (lowByte w) = w := by
  apply BitVec.eq_of_toNat_eq
  rw [zeroW_iff] at hz
  rw [formatW_toNat, widthField_toNat, lowByte_toNat]; omega

/-- A word is its opcode and the 28 bits below (R60). -/
theorem append_below28 (hop : w.toNat / 2 ^ 28 = op.toNat) : op ++ below28 w = w := by
  apply BitVec.eq_of_toNat_eq
  rw [toNat_append_add, below28_toNat]; omega

end

/-- HEXBYTE's two characters are the low half of the word (R66). -/
theorem highByte_append_lowByte (w : Word) : highByte w ++ lowByte w = lowHalf w := by
  apply BitVec.eq_of_toNat_eq
  rw [toNat_append_add, highByte_toNat, lowByte_toNat, lowHalf_toNat]; omega

/-- UNPACK's word passes when format W's zeros, the width code and the length are as they must be (R64, R67). -/
theorem decodeUnpack_ok {w : Word} {i : Instr} :
    decodeUnpack w = .ok i ↔ zeroW w = true ∧ widthField w ≠ 0 ∧ lowByte w = 0 ∧ .unpack (widthField w) = i := by
  unfold decodeUnpack
  split
  · simp_all
  · split
    · simp_all
    · split <;> simp_all

/-- PLEN's word passes when format W's zeros and the width code are as they must be (R64, R67). -/
theorem decodePlen_ok {w : Word} {i : Instr} :
    decodePlen w = .ok i ↔ zeroW w = true ∧ widthField w ≠ 0 ∧ .plen (widthField w) (lowByte w) = i := by
  unfold decodePlen
  split
  · simp_all
  · split <;> simp_all

/-- A width code that is not 0 is legal (R8, R67). -/
theorem legalCode_of_ne_zero {c : WidthCode} (h : c ≠ 0) : legalCode c = true := bne_iff_ne.mpr h

/-- Settles O2: in each branch of the decoder the format's check leaves no bit of the word but its opcode and the
operands read. -/
theorem encodeReturnsEveryDecodedWord : Obligations.EncodeReturnsEveryDecodedWord := by
  intro w i h
  have hw := w.isLt
  rw [decode_op] at h
  generalize hop : w.toNat / 2 ^ 28 = op at h
  match op with
  | 0x0 | 0x3 | 0x8 | 0xC =>
    obtain ⟨hz, rfl⟩ := ifZero_ok.mp h
    exact ⟨formatN_of_zeroN hop hz, rfl⟩
  | 0x1 | 0x4 | 0x6 | 0x9 | 0xB =>
    obtain ⟨hz, rfl⟩ := ifZero_ok.mp h
    exact ⟨formatB_of_zeroB hop hz, rfl⟩
  | 0x2 =>
    obtain ⟨hz, rfl⟩ := ifZero_ok.mp h
    exact ⟨by rw [encode, highByte_append_lowByte, formatH_of_zeroH hop hz], rfl⟩
  | 0xA =>
    obtain ⟨hz, rfl⟩ := ifZero_ok.mp h
    exact ⟨formatH_of_zeroH hop hz, rfl⟩
  | 0x5 =>
    obtain ⟨hz, hc, hlen, rfl⟩ := decodeUnpack_ok.mp h
    exact ⟨by rw [encode, ← hlen, formatW_of_zeroW hop hz], legalCode_of_ne_zero hc⟩
  | 0x7 =>
    obtain ⟨hz, hc, rfl⟩ := decodePlen_ok.mp h
    exact ⟨formatW_of_zeroW hop hz, legalCode_of_ne_zero hc⟩
  | 0xD | 0xE | 0xF =>
    obtain rfl := Except.ok.inj h
    exact ⟨append_below28 hop, rfl⟩
  | n + 0x10 => exact absurd hop (by omega)

/-! ### A legal word is the command its bits name -/

section
variable {w : Word} (h : ¬Machine.IllegalWord w)
include h

theorem opcode_of_legal : w.toNat / 2 ^ 28 < 0xD := Nat.not_le.mp (mt .inl h)

theorem zeroN_of_legal (hop : w.toNat / 2 ^ 28 ∈ [0x0, 0x3, 0x8, 0xC]) : zeroN w = true :=
  (zeroN_iff w).mpr (not_not.mp fun hz => h (.inr (.inl ⟨hop, hz⟩)))

theorem zeroB_of_legal (hop : w.toNat / 2 ^ 28 ∈ [0x1, 0x4, 0x6, 0x9, 0xB]) : zeroB w = true :=
  (zeroB_iff w).mpr (not_not.mp fun hz => h (.inr (.inr (.inl ⟨hop, hz⟩))))

theorem zeroH_of_legal (hop : w.toNat / 2 ^ 28 ∈ [0x2, 0xA]) : zeroH w = true :=
  (zeroH_iff w).mpr (not_not.mp fun hz => h (.inr (.inr (.inr (.inl ⟨hop, hz⟩)))))

theorem formatW_of_legal (hop : w.toNat / 2 ^ 28 ∈ [0x5, 0x7]) : zeroW w = true ∧ widthField w ≠ 0 := by
  have hz : ¬(w.toNat / 2 ^ 26 % 4 ≠ 0 ∨ w.toNat / 2 ^ 8 % 2 ^ 16 ≠ 0 ∨ w.toNat / 2 ^ 24 % 4 = 0) :=
    fun hz => h (.inr (.inr (.inr (.inr (.inl ⟨hop, hz⟩)))))
  rw [zeroW_iff, Ne, ← BitVec.toNat_inj, widthField_toNat, zero_toNat]
  omega

theorem lowByte_of_legal (hop : w.toNat / 2 ^ 28 = 0x5) : lowByte w = 0 := by
  rw [← BitVec.toNat_inj, lowByte_toNat, zero_toNat]
  exact not_not.mp fun hz => h (.inr (.inr (.inr (.inr (.inr ⟨hop, hz⟩)))))

end

theorem lowByte_eq_ofNat (w : Word) : lowByte w = BitVec.ofNat 8 w.toNat := by
  apply BitVec.eq_of_toNat_eq
  rw [lowByte_toNat, BitVec.toNat_ofNat]

theorem highByte_eq_ofNat (w : Word) : highByte w = BitVec.ofNat 8 (w.toNat / 2 ^ 8) := by
  apply BitVec.eq_of_toNat_eq
  rw [highByte_toNat, BitVec.toNat_ofNat]

theorem lowHalf_eq_ofNat (w : Word) : lowHalf w = BitVec.ofNat 16 w.toNat := by
  apply BitVec.eq_of_toNat_eq
  rw [lowHalf_toNat, BitVec.toNat_ofNat]

theorem widthField_eq_ofNat (w : Word) : widthField w = BitVec.ofNat 2 (w.toNat / 2 ^ 24) := by
  apply BitVec.eq_of_toNat_eq
  rw [widthField_toNat, BitVec.toNat_ofNat]

/-- Settles O3: a legal word passes its format's check and its operands are the fields of R66; an illegal word is
rejected or has a reserved opcode. -/
theorem legalWordsAreTheirCommands : Obligations.LegalWordsAreTheirCommands := by
  intro w
  refine ⟨fun h => ?_, fun h i hi => ?_⟩
  · have hlt := opcode_of_legal h
    have hN := zeroN_of_legal h
    have hB := zeroB_of_legal h
    have hH := zeroH_of_legal h
    have hW := formatW_of_legal h
    have hU := lowByte_of_legal h
    simp only [← lowByte_eq_ofNat, ← highByte_eq_ofNat, ← lowHalf_eq_ofNat, ← widthField_eq_ofNat]
    rw [decode_op]
    generalize w.toNat / 2 ^ 28 = op at *
    match op with
    | 0x0 | 0x3 | 0x8 | 0xC => exact ifZero_ok.mpr ⟨hN (by decide), rfl⟩
    | 0x1 | 0x4 | 0x6 | 0x9 | 0xB => exact ifZero_ok.mpr ⟨hB (by decide), rfl⟩
    | 0x2 | 0xA => exact ifZero_ok.mpr ⟨hH (by decide), rfl⟩
    | 0x5 =>
      obtain ⟨hz, hc⟩ := hW (by decide)
      exact decodeUnpack_ok.mpr ⟨hz, hc, hU rfl, rfl⟩
    | 0x7 =>
      obtain ⟨hz, hc⟩ := hW (by decide)
      exact decodePlen_ok.mpr ⟨hz, hc, rfl⟩
    | n + 0xD => exact absurd hlt (by omega)
  · obtain ⟨e, he⟩ | ⟨j, hj, hreserved⟩ := Machine.decode_of_illegalWord h
    · exact nomatch he.symm.trans hi
    · obtain rfl := Except.ok.inj (hj.symm.trans hi)
      exact hreserved

/-! ### Sample words -/

/-- Settles O5: each word is evaluated. -/
theorem sampleWordsDecodeRight : Obligations.SampleWordsDecodeRight :=
  ⟨rfl, rfl, rfl, rfl, rfl, rfl, rfl, rfl⟩

end Sys2Proof
end

section
/-! PROOFS. The obligations of the encoding family on commands and their sequences: the class table of R73, the
checksum of a record (R154), the address field's value (R125), the written digits (R79), and what calls issue. -/

namespace Sys2Proof.Machine

/-! ### CLASSIFY -/

/-- A word's number with the opcode of format B above a byte (R62). -/
theorem ofNat_formatB (op : BitVec 4) (b : Byte) : BitVec.ofNat 32 (op.toNat * 2 ^ 28 + b.toNat) = formatB op b := by
  rw [← formatB_toNat, BitVec.ofNat_toNat, BitVec.setWidth_eq]

/-- CLASSIFY's result for each type digit is its row of R73. -/
theorem classWord_table {n : Nat} (h : n < 16) :
    classWord (classOf (BitVec.ofNat 4 n)) =
      [0x00, 0x11, 0x22, 0x33, 0x04, 0x15, 0x07, 0x06, 0x06, 0x06, 0x07, 0x07, 0x07, 0x07, 0x07, 0x07].getD n 0 := by
  revert n; decide

/-- Settles O18: the word and its illegal neighbours by format B, a digit by the class table, any other character by
CLASSIFY's failing branch. -/
theorem classifyGivesClassAndWidthCode : Obligations.ClassifyGivesClassAndWidthCode := by
  refine ⟨fun b => ?_, fun w s hop hz => ?_, fun s b n hn => ?_, fun s b hn => ?_⟩
  · rw [show BitVec.ofNat 32 (0x60000000 + b.toNat) = encode (.classify b) from ofNat_formatB 0x6 b]
    exact Laws.RoundTrip.classify b rfl
  · exact command_of_illegalWord (.inr (.inr (.inl ⟨by rw [hop]; decide, hz⟩))) s
  · rw [exec_classify_digit hn, classWord_table (digit_lt hn)]
    simp [setres]
  · rw [exec_classify_invalid hn]
    simp [setres]

/-! ### What calls issue -/

/-- A step of the host within a call keeps `ILL` as it was or clears it. -/
theorem hostStep_ill {s t : State} (hs : s.Inv) (hcall : s.host ≠ .idle) (h : hostStep s = .next t) :
    t.ill = true → s.ill = true := by
  obtain ⟨hwindow, hok, hresult⟩ := hs
  unfold hostStep at h
  split at h <;> rename_i hc
  · exact absurd hc hcall
  · obtain ⟨u, hu, hkeeps⟩ := decodeStep_keeps hwindow (hc ▸ hok) hresult
    obtain rfl := Host.Outcome.next.inj (hu.symm.trans h)
    exact hkeeps.ill
  · obtain ⟨u, hu, hkeeps⟩ := encodeStep_keeps hwindow (hc ▸ hok) hresult
    obtain rfl := Host.Outcome.next.inj (hu.symm.trans h)
    exact hkeeps.ill

/-- Settles O36: a step is the reset event, which clears `ILL`, or a step of the host within the call. -/
theorem hostCallsIssueOnlyLegalCommands : Obligations.HostCallsIssueOnlyLegalCommands := by
  intro s t hs hcall h hill
  obtain ⟨rest, -, hreset⟩ | ⟨rest, hhost⟩ := step_cases s
  · obtain rfl := Host.Outcome.next.inj (hreset.symm.trans h)
    exact nomatch hill
  · exact hostStep_ill (s := { s with resetInput := rest }) hs hcall (hhost.symm.trans h) hill

/-! ### The checksum of a record -/

/-- The checksum as an integer: the sum's two's complement modulo 256, less the bias (R154). -/
theorem checksumNat_eq (sum : Nat) (bias : Byte) :
    (checksumNat sum bias.toNat : Int) = ((-(sum : Int)) % 256 - bias.toNat) % 256 := by
  have hb := bias.isLt
  unfold checksumNat; omega

theorem checksumNat_lt (sum bias : Nat) : checksumNat sum bias < 256 := Nat.mod_lt _ (by decide)

/-- Settles O38: the run of CKREC and its result as a number are `runCommands_ckrec`'s. -/
theorem ckrecLeavesTheRecordChecksum : Obligations.CkrecLeavesTheRecordChecksum := by
  intro s len half type payload bias
  obtain ⟨t, hrun, hres, -, hok, hsame⟩ := runCommands_ckrec len half type payload bias s
  refine ⟨t, hrun, ?_, hok, hsame.wacc, hsame.wcnt, hsame.wstop, hsame.errs, hsame.ill⟩
  have hlt := checksumNat_lt (len.toNat + half.toNat % 256 + half.toNat / 256 + type.toNat + byteSum payload) bias.toNat
  rw [hres, BitVec.toNat_ofNat, Nat.mod_eq_of_lt (by omega), checksumNat_eq]

/-! ### The address field -/

/-- Settles O40: WSCAN leaves the digits of the field and those over-read in the window, and UNPACK shifts the latter
out. -/
theorem unpackRecoversTheTrueAddress : Obligations.UnpackRecoversTheTrueAddress := by
  intro s c text cs rest field extra hc htext hdigits hrest hlen hfill
  obtain ⟨t, hscan, hacc, hcnt, -, hsame⟩ := runCommands_wscan htext hdigits hrest
  have h8 : (field ++ extra).length + rest.length = 8 := by
    rw [← hdigits.length_eq, ← List.length_append, ← htext]; simp
  have hfill' : t.cfg.windowFill = .zeroFill ∨ (field ++ extra).length = 8 := by
    rw [hsame.outside.cfg]
    exact hfill.imp_right fun h => by simpa [h] using h8
  obtain ⟨v, hexec, hv⟩ := unpack_value hc hdigits hacc hcnt hlen (by omega) hfill'
  refine ⟨setres v true t, ?_, hv, rfl, ?_, hsame.ill, hsame.ckacc⟩
  · rw [runCommands_append _ _ hscan, runCommands_cons hexec]; rfl
  · rw [setres_errs, hsame.errs]; simp

/-! ### Written digits -/

/-- A written digit is the upper-case digit of its value (R79, R100). -/
theorem digitValue_hexDigit (n : Nibble) : DigitValue false (hexDigit n) n.toNat := by
  rw [← hexval_some_iff]
  revert n; decide

/-- `HEX2` is the digits of the byte's two nibbles, the high one first (R230). -/
theorem hex2_digits (v : Byte) : List.Forall₂ (DigitValue false) (hex2 v) [v.toNat / 16, v.toNat % 16] := by
  have hv := v.isLt
  have hhi := digitValue_hexDigit (v.extractLsb' 4 4)
  have hlo := digitValue_hexDigit (v.extractLsb' 0 4)
  rw [toNat_extract, show v.toNat / 2 ^ 4 % 2 ^ 4 = v.toNat / 16 by omega] at hhi
  rw [toNat_extract, show v.toNat / 2 ^ 0 % 2 ^ 4 = v.toNat % 16 by omega] at hlo
  exact .cons hhi (.cons hlo .nil)

/-- `HEX4` is the digits of the half-word's two bytes, the high one first (R230). -/
theorem hex4_digits (v : Half) : List.Forall₂ (DigitValue false) (hex4 v)
    [v.toNat / 4096, v.toNat / 256 % 16, v.toNat / 16 % 16, v.toNat % 16] := by
  have hv := v.isLt
  have hhi := hex2_digits (v.extractLsb' 8 8)
  have hlo := hex2_digits (v.extractLsb' 0 8)
  rw [toNat_extract, show v.toNat / 2 ^ 8 % 2 ^ 8 / 16 = v.toNat / 4096 by omega,
    show v.toNat / 2 ^ 8 % 2 ^ 8 % 16 = v.toNat / 256 % 16 by omega] at hhi
  rw [toNat_extract, show v.toNat / 2 ^ 0 % 2 ^ 8 / 16 = v.toNat / 16 % 16 by omega,
    show v.toNat / 2 ^ 0 % 2 ^ 8 % 16 = v.toNat % 16 by omega] at hlo
  exact List.rel_append hhi hlo

/-- Settles O58: the digits of a byte and of a half-word, and `text2_eq` and `text4_eq`, which spell them out. -/
theorem writtenDigitsAreUpperCase : Obligations.WrittenDigitsAreUpperCase := by
  refine ⟨hex2_digits, hex4_digits, fun v => ?_, fun v => ?_⟩
  · rw [text2_eq, BitVec.ofNat_toNat, BitVec.setWidth_eq]
  · rw [text4_eq, BitVec.ofNat_toNat, BitVec.setWidth_eq]

end Sys2Proof.Machine
end

section
/-! PROOFS. The obligations of the encoding family on the decoder's text (R72, R73, R81): the lines of a stream, the
records that are skipped, and a whole data record. -/

namespace Sys2Proof.Machine

/-! ### The lines of a stream -/

/-- Only the empty stream has no line (R81). -/
theorem splitLines_eq_nil {stream : List Byte} : splitLines stream = [] ↔ stream = [] := by
  cases stream with
  | nil => simp [splitLines]
  | cons c rest =>
    unfold splitLines
    split
    · simp
    · split <;> simp

/-- A line feed belongs to no line (R81). -/
theorem lineFeed_notMem_line {stream l : List Byte} (h : l ∈ splitLines stream) : lineFeed ∉ l := by
  induction stream generalizing l with
  | nil => exact nomatch h
  | cons c rest ih =>
    unfold splitLines at h
    split at h
    · obtain rfl | h := List.mem_cons.mp h
      · exact List.not_mem_nil
      · exact ih h
    · rename_i hc
      cases hrest : splitLines rest with
      | nil =>
        simp only [hrest, List.mem_singleton] at h
        subst h
        simpa using Ne.symm hc
      | cons l' ls =>
        simp only [hrest, List.mem_cons] at h
        have ih' : ∀ l ∈ l' :: ls, lineFeed ∉ l := fun l hl => ih (hrest ▸ hl)
        obtain rfl | h := h
        · exact List.not_mem_cons_of_ne_of_not_mem (Ne.symm hc) (ih' l' (by simp))
        · exact ih' l (by simp [h])

/-- The lines, each with its line feed, are the stream with a last line feed where it lacks one (R81; log 8). -/
theorem splitLines_flatMap (stream : List Byte) :
    (splitLines stream).flatMap withLineFeed =
      if stream = [] ∨ stream.getLast? = some lineFeed then stream else stream ++ [lineFeed] := by
  induction stream with
  | nil => rfl
  | cons c rest ih =>
    by_cases hrest : rest = []
    · subst hrest
      by_cases hc : c = lineFeed
      · subst hc; rfl
      · have hc' : c ≠ 0x0A#8 := hc
        simp [splitLines, withLineFeed, hc']
    have hlast : (c :: rest).getLast? = rest.getLast? := by
      rw [List.getLast?_cons, List.getLast?_eq_some_getLast hrest]; rfl
    have hcons : (splitLines (c :: rest)).flatMap withLineFeed = c :: (splitLines rest).flatMap withLineFeed := by
      rw [splitLines]
      split
      · rename_i hc
        simp [withLineFeed, hc]
      · split
        · rename_i hnil
          exact absurd (splitLines_eq_nil.mp hnil) hrest
        · rename_i l ls hl
          simp [withLineFeed, hl]
    rw [hcons, ih, hlast]
    simp only [hrest, false_or, reduceCtorEq]
    split <;> rfl

/-- The step of an idle host whose next action is a decode call. -/
theorem step_decodeCall {s : State} {stream : List Byte} {buffer : Memory} {start stop : Nat} {rest : List HostAction}
    (hh : s.host = .idle) (hr : s.resetInput = []) (hp : s.port = .decodeCall stream buffer start stop :: rest) :
    step s = startDecode stream buffer start stop { s with port := rest } := by
  rw [step_of_idle hr hh, portStep, hp]

/-- Settles O44: the two checks of the start of a call in their order, and the lines by recursion on the stream. -/
theorem decodeCallStartsOrIsRefused : Obligations.DecodeCallStartsOrIsRefused := by
  refine ⟨fun s stream buffer start stop rest hh hr hp => ?_,
    fun stream => ⟨fun l => lineFeed_notMem_line, splitLines_flatMap stream⟩⟩
  rw [step_decodeCall hh hr hp, startDecode]
  refine ⟨fun hpre hlines => ?_, fun hpre hlong => ?_, fun hpre => ?_⟩
  · have hok : linesOk (splitLines stream) = true := by simpa [linesOk] using hlines
    simp [callOk_iff.mpr hpre, hok, goDecode]
  · simp [callOk_iff.mpr hpre, linesOk_eq_false_iff.mpr hlong]
  · simp [callOk_eq_false_iff.mpr hpre]

/-! ### Records that are skipped -/

/-- The type digits of HEADER, RESERVED, TERMINATOR and OTHER are neither data nor count records (R73, R208). -/
theorem class_of_other {n : Nat} (hn : n < 16) (h : n = 0 ∨ n = 4 ∨ 6 ≤ n) :
    isDataClass (classOf (BitVec.ofNat 4 n)).number = false ∧
      isCountClass (classOf (BitVec.ofNat 4 n)).number = false := by
  revert n; decide

/-- Settles O49: the header is read up to the dispatch, which goes on to the next line. -/
theorem otherRecordsAreSkipped : Obligations.OtherRecordsAreSkipped := by
  intro s d l rest n l1 l2 a hr hh hp hl h0 h1 h2 h3 h4 hn
  obtain ⟨t, hsame, hok, hreach⟩ := reaches_dispatch hr hh hp hl h0 h1 h2 h3 h4
  obtain ⟨hdata, hcount⟩ := class_of_other (digit_lt h1) hn
  refine ⟨_, hreach _ (dispatch_other hok hdata hcount), hsame.result, hsame.port, hsame.errs, hsame.ill, ?_⟩
  rw [← hp]

/-! ### A whole data record -/

/-- Eight characters that are all digits fill the window (R123). -/
theorem window_full {lower : Bool} {text cs more : List Byte} {ds : List Nat}
    (hsplit : ((List.range 8).map fun k => charAt text k) = cs ++ more)
    (hdigits : List.Forall₂ (DigitValue lower) cs ds)
    (hall : ∀ k < 8, ∃ n, DigitValue lower (text.getD k 0x0A) n)
    (hmore : more = [] ∨ ∃ c r, more = c :: r ∧ NotDigit lower c) : ds.length = 8 := by
  obtain rfl | ⟨c, r, rfl, hc⟩ := hmore
  · rw [← hdigits.length_eq, ← List.append_nil cs, ← hsplit]; simp
  · obtain ⟨k, hk, rfl⟩ := List.mem_map.mp (show c ∈ (List.range 8).map fun k => charAt text k by simp [hsplit])
    obtain ⟨n, hn⟩ := hall k (List.mem_range.mp hk)
    exact absurd hn (hc n)

/-- What stands after a record's header and address field begins with its payload (R212). -/
theorem drop_payloadAt {c : WidthCode} {head addr : List Byte} (hhead : head.length = 4)
    (haddr : addr.length = 2 * (c.toNat + 1)) (text : List Byte) :
    (head ++ (addr ++ text)).drop (payloadAt c 0) = text := by
  rw [← List.append_assoc]
  exact List.drop_left' (by rw [List.length_append, hhead, haddr]; rfl)

/-- Settles O53: the record is read to its payload with the field's value as its address; the payload, where there is
one, is written byte by byte. -/
theorem dataRecordFillsTheBuffer : Obligations.DataRecordFillsTheBuffer := by
  intro s d c t1 n1 n2 l1 l2 addr field pairs payload tail rest hr hh hp hok hl hc ht1 hn1 hn2 hlen haddr hfield hpairs
    hfill hrange
  simp only [List.append_assoc] at hl hfill ⊢
  have hcl : c.toNat < 4 := c.isLt
  obtain ⟨cs, more, extra, hsplit, hdigits, hmore⟩ :=
    window_split haddr (by have := haddr.length_eq; omega) (pairs.flatMap (fun q => [q.1, q.2]) ++ tail)
  have hfill' : s.cfg.windowFill = .zeroFill ∨ (field ++ extra).length = 8 :=
    hfill.imp_right fun hall => window_full hsplit hdigits hall hmore
  have htext : ((List.range 8).map fun k => charAt ([0x53, t1, n1, n2] ++
      (addr ++ (pairs.flatMap (fun q => [q.1, q.2]) ++ tail))) (4 + k)) = cs ++ more := by
    rw [← hsplit]
    exact List.map_congr_left fun k _ => charAt_append [0x53, t1, n1, n2] _ k
  obtain ⟨a, hfirst⟩ : ∃ a, DigitValue s.cfg.hexLower
      (charAt ([0x53, t1, n1, n2] ++ (addr ++ (pairs.flatMap (fun q => [q.1, q.2]) ++ tail))) 4) a := by
    cases haddr with
    | nil => exact absurd hfield (by simp)
    | cons hx _ => exact ⟨_, hx⟩
  obtain ⟨t, r, hreach, hsame, hrc, hhost⟩ := reaches_payload (n := payload.length) hr hh hp hl hc rfl ht1 hn1 hn2
    hfirst hlen htext hdigits hmore hfield hfill'
  obtain ⟨hcall, -⟩ := hok
  obtain ⟨-, -, hsize, hwf⟩ := callOk_iff.mp hcall
  obtain rfl | hne := eq_or_ne payload []
  · rw [List.length_nil, if_pos rfl] at hhost
    refine ⟨t, d.buffer, hreach, ?_, hwf, rfl, nofun, fun _ _ => rfl, hsame.cfg, hsame.port, hsame.resetInput.trans hr,
      hsame.result, hsame.errs, hsame.ill, hsame.ckacc⟩
    rw [hhost, recordDone, ← hp]; rfl
  · have hpos : 0 < payload.length := List.length_pos_iff.mpr hne
    rw [if_neg (by omega)] at hhost
    obtain ⟨u, m, hreach', hsame', hhost', hwf', hsize', hread, hframe⟩ :=
      reaches_recordDone hpairs (tail := tail) (hsame.resetInput.trans hr) hhost rfl (by rw [hsame.cfg])
        (by rw [Nat.zero_add]) hne
        (by rw [hrc]; exact drop_payloadAt rfl (haddr.length_eq.trans hfield) _) (hrange hpos) hwf hsize
    have hall := hsame.trans hsame'
    refine ⟨u, m, hreach.trans hreach', ?_, hwf', hsize', hread, hframe, hall.cfg, hall.port,
      hall.resetInput.trans hr, hall.result, hall.errs, hall.ill, hall.ckacc⟩
    rw [hhost', recordDone, ← hp]

end Sys2Proof.Machine
end

section
/-! PROOFS. The obligations of the encoding family on the encoder's text (R76 to R79): a chunk with its announcement
and data record, and the whole text of a call. -/

namespace Sys2Proof.Machine

/-! ### A chunk -/

/-- The announcement condition as the rule gives it (R225). -/
theorem announces_iff {cfg : Config} {e : EncodeCall} : announces cfg e = true ↔
    e.currentBlockBase ≠ some (e.currentAddress / 65536) ∨
      (cfg.announceEveryChunkIfWide = true ∧ 65536 < e.stop - e.start) := by
  rw [announces, Bool.or_eq_true, Bool.and_eq_true, decide_eq_true_eq, decide_eq_true_eq]; rfl

/-- The summands of an announcement's checksum: `02`, `04` and the two bytes of the block index (R155, R226). -/
theorem announcementSum_summands (idx : Half) :
    (0x02 : Byte).toNat + (0x0000 : Half).toNat % 256 + (0x0000 : Half).toNat / 256 + (0x04 : Byte).toNat +
      byteSum [idx.extractLsb' 8 8, idx.extractLsb' 0 8] = 6 + idx.toNat / 256 + idx.toNat % 256 := by
  have hidx := idx.isLt
  simp only [byteSum, toNat_extract, BitVec.ofNat_eq_ofNat, BitVec.toNat_ofNat]
  omega

/-- The announcement of the cursor's block where one is due, else nothing (R225, R226). -/
def EncodeCall.announcement (e : EncodeCall) (cfg : Config) : List Byte :=
  if e.currentBlockBase ≠ some (e.currentAddress / 65536) ∨
      (cfg.announceEveryChunkIfWide = true ∧ 65536 < e.stop - e.start) then
    announcementLine e.currentAddress
  else []

/-- The length of the chunk at the cursor (R223, R224). -/
abbrev EncodeCall.chunkSize (e : EncodeCall) : Nat := chunkLength e.currentAddress e.stop

/-- The call at the start of the announcement before the chunk at the cursor (R226). -/
def EncodeCall.atAnnouncement (e : EncodeCall) : EncodeCall :=
  { e with
    phase := .checksum (.announce (blockIndex e.currentAddress) e.chunkSize)
      (announcementSum (blockIndex e.currentAddress)) }

/-- The call at the start of the data record of the chunk at the cursor, its announcement written (R226, R227). -/
def EncodeCall.atData (e : EncodeCall) (cfg : Config) : EncodeCall :=
  { e with
    out := e.out ++ e.announcement cfg
    currentBlockBase := some (e.currentAddress / 65536)
    phase := .checksum (.data (e.chunkBytes e.chunkSize))
      (dataSum cfg (lowAddress e.currentAddress) (e.chunkBytes e.chunkSize)) }

/-- The call after the chunk at the cursor (R225 to R228). -/
def EncodeCall.chunkWritten (e : EncodeCall) (cfg : Config) : EncodeCall :=
  { e with
    out := e.out ++ e.announcement cfg ++ dataLine cfg e.currentAddress (e.chunkBytes e.chunkSize)
    currentAddress := e.currentAddress + e.chunkSize
    currentBlockBase := some (e.currentAddress / 65536) }

section
variable {s : State} {e : EncodeCall} (hr : s.resetInput = []) (hh : s.host = .encoding e) (hp : e.phase = .chunk)
  (he : e.Ok) (hlt : e.currentAddress < e.stop)

include hlt in
theorem chunkSize_bounds : 1 ≤ e.chunkSize ∧ e.chunkSize ≤ 32 ∧ e.currentAddress + e.chunkSize ≤ e.stop := by
  obtain ⟨hpos, hmax, hin, -⟩ := chunkLength_bounds hlt
  exact ⟨hpos, hmax, hin⟩

include he hlt in
/-- The chunk at the cursor lies in the buffer (R43, R223). -/
theorem chunk_in_buffer : e.currentAddress - e.start + e.chunkSize ≤ e.buffer.size := by
  obtain ⟨hcall, hlo, -⟩ := he
  obtain ⟨-, -, hsize, -⟩ := callOk_iff.mp hcall
  obtain ⟨-, -, hin⟩ := chunkSize_bounds hlt
  omega

include he hlt in
theorem blockIndex_of_chunk : (blockIndex e.currentAddress).toNat = e.currentAddress / 65536 := by
  obtain ⟨hcall, -⟩ := he
  obtain ⟨-, hmax, -⟩ := callOk_iff.mp hcall
  exact blockIndex_toNat (by omega)

include hr hh hp he hlt in
/-- A chunk whose announcement is due: its commands are issued, it is written, and the data record begins (R226). -/
theorem reaches_data_announced (hdue : announces s.cfg e = true) :
    ∃ t, Reaches s t ∧ SameForEncoder s t ∧ t.host = .encoding (e.atData s.cfg) := by
  have hstart : step s = .next { s with host := .encoding e.atAnnouncement } := by
    rw [step_of_encoding hr hh, encodeStep, hp]
    dsimp only
    rw [nextChunk, if_neg hlt.ne, if_pos hdue]; rfl
  obtain ⟨t, ht, hsame, hhost, hres⟩ := reaches_line (s := { s with host := .encoding e.atAnnouncement }) hr rfl rfl
  rw [announcementSum_summands, blockIndex_of_chunk he hlt] at hres
  have hwrite : step t = .next { t with host := .encoding (e.atData s.cfg) } := by
    rw [step_of_encoding (hsame.resetInput.trans hr) hhost]
    refine (writeAnnouncement_eq (chunk_in_buffer he hlt)).trans ?_
    rw [hres, hsame.cfg, blockIndex_of_chunk he hlt, EncodeCall.atData, EncodeCall.announcement,
      if_pos (announces_iff.mp hdue), announcementLine_eq]
    rfl
  exact ⟨_, .head hstart (ht.trans (.one hwrite)), ((SameForEncoder.host s _).trans hsame).trans (.host t _), rfl⟩

include hr hh hp he hlt in
/-- A chunk whose announcement is not due: the data record begins at once (R225, R227). -/
theorem step_data_not_announced (hdue : ¬announces s.cfg e = true) :
    step s = .next { s with host := .encoding (e.atData s.cfg) } := by
  have hnot := mt announces_iff.mpr hdue
  have hbase : e.currentBlockBase = some (e.currentAddress / 65536) := not_not.mp fun h => hnot (.inl h)
  rw [step_of_encoding hr hh, encodeStep, hp]
  dsimp only
  rw [nextChunk, if_neg hlt.ne, if_neg hdue, startData_eq (chunk_in_buffer he hlt), EncodeCall.atData,
    EncodeCall.announcement, if_neg hnot, List.append_nil, ← hbase]

include hr hh hp he hlt in
/-- The chunk at the cursor, from its choice to the next one (R222 to R228). -/
theorem reaches_chunkWritten :
    ∃ t, Reaches s t ∧ SameForEncoder s t ∧ t.host = .encoding (e.chunkWritten s.cfg) := by
  obtain ⟨t, ht, hsame, hhost⟩ : ∃ t, Reaches s t ∧ SameForEncoder s t ∧ t.host = .encoding (e.atData s.cfg) := by
    by_cases hdue : announces s.cfg e = true
    · exact reaches_data_announced hr hh hp he hlt hdue
    · exact ⟨_, .one (step_data_not_announced hr hh hp he hlt hdue), .host s _, rfl⟩
  obtain ⟨-, hmax, -⟩ := chunkSize_bounds hlt
  obtain ⟨u, hu, hsame', hhost'⟩ := reaches_nextChunk (payload := e.chunkBytes e.chunkSize)
    (hsame.resetInput.trans hr) hhost (by rw [hsame.cfg]; rfl) (by rw [bufferBytes_length]; omega)
  refine ⟨u, ht.trans hu, hsame.trans hsame', ?_⟩
  rw [hhost', hsame.cfg, bufferBytes_length, EncodeCall.chunkWritten, ← hp]; rfl

end

/-- Settles O56: the chunk's bytes are the buffer's, and its run is `reaches_chunkWritten`'s. -/
theorem chunkIsAnnouncedAndWritten : Obligations.ChunkIsAnnouncedAndWritten := by
  intro s e hr hh hp he hlt
  obtain ⟨t, ht, hsame, hhost⟩ := reaches_chunkWritten hr hh hp he hlt
  have hin := chunk_in_buffer he hlt
  have hlen : (e.chunkBytes e.chunkSize).length = e.chunkSize := bufferBytes_length _ _ _
  refine ⟨t, e.chunkBytes e.chunkSize, ht, hlen, fun k hk => ?_, ?_, hsame.cfg, hsame.port,
    hsame.resetInput.trans hr, hsame.result, hsame.errs, hsame.ill⟩
  · rw [hlen] at hk
    rw [Memory.read, if_pos (by omega)]
    simp [bufferBytes]
  · rw [hlen]; exact hhost

/-! ### A whole call -/

/-- The text of an exhausted range is the terminator (R222, R229). -/
theorem encodedFrom_stop (cfg : Config) (m : Memory) (start stop fuel : Nat) (base : Option Nat) :
    encodedFrom cfg m start stop fuel stop base = terminatorLine := by
  cases fuel with
  | zero => rfl
  | succ fuel => rw [encodedFrom, if_pos rfl]

/-- The text from a cursor on is the chunk there and the text from the next cursor on. -/
theorem encodedFrom_chunk {e : EncodeCall} (hlt : e.currentAddress < e.stop) (cfg : Config) (fuel : Nat) :
    e.out ++ encodedFrom cfg e.buffer e.start e.stop (fuel + 1) e.currentAddress e.currentBlockBase =
      (e.chunkWritten cfg).out ++ encodedFrom cfg e.buffer e.start e.stop fuel (e.chunkWritten cfg).currentAddress
        (e.chunkWritten cfg).currentBlockBase := by
  rw [encodedFrom, if_neg hlt.ne]
  simp only [EncodeCall.chunkWritten, EncodeCall.announcement, List.append_assoc]

/-- What holds of an encode call holds after its chunk (R223, R228). -/
theorem chunkWritten_ok {e : EncodeCall} (he : e.Ok) (hp : e.phase = .chunk) (hlt : e.currentAddress < e.stop)
    (cfg : Config) : (e.chunkWritten cfg).Ok := by
  obtain ⟨hcall, hlo, -, hphase⟩ := he
  obtain ⟨-, -, hin⟩ := chunkSize_bounds hlt
  exact ⟨hcall, Nat.le_add_right_of_le hlo, hin, by rw [EncodeCall.PhaseOk, EncodeCall.chunkWritten, hp]; trivial⟩

/-- At the end of the range the terminator is written and the call ends (R222, R229). -/
theorem step_writes_terminator {s : State} {e : EncodeCall} (hr : s.resetInput = []) (hh : s.host = .encoding e)
    (hp : e.phase = .chunk) (hend : e.currentAddress = e.stop) :
    step s = .next { s with host := .idle, result := some (.encoded (e.out ++ terminatorLine)) } := by
  rw [step_of_encoding hr hh, encodeStep, hp]
  dsimp only
  rw [nextChunk, if_pos hend, terminatorLine_eq]; rfl

/-- From the choice of a chunk on, a call writes the text from its cursor on and ends; a chunk holds at least one byte,
so the fuel lasts. -/
theorem reaches_encoded (fuel : Nat) : ∀ {s : State} {e : EncodeCall}, s.resetInput = [] → s.host = .encoding e →
    e.phase = .chunk → e.Ok → e.stop - e.currentAddress ≤ fuel →
      ∃ t, Reaches s t ∧ t.host = .idle ∧ t.port = s.port ∧
        t.result = some (.encoded (e.out ++
          encodedFrom s.cfg e.buffer e.start e.stop fuel e.currentAddress e.currentBlockBase)) ∧
        t.cfg = s.cfg ∧ t.resetInput = [] := by
  induction fuel with
  | zero =>
    intro s e hr hh hp he hfuel
    have ⟨_, _, hle, _⟩ := he
    have hend : e.currentAddress = e.stop := by omega
    exact ⟨_, .one (step_writes_terminator hr hh hp hend), rfl, rfl, rfl, rfl, hr⟩
  | succ fuel ih =>
    intro s e hr hh hp he hfuel
    have ⟨_, _, hle, _⟩ := he
    obtain hlt | hend := Nat.lt_or_eq_of_le hle
    · obtain ⟨hpos, -⟩ := chunkSize_bounds hlt
      obtain ⟨t, ht, hsame, hhost⟩ := reaches_chunkWritten hr hh hp he hlt
      obtain ⟨u, hu, hidle, hport, hresult, hcfg, hreset⟩ := ih (hsame.resetInput.trans hr) hhost hp
        (chunkWritten_ok he hp hlt s.cfg)
        (show e.stop - (e.currentAddress + e.chunkSize) ≤ fuel by omega)
      refine ⟨u, ht.trans hu, hidle, hport.trans hsame.port, ?_, hcfg.trans hsame.cfg, hreset⟩
      rw [hresult, hsame.cfg, encodedFrom_chunk hlt]; rfl
    · refine ⟨_, .one (step_writes_terminator hr hh hp hend), rfl, rfl, ?_, rfl, hr⟩
      rw [hend, encodedFrom_stop]

/-- One command of an encode call that the routine goes on from. -/
theorem step_encode_issue {s t : State} {e e' : EncodeCall} {i : Instr} (hr : s.resetInput = [])
    (hh : s.host = .encoding e) (he : encodeStep e s = issue i (goEncode e') s) (hw : i.wellFormed = true)
    (hi : exec i s = .next t) : step s = .next { t with host := .encoding e' } := by
  rw [step_of_encoding hr hh, he, issue_next hw hi]; rfl

/-- The commands of an encode call's start (R202, R221, R293). -/
theorem reaches_firstChunk {s : State} {e : EncodeCall} (hr : s.resetInput = []) (hh : s.host = .encoding e)
    (hp : e.phase = .callClrst) :
    ∃ t, Reaches s t ∧ t.host = .encoding { e with phase := .chunk } ∧ t.port = s.port ∧ t.cfg = s.cfg ∧
      t.resetInput = [] := by
  have hclrst : step s = .next { clearSticky s with host := .encoding { e with phase := .callWclr } } :=
    step_encode_issue (i := .clrst) hr hh (by rw [encodeStep, hp]) rfl rfl
  exact ⟨_, .head hclrst (.head (step_encode_issue (e' := { e with phase := .callCkclr }) hr rfl rfl rfl (exec_wclr _))
    (.one (step_encode_issue (e' := { e with phase := .chunk }) hr rfl rfl rfl (exec_ckclr _)))), rfl, rfl, rfl, hr⟩

/-- An encode call as it is created (R221). -/
def EncodeCall.atStart (buffer : Memory) (start stop : Nat) : EncodeCall :=
  { start := start, stop := stop, buffer := buffer, currentAddress := start, currentBlockBase := none, out := []
    phase := .callClrst }

/-- The step of an idle host whose next action is an encode call that meets its preconditions. -/
theorem step_encodeCall {s : State} {buffer : Memory} {start stop : Nat} {rest : List HostAction} (hh : s.host = .idle)
    (hr : s.resetInput = []) (hp : s.port = .encodeCall buffer start stop :: rest)
    (hok : callOk buffer start stop = true) :
    step s = .next { s with port := rest, host := .encoding (.atStart buffer start stop) } := by
  rw [step_of_idle hr hh, portStep, hp]
  dsimp only
  rw [startEncode, hok]; rfl

/-- Settles O59: the call starts, its three commands are issued, and the text is written from the start of the range
on. -/
theorem encodeWritesTheWholeText : Obligations.EncodeWritesTheWholeText := by
  intro s buffer start stop rest hh hr hp hle hmax hsize hwf
  have hok : callOk buffer start stop = true := callOk_iff.mpr ⟨hle, hmax, hsize, hwf⟩
  have hstart := step_encodeCall hh hr hp hok
  obtain ⟨t, ht, hhost, hport, hcfg, hreset⟩ := reaches_firstChunk
    (s := { s with port := rest, host := .encoding (.atStart buffer start stop) }) hr rfl rfl
  obtain ⟨u, hu, hidle, hport', hresult, hcfg', hreset'⟩ :=
    reaches_encoded (stop - start) hreset hhost rfl ⟨hok, le_rfl, hle, trivial⟩ le_rfl
  refine ⟨u, .head hstart (ht.trans hu), hidle, hport'.trans hport, ?_, hcfg'.trans hcfg, hreset'⟩
  rw [hresult, hcfg]; rfl

end Sys2Proof.Machine
end

section
/-! PROOFS. The obligations on the hex decode commands (40_hex_decode.md): HEXNIB reads one digit and HEXBYTE a pair of
them. -/

namespace Sys2Proof.Machine

/-! ### A result with `ERRS` -/

/-- A result that succeeds leaves `ERRS` as it was (R27). -/
theorem setres_true (v : Word) (s : State) : setres v true s = { s with res := v, ok := true } := by
  simp [setres]

/-- A result that fails sets `ERRS` (R27). -/
theorem setres_false (v : Word) (s : State) : setres v false s = { s with res := v, ok := false, errs := true } := by
  simp [setres]

/-! ### HEXNIB -/

/-- Settles O12: the word and its illegal neighbours by format B, and the two outcomes of the digit's table. -/
theorem hexnibReadsOneDigit : Obligations.HexnibReadsOneDigit := by
  refine ⟨fun b => ?_, fun w s hop hz => ?_, fun s b n hn => ?_, fun s b hn => ?_⟩
  · rw [show BitVec.ofNat 32 (0x10000000 + b.toNat) = encode (.hexnib b) from ofNat_formatB 0x1 b]
    exact Laws.RoundTrip.hexnib b rfl
  · exact command_of_illegalWord (.inr (.inr (.inl ⟨by rw [hop]; decide, hz⟩))) s
  · rw [exec_hexnib_digit hn, setres_true]
  · rw [exec_hexnib_invalid hn, setres_false]

/-! ### HEXBYTE -/

/-- A word's number with the opcode of format H above two characters (R63, R66). -/
theorem ofNat_formatH (op : BitVec 4) (hi lo : Byte) :
    BitVec.ofNat 32 (op.toNat * 2 ^ 28 + 256 * hi.toNat + lo.toNat) = formatH op (hi ++ lo) := by
  have hnum : op.toNat * 2 ^ 28 + 256 * hi.toNat + lo.toNat = (formatH op (hi ++ lo)).toNat := by
    rw [formatH_toNat, toNat_append_add]; omega
  rw [hnum, BitVec.ofNat_toNat, BitVec.setWidth_eq]

/-- Settles O13: the word and its illegal neighbours by format H, and the two outcomes of the pair. -/
theorem hexbyteReadsAPairHighNibbleFirst : Obligations.HexbyteReadsAPairHighNibbleFirst := by
  refine ⟨fun hi lo => ?_, fun w s hop hz => ?_, fun s hi lo h l hh hl => ?_, fun s hi lo hn => ?_⟩
  · rw [show BitVec.ofNat 32 (0x20000000 + 256 * hi.toNat + lo.toNat) = encode (.hexbyte hi lo) from
      ofNat_formatH 0x2 hi lo]
    exact Laws.RoundTrip.hexbyte hi lo rfl
  · exact command_of_illegalWord (.inr (.inr (.inr (.inl ⟨by rw [hop]; decide, hz⟩)))) s
  · rw [exec_hexbyte_digits hh hl, setres_true]
  · rw [exec_hexbyte_invalid hn, setres_false]

end Sys2Proof.Machine
end

section
/-! PROOFS. The obligations on the address-field unpacker's commands (41_address_unpack.md): WCLR, WPUSH, UNPACK and
PLEN, and the count record, whose field UNPACK reads (R131, R211). -/

namespace Sys2Proof.Machine

/-! ### UNPACK -/

/-- A word's number with the opcode of format W above its width code and length (R64, R66). -/
theorem ofNat_formatW (op : BitVec 4) (c : WidthCode) (len : Byte) :
    BitVec.ofNat 32 (op.toNat * 2 ^ 28 + 2 ^ 24 * c.toNat + len.toNat) = formatW op c len := by
  rw [Nat.mul_comm (2 ^ 24), ← formatW_toNat, BitVec.ofNat_toNat, BitVec.setWidth_eq]

/-- UNPACK's word is illegal for code 0 or a nonzero bit beside the opcode and the code, the length included (R67). -/
theorem illegalWord_of_unpack {w : Word} (hop : w.toNat / 2 ^ 28 = 0x5)
    (h : w.toNat / 2 ^ 24 % 4 = 0 ∨ w.toNat / 2 ^ 26 % 4 ≠ 0 ∨ w.toNat % 2 ^ 24 ≠ 0) : IllegalWord w := by
  by_cases hlength : w.toNat % 2 ^ 8 = 0
  · exact .inr (.inr (.inr (.inr (.inl ⟨by rw [hop]; decide, by omega⟩))))
  · exact .inr (.inr (.inr (.inr (.inr ⟨hop, hlength⟩))))

/-- UNPACK with a legal code gives the window's value shifted by the code, and `OK` where the field's digits are there
(R120, R121, R125). -/
theorem exec_unpack_window {s : State} {c : WidthCode} (hc : c ≠ 0)
    (hfill : s.wcnt.toNat ≤ 8 ∨ s.cfg.windowFill = .asRead) :
    exec (.unpack c) s = .next (setres (BitVec.ofNat 32 (s.windowNat / 2 ^ (8 * (3 - c.toNat))))
      (decide (2 * (c.toNat + 1) ≤ s.wcnt.toNat)) s) := by
  cases hv : fillwin s with
  | some v => rw [exec_unpack_next hc hv, shift_eq_div, fillwin_toNat hv, addressBytes]
  | none =>
    obtain ⟨hzero, hcount⟩ := fillwin_eq_none_iff.mp hv
    obtain hle | hread := hfill
    · omega
    · exact nomatch hzero.symm.trans hread

/-- Settles O16: the word and its illegal neighbours by format W, code 0 by UNPACK's guard, and a legal code by the
window function's value. -/
theorem unpackShiftsTheWindow : Obligations.UnpackShiftsTheWindow := by
  refine ⟨fun c hc => ?_, fun w s hop h => ?_, fun s => rfl, fun s c hc hfill => ?_⟩
  · rw [show BitVec.ofNat 32 (0x50000000 + 2 ^ 24 * c.toNat) = encode (.unpack c) from ofNat_formatW 0x5 c 0]
    exact Laws.RoundTrip.unpack c (legalCode_of_ne_zero hc)
  · exact command_of_illegalWord (illegalWord_of_unpack hop h) s
  · simp only [exec_unpack_window hc hfill, setres, ← decide_not, Nat.not_le]

/-! ### WCLR -/

/-- Settles O14: the word and its illegal neighbours by format N. -/
theorem wclrClearsTheWindow : Obligations.WclrClearsTheWindow := by
  refine ⟨Laws.RoundTrip.wclr rfl, fun w s hop hz => ?_, fun s => ?_⟩
  · exact command_of_illegalWord (.inr (.inl ⟨by rw [hop]; decide, hz⟩)) s
  · rw [exec_wclr, setres_true]; rfl

/-! ### WPUSH -/

/-- A digit shifted into the accumulator, modulo its width (R23, R123). -/
theorem shiftIn_digit (acc : Word) {n : Nat} (hn : n < 16) :
    acc <<< 4 ||| (BitVec.ofNat 4 n).setWidth 32 = BitVec.ofNat 32 (16 * acc.toNat + n) := by
  have hacc : acc.toNat <<< 4 % 2 ^ 32 = (acc.toNat % 2 ^ 28) <<< 4 := by simp only [Nat.shiftLeft_eq]; omega
  have hdigit : ((BitVec.ofNat 4 n).setWidth 32).toNat = n := by simp; omega
  apply BitVec.eq_of_toNat_eq
  rw [BitVec.toNat_or, BitVec.toNat_shiftLeft, hacc, hdigit, ← Nat.shiftLeft_add_eq_or_of_lt hn, Nat.shiftLeft_eq,
    BitVec.toNat_ofNat]
  omega

/-- Settles O15: the word and its illegal neighbours by format B, and the three branches of the scan. -/
theorem wpushScansGreedily : Obligations.WpushScansGreedily := by
  refine ⟨fun b => ?_, fun w s hop hz => ?_, fun s b hs => ?_, fun s b n hs hn => ?_, fun s b hs hn => ?_⟩
  · rw [show BitVec.ofNat 32 (0x40000000 + b.toNat) = encode (.wpush b) from ofNat_formatB 0x4 b]
    exact Laws.RoundTrip.wpush b rfl
  · exact command_of_illegalWord (.inr (.inr (.inl ⟨by rw [hop]; decide, hz⟩))) s
  · rw [exec_wpush_stopped hs]; rfl
  · rw [exec_wpush_digit hs hn, pushDigit, shiftIn_digit s.wacc (digit_lt hn), hs]; rfl
  · rw [exec_wpush_invalid hs hn]; rfl

/-! ### PLEN -/

/-- Settles O19: the word and its illegal neighbours by format W, code 0 by PLEN's guard, and the length on either side
of `c + 2`. -/
theorem plenGivesThePayloadLength : Obligations.PlenGivesThePayloadLength := by
  refine ⟨fun c len hc => ?_, fun w s hop h => ?_, fun s len => rfl, fun s c len hc hle => ?_,
    fun s c len hc hlt => ?_⟩
  · rw [show BitVec.ofNat 32 (0x70000000 + 2 ^ 24 * c.toNat + len.toNat) = encode (.plen c len) from
      ofNat_formatW 0x7 c len]
    exact Laws.RoundTrip.plen c len (legalCode_of_ne_zero hc)
  · exact command_of_illegalWord (.inr (.inr (.inr (.inr (.inl ⟨by rw [hop]; decide, by omega⟩))))) s
  · rw [plen_value (n := len.toNat - (c.toNat + 2)) hc (by omega), setres_true]
  · have hneg : ¬0 ≤ payloadLen c len := by unfold payloadLen; omega
    rw [exec_plen_next hc, payloadLen_negative hlt, decide_eq_false hneg, setres_false]

/-! ### A count record's field -/

/-- UNPACK of a window with fewer digits than the field gives a result with `OK = 0` (R125, R126). -/
theorem exec_unpack_short {t : State} {c : WidthCode} (hc : c ≠ 0) (h : t.wcnt.toNat < 2 * (c.toNat + 1)) :
    ∃ v, exec (.unpack c) t = .next (setres v false t) := by
  have hcl : c.toNat < 4 := c.isLt
  have hexec := exec_unpack_window hc (s := t) (.inl (by omega))
  rw [decide_eq_false (Nat.not_le.mpr h)] at hexec
  exact ⟨_, hexec⟩

/-- After an UNPACK that failed (R209, R211). -/
theorem afterUnpack_failed {d : DecodeCall} {r : RecordHead} {t : State} (hok : t.ok = false) :
    afterUnpack d r t =
      .next { t with host := .idle, result := some (.failed (.malformedRecord d.scan.lineNumber none)) } := by
  unfold afterUnpack; rw [if_pos (by simp [hok])]; rfl

/-- The digits a text begins with end before a character that is none. -/
theorem digits_length_le {lower : Bool} {cs more : List Byte} {ds : List Nat} {k : Nat}
    (hdigits : List.Forall₂ (DigitValue lower) cs ds) (hk : NotDigit lower (charAt (cs ++ more) k)) :
    ds.length ≤ k := by
  by_contra hlt
  have hkds : k < ds.length := Nat.not_le.mp hlt
  have hkcs : k < cs.length := hdigits.length_eq ▸ hkds
  rw [charAt, List.getD_append _ _ _ _ hkcs, List.getD_eq_getElem _ _ hkcs] at hk
  exact hk _ (hdigits.get hkcs hkds)

/-- The window's characters are a line's from its address field on (R209). -/
theorem charAt_window (l : List Byte) {k : Nat} (hk : k < 8) :
    charAt ((List.range 8).map fun j => charAt l (4 + j)) k = charAt l (4 + k) := by
  rw [charAt, List.getD_eq_getElem _ _ (by simpa using hk), List.getElem_map, List.getElem_range]

theorem SameForCaller.withHost {s t : State} (h : SameForCaller s t) (g : HostCall) :
    SameForCaller s { t with host := g } :=
  h.trans ⟨rfl, rfl, rfl, rfl, rfl, rfl, rfl⟩

/-- The type digit 5 is the count record's (R73, R208). -/
theorem class_of_count : isDataClass (classOf (BitVec.ofNat 4 5)).number = false ∧
    isCountClass (classOf (BitVec.ofNat 4 5)).number = true := by decide

/-- The line the decode call takes next is a count record whose first five characters pass the header's checks, with
`L = 16 * l1 + l2` (R72, R206, R207). -/
structure AtCountRecord (s : State) (d : DecodeCall) (l : List Byte) (rest : List (List Byte)) (l1 l2 a0 : Nat) :
    Prop where
  noReset : s.resetInput = []
  host : s.host = .decoding d
  phase : d.phase = .nextLine
  lines : d.lines = l :: rest
  start : l.head? = some 0x53
  type : charAt l 1 = 0x35
  highLength : DigitValue s.cfg.hexLower (charAt l 2) l1
  lowLength : DigitValue s.cfg.hexLower (charAt l 3) l2
  firstDigit : DigitValue s.cfg.hexLower (charAt l 4) a0

section CountRecord

variable {s : State} {d : DecodeCall} {l : List Byte} {rest : List (List Byte)} {l1 l2 a0 : Nat}

/-- A count record is dispatched by its length field: 3 opens its window, any other value fails the call (R211). -/
theorem AtCountRecord.reaches_dispatched (h : AtCountRecord s d l rest l1 l2 a0) :
    ∃ t, SameForCaller s t ∧
      Reaches s (if 16 * l1 + l2 = 3 then
          { t with host := .decoding (d.lineTaken l rest (.window (headOf 5 l1 l2) (wscan (windowText l)))) }
        else
          { t with host := .idle, result := some (.failed (.malformedCountRecord (d.scan.lineNumber + 1))) }) := by
  have htype : DigitValue s.cfg.hexLower (charAt l 1) 5 := by rw [h.type]; exact .inl ⟨by decide, rfl⟩
  have hlen : (headOf 5 l1 l2).len = 3 ↔ 16 * l1 + l2 = 3 := by
    have hhigh := digit_lt h.highLength
    have hlow := digit_lt h.lowLength
    rw [← BitVec.toNat_inj, BitVec.toNat_ofNat, show (3 : Byte).toNat = 3 from rfl]
    omega
  obtain ⟨t, hsame, hok, hreach⟩ := reaches_dispatch h.noReset h.host h.phase h.lines h.start htype h.highLength
    h.lowLength h.firstDigit
  obtain ⟨hdata, hcount⟩ := class_of_count
  refine ⟨t, hsame, hreach _ ?_⟩
  rw [dispatch_count hok hdata hcount, if_congr hlen rfl rfl, apply_ite Host.Outcome.next]

/-- A count record of length 3 is read to its UNPACK, with the digits its window begins with scanned (R211). -/
theorem AtCountRecord.reaches_scanned (h : AtCountRecord s d l rest l1 l2 a0) (hlen : 16 * l1 + l2 = 3)
    {cs more : List Byte} {ds : List Nat} (htext : ((List.range 8).map fun k => charAt l (4 + k)) = cs ++ more)
    (hdigits : List.Forall₂ (DigitValue s.cfg.hexLower) cs ds)
    (hmore : more = [] ∨ ∃ c r, more = c :: r ∧ NotDigit s.cfg.hexLower c) :
    ∃ t, Reaches s t ∧ SameForCaller s t ∧ t.host = .decoding (d.lineTaken l rest (.window (headOf 5 l1 l2) [])) ∧
      t.wacc.toNat = hexValue ds ∧ t.wcnt.toNat = ds.length := by
  obtain ⟨t, hsame, hreach⟩ := h.reaches_dispatched
  rw [if_pos hlen] at hreach
  rw [← hsame.cfg] at hdigits hmore
  obtain ⟨u, hscan, hsame', hhost, hacc, hcnt, -⟩ := reaches_unpack
    (d := d.lineTaken l rest (.window (headOf 5 l1 l2) (wscan (windowText l)))) (s := { t with host := .decoding _ })
    (hsame.resetInput.trans h.noReset) rfl rfl htext hdigits hmore
  exact ⟨u, hreach.trans hscan, (hsame.withHost _).trans hsame', hhost, hacc, hcnt⟩

/-- A count record of length 3 with fewer than four address digits fails the call (R211). -/
theorem AtCountRecord.reaches_failed (h : AtCountRecord s d l rest l1 l2 a0) (hlen : 16 * l1 + l2 = 3) {k : Nat}
    (hk : k < 4) (hnot : NotDigit s.cfg.hexLower (charAt l (4 + k))) :
    ∃ t, Reaches s t ∧ t.host = .idle ∧
      t.result = some (.failed (.malformedRecord (d.scan.lineNumber + 1) none)) := by
  obtain ⟨cs, more, ds, htext, hdigits, hmore⟩ :=
    split_digits s.cfg.hexLower ((List.range 8).map fun j => charAt l (4 + j))
  obtain ⟨t, hreach, hsame, hhost, -, hcnt⟩ := h.reaches_scanned hlen htext hdigits hmore
  have hfew : ds.length ≤ k :=
    digits_length_le (more := more) hdigits (by rwa [← htext, charAt_window l (by omega)])
  obtain ⟨v, hexec⟩ := exec_unpack_short (t := t) (c := 1) (by decide)
    (by rw [hcnt, show (1 : WidthCode).toNat = 1 from rfl]; omega)
  have hstep := step_issue (hsame.resetInput.trans h.noReset) hhost rfl rfl hexec (afterUnpack_failed rfl)
  exact ⟨_, hreach.trans (.one hstep), rfl, rfl⟩

/-- A count record of length 3 with four address digits sets the expected count to their value (R131, R211). -/
theorem AtCountRecord.reaches_counted (h : AtCountRecord s d l rest l1 l2 a0) (hlen : 16 * l1 + l2 = 3)
    {a1 a2 a3 : Nat}
    (hfill : s.cfg.windowFill = .zeroFill ∨ ∀ k, 8 ≤ k → k ≤ 11 → ∃ n, DigitValue s.cfg.hexLower (charAt l k) n)
    (h5 : DigitValue s.cfg.hexLower (charAt l 5) a1) (h6 : DigitValue s.cfg.hexLower (charAt l 6) a2)
    (h7 : DigitValue s.cfg.hexLower (charAt l 7) a3) :
    ∃ t, Reaches s t ∧ SameForCaller s t ∧
      t.host = .decoding { d.lineTaken l rest .nextLine with
        scan := { d.scan with
          lineNumber := d.scan.lineNumber + 1, expectedDataRecords := some (hexValue [a0, a1, a2, a3]) } } := by
  have hfield : List.Forall₂ (DigitValue s.cfg.hexLower) [charAt l 4, charAt l 5, charAt l 6, charAt l 7]
      [a0, a1, a2, a3] := .cons h.firstDigit (.cons h5 (.cons h6 (.cons h7 .nil)))
  obtain ⟨cs, more, extra, htext, hdigits, hmore⟩ :=
    split_after hfield [charAt l 8, charAt l 9, charAt l 10, charAt l 11]
  have hfull : s.cfg.windowFill = .zeroFill ∨ ([a0, a1, a2, a3] ++ extra).length = 8 := by
    refine hfill.imp_right fun hall => window_full (text := l.drop 4) ?_ hdigits (fun k hk => ?_) hmore
    · exact (List.map_congr_left fun k _ => (charAt_drop rfl k).symm).trans htext
    · rw [← charAt_drop (l := l) rfl k]
      by_cases hover : 4 ≤ k
      · exact hall (4 + k) (by omega) (by omega)
      · interval_cases k
        · exact ⟨a0, h.firstDigit⟩
        · exact ⟨a1, h5⟩
        · exact ⟨a2, h6⟩
        · exact ⟨a3, h7⟩
  obtain ⟨t, hreach, hsame, hhost, hacc, hcnt⟩ := h.reaches_scanned hlen htext hdigits hmore
  have hcount : ([a0, a1, a2, a3] ++ extra).length ≤ 8 := by
    have hoffered : 8 = cs.length + more.length := by simpa using congrArg List.length htext
    rw [← hdigits.length_eq]
    omega
  obtain ⟨v, hexec, hv⟩ := unpack_value (c := 1) (by decide) hdigits hacc hcnt rfl hcount
    (by rw [hsame.cfg]; exact hfull)
  have hstep := step_issue (hsame.resetInput.trans h.noReset) hhost rfl rfl hexec
    (afterUnpack_count rfl class_of_count.2)
  refine ⟨_, hreach.trans (.one hstep), hsame.trans (setres_sameForCaller v t _), ?_⟩
  rw [setres_res, hv]

end CountRecord

/-- Settles O50: the record is dispatched by its length field, and its UNPACK answers by the digits of its window. -/
theorem countRecordSetsTheExpectedCount : Obligations.CountRecordSetsTheExpectedCount := by
  intro s d l rest l1 l2 a0 hr hh hp hl h0 h1 h2 h3 h4
  have hrecord : AtCountRecord s d l rest l1 l2 a0 := ⟨hr, hh, hp, hl, h0, h1, h2, h3, h4⟩
  refine ⟨fun hlen => ?_, fun hlen ⟨k, hk5, hk7, hnot⟩ => ?_, fun a1 a2 a3 hlen hfill h5 h6 h7 => ?_⟩
  · obtain ⟨t, -, hreach⟩ := hrecord.reaches_dispatched
    rw [if_neg hlen] at hreach
    exact ⟨_, hreach, rfl, rfl⟩
  · obtain ⟨j, rfl⟩ := Nat.exists_eq_add_of_le (show 4 ≤ k by omega)
    exact hrecord.reaches_failed hlen (by omega) hnot
  · obtain ⟨t, hreach, hsame, hhost⟩ := hrecord.reaches_counted hlen hfill h5 h6 h7
    refine ⟨t, hreach, hsame.result, hsame.errs, hsame.ill, ?_⟩
    rw [hhost, ← hp]

end Sys2Proof.Machine
end

section
/-! PROOFS. The obligations on the checksum (42_checksum.md): the sums a record's checksum completes (R155 to R158), and
the accumulator's commands CKCLR, CKADD, CKADD16 and CKFIN (R150 to R153). -/

namespace Sys2Proof.Machine

/-! ### The sums a checksum completes -/

/-- A checksum completes its summands and its bias to a multiple of 256 (R154). -/
theorem add_checksumNat_mod (sum bias : Nat) : (sum + bias + checksumNat sum bias) % 256 = 0 := by
  unfold checksumNat; omega

/-- The result of CKREC completes all its summands and its bias to a multiple of 256 (R70, R154). -/
theorem ckrec_completes_sum {len : Byte} {half : Half} {type : Byte} {payload : List Byte} {bias : Byte} {s t : State}
    (h : runCommands (ckrec len half type payload bias) s = .next t) :
    (len.toNat + half.toNat % 256 + half.toNat / 256 + type.toNat + byteSum payload + bias.toNat + t.res.toNat) % 256 =
      0 := by
  obtain ⟨u, hrun, hres, -, -, -⟩ := runCommands_ckrec len half type payload bias s
  obtain rfl := Host.Outcome.next.inj (hrun.symm.trans h)
  have hlt (sum : Nat) : checksumNat sum bias.toNat < 2 ^ 32 := (checksumNat_lt _ _).trans (by decide)
  rw [hres, BitVec.toNat_ofNat, Nat.mod_eq_of_lt (hlt _), add_checksumNat_mod]

/-- Settles O41: the payload's length, the address, the type, the payload, the bias 4 and the checksum sum to 0; on the
wire the length field adds 3 and the type is not counted, so the sum is 3 - 4 less the type. -/
theorem dataRecordChecksumMeetsTheStandardCheck : Obligations.DataRecordChecksumMeetsTheStandardCheck := by
  intro s t a16 type payload hlen hrun
  have hsum := ckrec_completes_sum hrun
  rw [BitVec.toNat_ofNat, Nat.mod_eq_of_lt hlen, show (4 : Byte).toNat = 4 from rfl] at hsum
  refine ⟨?_, ?_⟩
  · rintro rfl
    rw [show (0 : Byte).toNat = 0 from rfl] at hsum
    omega
  · rintro rfl
    rw [show (1 : Byte).toNat = 1 from rfl] at hsum
    omega

/-- Settles O42: the summands and the checksum sum to 0, and the type summand 4 is not on the wire, so the sum is -4. -/
theorem announcementChecksumSumsToFC : Obligations.AnnouncementChecksumSumsToFC := by
  intro s t hi lo hrun
  have hsum := ckrec_completes_sum hrun
  simp only [byteSum, BitVec.ofNat_eq_ofNat, BitVec.toNat_ofNat] at hsum
  omega

/-! ### The accumulator's commands -/

/-- What a command that writes a sum does, by the sum's number (R150 to R152). -/
theorem writeSum_of_toNat {v : Byte} {n : Nat} (h : v.toNat = n) (s : State) :
    writeSum v s = { s with ckacc := BitVec.ofNat 8 n, res := BitVec.ofNat 32 n, ok := true } := by
  subst h
  rw [writeSum, setres_true, BitVec.ofNat_toNat, BitVec.ofNat_toNat, BitVec.setWidth_eq]; rfl

/-- A sum written over another leaves the later one. -/
theorem writeSum_writeSum (v w : Byte) (s : State) : writeSum w (writeSum v s) = writeSum w s := by
  simp only [writeSum, setres_true, setCkacc]

/-- Settles O20: the word and its illegal neighbours by format N. -/
theorem ckclrClearsTheSum : Obligations.CkclrClearsTheSum := by
  refine ⟨Laws.RoundTrip.ckclr rfl, fun w s hop hz => ?_, fun s => ?_⟩
  · exact command_of_illegalWord (.inr (.inl ⟨by rw [hop]; decide, hz⟩)) s
  · rw [exec_ckclr, writeSum_of_toNat rfl]; rfl

/-- Settles O21: the word and its illegal neighbours by format B, and the sum as a number. -/
theorem ckaddAddsModulo256 : Obligations.CkaddAddsModulo256 := by
  refine ⟨fun b => ?_, fun w s hop hz => ?_, fun s b => ?_⟩
  · rw [show BitVec.ofNat 32 (0x90000000 + b.toNat) = encode (.ckadd b) from ofNat_formatB 0x9 b]
    exact Laws.RoundTrip.ckadd b rfl
  · exact command_of_illegalWord (.inr (.inr (.inl ⟨by rw [hop]; decide, hz⟩))) s
  · rw [exec_ckadd, writeSum_of_toNat (BitVec.toNat_add _ _)]

/-- A word's number with the opcode of format H above a half-word (R63). -/
theorem ofNat_formatH_half (op : BitVec 4) (h : Half) :
    BitVec.ofNat 32 (op.toNat * 2 ^ 28 + h.toNat) = formatH op h := by
  rw [← formatH_toNat, BitVec.ofNat_toNat, BitVec.setWidth_eq]

/-- CKADD16's sum as a number (R152). -/
theorem add_bytes_toNat (acc : Byte) (h : Half) :
    (acc + h.extractLsb' 0 8 + h.extractLsb' 8 8).toNat = (acc.toNat + h.toNat % 256 + h.toNat / 256) % 256 := by
  simp only [BitVec.toNat_add, toNat_extract]; omega

/-- A byte of a half-word as the byte of a number (R152). -/
theorem extract_byte (h : Half) (k : Nat) : h.extractLsb' k 8 = BitVec.ofNat 8 (h.toNat / 2 ^ k) := by
  apply BitVec.eq_of_toNat_eq
  rw [toNat_extract, BitVec.toNat_ofNat]

/-- CKADD16 is CKADD of the low byte and then of the high byte (R151, R152). -/
theorem exec_ckadd16_eq_ckadds (h : Half) (s : State) : exec (.ckadd16 h) s =
    runCommands [.ckadd (h.extractLsb' 0 8), .ckadd (h.extractLsb' 8 8)] s := by
  rw [runCommands_cons (exec_ckadd _ _), runCommands_cons (exec_ckadd _ _), writeSum_writeSum]; rfl

/-- Settles O22: the word and its illegal neighbours by format H, the sum as a number, and the two additions. -/
theorem ckadd16AddsBothBytes : Obligations.Ckadd16AddsBothBytes := by
  refine ⟨fun h => ?_, fun w s hop hz => ?_, fun s h => ?_, fun s h => ?_⟩
  · rw [show BitVec.ofNat 32 (0xA0000000 + h.toNat) = encode (.ckadd16 h) from ofNat_formatH_half 0xA h]
    exact Laws.RoundTrip.ckadd16 h rfl
  · exact command_of_illegalWord (.inr (.inr (.inr (.inl ⟨by rw [hop]; decide, hz⟩)))) s
  · rw [exec_ckadd16, writeSum_of_toNat (add_bytes_toNat _ _)]
  · simp only [exec_ckadd16_eq_ckadds, extract_byte, Nat.reducePow, Nat.div_one]

/-- CKFIN's result as a word: at 8 bits neither operand loses a bit (R153). -/
theorem ckFinal_eq_ofNat (acc bias : Byte) :
    (~~~acc + 1 - bias).setWidth 32 = BitVec.ofNat 32 ((512 - acc.toNat - bias.toNat) % 256) := by
  rw [← BitVec.ofNat_toNat, ckFinal_toNat, checksumNat, Nat.mod_eq_of_lt acc.isLt, Nat.mod_eq_of_lt bias.isLt]

/-- Settles O23: the word and its illegal neighbours by format B, and the result as a number. -/
theorem ckfinFinalisesTheSum : Obligations.CkfinFinalisesTheSum := by
  refine ⟨fun b => ?_, fun w s hop hz => ?_, fun s b => ?_⟩
  · rw [show BitVec.ofNat 32 (0xB0000000 + b.toNat) = encode (.ckfin b) from ofNat_formatB 0xB b]
    exact Laws.RoundTrip.ckfin b rfl
  · exact command_of_illegalWord (.inr (.inr (.inl ⟨by rw [hop]; decide, hz⟩))) s
  · rw [exec_ckfin, setres_true, ckFinal_eq_ofNat]

end Sys2Proof.Machine
end

section
/-! PROOFS. The obligations on the control commands and the reserved opcodes (43_control.md): NOP, CLRST, the opcodes
0xD, 0xE and 0xF, and the idle port. -/

namespace Sys2Proof.Machine

/-! ### NOP -/

theorem exec_nop (s : State) : exec .nop s = .next s := rfl

/-- Settles O24: the word and its illegal neighbours by format N. -/
theorem nopChangesNothing : Obligations.NopChangesNothing := by
  refine ⟨Laws.RoundTrip.nop rfl, fun w s hop hz => ?_, exec_nop⟩
  exact command_of_illegalWord (.inr (.inl ⟨by rw [hop]; decide, hz⟩)) s

/-! ### CLRST -/

theorem exec_clrst (s : State) : exec .clrst s = .next (clearSticky s) := rfl

/-- Settles O25: the word and its illegal neighbours by format N. -/
theorem clrstClearsTheStickyFlags : Obligations.ClrstClearsTheStickyFlags := by
  refine ⟨Laws.RoundTrip.clrst rfl, fun w s hop hz => ?_, exec_clrst⟩
  exact command_of_illegalWord (.inr (.inl ⟨by rw [hop]; decide, hz⟩)) s

/-! ### The reserved opcodes -/

/-- An opcode of 0xD or more makes a word illegal, whatever stands below it (R67, R172). -/
theorem illegalWord_of_reservedOpcode {op : Nat} (hlow : 0xD ≤ op) (hhigh : op ≤ 0xF) (x : BitVec 28) :
    IllegalWord (BitVec.ofNat 32 (op * 2 ^ 28 + x.toNat)) := by
  have hx := x.isLt
  refine .inl ?_
  rw [BitVec.toNat_ofNat]; omega

/-- Settles O26: each instruction is a reserved one, and each word is illegal by its opcode. -/
theorem reservedOpcodesOnlySetIll : Obligations.ReservedOpcodesOnlySetIll := by
  refine fun s x => ⟨exec_reserved rfl s, exec_reserved rfl s, exec_reserved rfl s, ?_, ?_, ?_⟩
  · exact command_of_illegalWord (illegalWord_of_reservedOpcode (op := 0xD) (by decide) (by decide) x) s
  · exact command_of_illegalWord (illegalWord_of_reservedOpcode (op := 0xE) (by decide) (by decide) x) s
  · exact command_of_illegalWord (illegalWord_of_reservedOpcode (op := 0xF) (by decide) (by decide) x) s

/-! ### The idle port -/

/-- An empty port drives the idle word, which is NOP (R170; log 3). -/
theorem portStep_of_empty {s : State} (h : s.port = []) : portStep s = .next s := by
  have hidle : decode idleWord = .ok .nop := Laws.RoundTrip.nop rfl
  rw [portStep, h, command_of_decode_ok hidle, exec_nop]

/-- Settles O11: such a step is the port's step, which performs the idle word. -/
theorem idlePortChangesNothing : Obligations.IdlePortChangesNothing := by
  intro s hidle hport hreset
  rw [step_of_idle hreset hidle, portStep_of_empty hport]

end Sys2Proof.Machine
end

section
/-! PROOFS. The obligations of the host sequencing family on the decoder (48_host_sequencing.md R202 to R218): the
commands a call starts with, the lines it skips, the end of the stream, and each way a record fails its call. -/

namespace Sys2Proof.Machine

/-! ### The start of a call -/

theorem runSteps_three {s t u v : State} (ht : step s = .next t) (hu : step t = .next u) (hv : step u = .next v) :
    runSteps 3 s = .next v := by
  simp only [runSteps, ht, hu, hv]

/-- One command of a decode call that the routine goes on from. -/
theorem step_decode_issue {s t : State} {d d' : DecodeCall} {i : Instr} (hr : s.resetInput = [])
    (hh : s.host = .decoding d) (hd : decodeStep d s = issue i (goDecode d') s) (hw : i.wellFormed = true)
    (hi : exec i s = .next t) : step s = .next { t with host := .decoding d' } :=
  step_issue hr hh hd hw hi rfl

/-- Settles O45: one step for each of the commands, CLRST, WCLR and CKCLR. -/
theorem callsClearTheBlockFirst : Obligations.CallsClearTheBlockFirst := by
  refine ⟨fun s d hr hh hp => ?_, fun s e hr hh hp => ?_⟩
  · have hclrst := step_decode_issue (d' := { d with phase := .callWclr }) hr hh (by rw [decodeStep, hp]) rfl
      (exec_clrst s)
    have hwclr := step_decode_issue (d := { d with phase := .callWclr }) (d' := { d with phase := .callCkclr })
      (s := { clearSticky s with host := .decoding { d with phase := .callWclr } }) hr rfl rfl rfl (exec_wclr _)
    have hckclr := step_decode_issue (d := { d with phase := .callCkclr }) (d' := { d with phase := .nextLine })
      (s := { setres 0 true (setWindow 0 0 false (clearSticky s)) with
        host := .decoding { d with phase := .callCkclr } }) hr rfl rfl rfl (exec_ckclr _)
    exact runSteps_three hclrst hwclr hckclr
  · have hclrst := step_encode_issue (e' := { e with phase := .callWclr }) hr hh (by rw [encodeStep, hp]) rfl
      (exec_clrst s)
    have hwclr := step_encode_issue (e := { e with phase := .callWclr }) (e' := { e with phase := .callCkclr })
      (s := { clearSticky s with host := .encoding { e with phase := .callWclr } }) hr rfl rfl rfl (exec_wclr _)
    have hckclr := step_encode_issue (e := { e with phase := .callCkclr }) (e' := { e with phase := .chunk })
      (s := { setres 0 true (setWindow 0 0 false (clearSticky s)) with
        host := .encoding { e with phase := .callCkclr } }) hr rfl rfl rfl (exec_ckclr _)
    exact runSteps_three hclrst hwclr hckclr

/-! ### Lines that are no record, and the end of the stream -/

/-- The step of a decode call between two lines (R203). -/
theorem step_nextLine {s : State} {d : DecodeCall} (hr : s.resetInput = []) (hh : s.host = .decoding d)
    (hp : d.phase = .nextLine) : step s = nextLine d s := by
  rw [step_of_decoding hr hh, decodeStep, hp]

/-- Settles O46: the line is taken and counted, and the call stays between two lines. -/
theorem noiseLineOnlyCounts : Obligations.NoiseLineOnlyCounts := by
  intro s d l rest hr hh hp hl hnoise
  rw [step_nextLine hr hh hp, nextLine, hl]
  dsimp only
  rw [if_neg hnoise, ← hp]; rfl

/-- A count that disagrees with the data records seen fails the call (R217). -/
theorem endOfStream_mismatch {d : DecodeCall} {n : Nat} (hn : d.scan.expectedDataRecords = some n)
    (hne : n ≠ d.scan.dataRecordsSeen) (s : State) :
    endOfStream d s = failCall (.recordCountMismatch n d.scan.dataRecordsSeen) s := by
  rw [endOfStream, hn]
  exact if_neg hne

/-- Without a count that disagrees the call gives its result (R217). -/
theorem endOfStream_result {d : DecodeCall}
    (h : ∀ n, d.scan.expectedDataRecords = some n → n = d.scan.dataRecordsSeen) (s : State) :
    endOfStream d s = finishCall (.decoded (d.scan.highestAddressWritten - d.start) d.buffer) s := by
  unfold endOfStream
  split
  · rfl
  · rename_i n hn
    exact if_pos (h n hn)

/-- Settles O47: with no line left the step is the end of the stream, which compares the counts. -/
theorem endOfStreamGivesTheResult : Obligations.EndOfStreamGivesTheResult := by
  intro s d hr hh hp hl
  have hstep : step s = endOfStream d s := by rw [step_nextLine hr hh hp, nextLine, hl]
  refine ⟨fun n hn hne => ?_, fun hsame => ?_⟩
  · rw [hstep, endOfStream_mismatch hn hne]; rfl
  · rw [hstep, endOfStream_result hsame]; rfl

/-! ### Records that fail their call -/

/-- The state in which a call failed with MalformedRecord (R218, R265). -/
abbrev State.malformedAt (t : State) (line : Nat) (offset : Option Nat) : State :=
  { t with host := .idle, result := some (.failed (.malformedRecord line offset)) }

theorem afterClassify_failed {d : DecodeCall} {t : State} (hok : t.ok = false) :
    afterClassify d t = .next (t.malformedAt d.scan.lineNumber none) := by
  rw [afterClassify, if_neg (by simp [hok])]; rfl

theorem afterLength_failed {d : DecodeCall} {cls : BitVec 4} {c : WidthCode} {t : State} (hok : t.ok = false) :
    afterLength d cls c t = .next (t.malformedAt d.scan.lineNumber none) := by
  rw [afterLength, if_neg (by simp [hok])]; rfl

theorem dispatch_failed {d : DecodeCall} {r : RecordHead} {t : State} (hok : t.ok = false) :
    dispatch d r t = .next (t.malformedAt d.scan.lineNumber none) := by
  rw [dispatch, if_pos (by simp [hok])]; rfl

theorem afterPayloadLength_failed {d : DecodeCall} {r : RecordHead} {address : Nat} {t : State} (hok : t.ok = false) :
    afterPayloadLength d r address t = .next (t.malformedAt d.scan.lineNumber none) := by
  rw [afterPayloadLength, if_pos (by simp [hok])]; rfl

section
variable {s : State} {d : DecodeCall} (hr : s.resetInput = []) (hh : s.host = .decoding d)
include hr hh

/-- A type character that is no digit (R206). -/
theorem step_bad_type (hp : d.phase = .classify) (hbad : NotDigit s.cfg.hexLower (charAt d.line 1)) :
    step s = .next ((setres 7 false s).malformedAt d.scan.lineNumber none) :=
  step_issue hr hh (by rw [decodeStep, hp]) rfl (exec_classify_invalid hbad) (afterClassify_failed rfl)

/-- A length field that is no pair of digits (R206). -/
theorem step_bad_length {cls : BitVec 4} {c : WidthCode} (hp : d.phase = .length cls c)
    (hbad : NotDigit s.cfg.hexLower (charAt d.line 2) ∨ NotDigit s.cfg.hexLower (charAt d.line 3)) :
    step s = .next ((setres 0 false s).malformedAt d.scan.lineNumber none) :=
  step_issue hr hh (by rw [decodeStep, hp]) rfl (exec_hexbyte_invalid hbad) (afterLength_failed rfl)

/-- A first address character that is no digit (R206). -/
theorem step_bad_firstDigit {r : RecordHead} (hp : d.phase = .firstDigit r)
    (hbad : NotDigit s.cfg.hexLower (charAt d.line 4)) :
    step s = .next ((setres 0 false s).malformedAt d.scan.lineNumber none) :=
  step_issue hr hh (by rw [decodeStep, hp]) rfl (exec_hexnib_invalid hbad) (dispatch_failed rfl)

end

/-- Settles O48: the header is read up to its first field that does not parse, which fails the call. -/
theorem badHeaderFailsWithTheLineNumber : Obligations.BadHeaderFailsWithTheLineNumber := by
  intro s d l rest k hr hh hp hl h0 hk1 hk4 hbad
  have htake := step_takes_line hr hh hp hl h0
  obtain ⟨n, hn⟩ | hn := digit_or_notDigit s.cfg.hexLower (charAt l 1)
  swap
  · exact ⟨_, .head htake (.one (step_bad_type hr rfl rfl hn)), rfl, rfl, rfl⟩
  obtain ⟨t, hclass, hsame, hhost⟩ := step_classifies (d := d.lineTaken l rest .classify)
    (s := { s with host := .decoding (d.lineTaken l rest .classify) }) hr rfl rfl hn
  have hrt := hsame.resetInput.trans hr
  by_cases hpair : NotDigit s.cfg.hexLower (charAt l 2) ∨ NotDigit s.cfg.hexLower (charAt l 3)
  · exact ⟨_, .head htake (.head hclass (.one (step_bad_length hrt hhost rfl (by rwa [hsame.cfg])))), rfl, rfl,
      hsame.port⟩
  obtain ⟨h2, h3⟩ := not_or.mp hpair
  obtain ⟨l1, h2⟩ := (digit_or_notDigit _ _).resolve_right h2
  obtain ⟨l2, h3⟩ := (digit_or_notDigit _ _).resolve_right h3
  obtain ⟨u, hlength, hsame', hhost'⟩ := step_reads_length hrt hhost rfl (by rwa [hsame.cfg]) (by rwa [hsame.cfg])
  have h4 : NotDigit s.cfg.hexLower (charAt l 4) := by
    interval_cases k
    · exact absurd hn (hbad n)
    · exact absurd h2 (hbad l1)
    · exact absurd h3 (hbad l2)
    · exact hbad
  have hfail := step_bad_firstDigit (hsame'.resetInput.trans hrt) hhost' rfl (by rwa [hsame'.cfg, hsame.cfg])
  exact ⟨_, .head htake (.head hclass (.head hlength (.one hfail))), rfl, rfl, hsame'.port.trans hsame.port⟩

/-- A data record's UNPACK is issued with its own width code (R209). -/
theorem unpackCode_of_data {r : RecordHead} (hdata : isDataClass r.cls = true) : unpackCode r = r.c := by
  have hcls : ∀ cls, isDataClass cls = true → isCountClass cls = false := by decide
  rw [unpackCode, hcls _ hdata]; rfl

/-- PLEN of a length field below `c + 2` gives a result with `OK = 0` (R130). -/
theorem exec_plen_short {c : WidthCode} {len : Byte} (hc : c ≠ 0) (h : len.toNat < c.toNat + 2) (s : State) :
    ∃ v, exec (.plen c len) s = .next (setres v false s) := by
  have hneg : ¬0 ≤ payloadLen c len := by unfold payloadLen; omega
  exact ⟨_, by rw [exec_plen_next hc, decide_eq_false hneg]⟩

/-- Settles O51: UNPACK answers a window short of digits, and PLEN a length field short of `c + 2`, with `OK = 0`. -/
theorem shortAddressOrLengthFails : Obligations.ShortAddressOrLengthFails := by
  refine ⟨fun s d r hr hh hp hdata hc hfew => ?_, fun s d r address hr hh hp hc hshort => ?_⟩
  · have hissue : decodeStep d s = issue (.unpack r.c) (afterUnpack d r) s := by
      rw [decodeStep, hp, ← unpackCode_of_data hdata]
    obtain ⟨v, hexec⟩ := exec_unpack_short hc hfew
    exact ⟨_, step_issue hr hh hissue (legalCode_of_ne_zero hc) hexec (afterUnpack_failed rfl), rfl, rfl⟩
  · have hissue : decodeStep d s = issue (.plen r.c r.len) (afterPayloadLength d r address) s := by rw [decodeStep, hp]
    obtain ⟨v, hexec⟩ := exec_plen_short hc hshort s
    exact ⟨_, step_issue hr hh hissue (legalCode_of_ne_zero hc) hexec (afterPayloadLength_failed rfl), rfl, rfl⟩

/-- Settles O52: HEXBYTE's answer to the pair, then the range, then the write, by the branches of R213 and R214. -/
theorem payloadByteIsCheckedThenWritten : Obligations.PayloadByteIsCheckedThenWritten := by
  intro s d r address p i hr hh hp hok
  have hsecond : 5 + 2 * (r.c.toNat + 1) + 2 * i = payloadAt r.c i + 1 := by unfold payloadAt addressBytes; omega
  rw [hsecond]
  have hissue : decodeStep d s = issue (.hexbyte (charAt d.line (payloadAt r.c i)) (charAt d.line (payloadAt r.c i + 1)))
      (afterPayloadByte d r address p i) s := by rw [decodeStep, hp]
  refine ⟨fun hbad => ?_, fun v hv => ⟨fun hout => ?_, fun hin => ?_⟩⟩
  · exact ⟨_, step_issue hr hh hissue rfl (exec_hexbyte_invalid hbad) (afterPayloadByte_bad rfl), rfl, rfl⟩
  · exact ⟨_, step_issue hr hh hissue rfl (pair_value hv rfl) (afterPayloadByte_range rfl hout), rfl, rfl⟩
  · obtain ⟨hcall, -, -, -, hphase⟩ := hok
    obtain ⟨-, -, hsize, hwf⟩ := callOk_iff.mp hcall
    rw [DecodeCall.PhaseOk, hp] at hphase
    obtain ⟨-, -, -, -, hip, -⟩ := hphase
    have hindex : address - d.start + i < d.buffer.size := by omega
    have hwrite := Memory.write_of_lt hindex v
    have hread := Memory.read_write hwf hwrite
    refine ⟨_, _, step_payload hr hh hp rfl rfl hv hin hwrite, rfl, ?_⟩
    split
    · exact ⟨rfl, rfl, by rw [hread, if_pos rfl], fun j hj => by rw [hread, if_neg hj]⟩
    · exact ⟨rfl, rfl, by rw [recordDone, hread, if_pos rfl], fun j hj => by rw [recordDone, hread, if_neg hj]⟩

end Sys2Proof.Machine
end

section
/-! PROOFS. The obligations of the host sequencing family on the encoder (48_host_sequencing.md R220 to R229): the
start of a call, the length of a chunk, and the terminator. -/

namespace Sys2Proof.Machine

/-- Settles O54: the call's one check passes or does not. -/
theorem encodeCallStartsOrIsRefused : Obligations.EncodeCallStartsOrIsRefused := by
  intro s buffer start stop rest hh hr hp
  refine ⟨fun hpre => step_encodeCall hh hr hp (callOk_iff.mpr hpre), fun hpre => ?_⟩
  rw [step_of_idle hr hh, portStep, hp]
  dsimp only
  rw [startEncode, callOk_eq_false_iff.mpr hpre]; rfl

/-- A chunk shorter than the cap and the range allow ends the block (R223, R224). -/
theorem chunkLength_maximal (address stop : Nat) :
    chunkLength address stop = min 32 (stop - address) ∨ address % 65536 + chunkLength address stop = 65536 := by
  unfold chunkLength
  split
  · exact .inr (Nat.add_sub_of_le (Nat.mod_lt address (by decide)).le)
  · exact .inl rfl

/-- Settles O55: the bounds are `chunkLength_bounds`; a chunk inside its block has its last byte there, and a chunk
that ends the block ends at a multiple of the block's size. -/
theorem chunkStaysInRangeAndBlock : Obligations.ChunkStaysInRangeAndBlock := by
  intro address stop hlt
  obtain ⟨hpos, hmax, hrange, hblock⟩ := chunkLength_bounds hlt
  have hsize : blockSize = 65536 := rfl
  rw [hsize] at hblock
  refine ⟨hpos, hmax, hrange, by omega, ?_⟩
  obtain hcap | hends := chunkLength_maximal address stop
  · obtain h32 | hrest := min_choice 32 (stop - address)
    · exact .inl (hcap.trans h32)
    · exact .inr (.inl (by omega))
  · exact .inr (.inr (by omega))

/-- Settles O57: the step is `step_writes_terminator`'s, and the terminator line is that literal. -/
theorem encodeEndsWithTheTerminator : Obligations.EncodeEndsWithTheTerminator :=
  fun _ _ => step_writes_terminator

end Sys2Proof.Machine
end

section
/-! PROOFS. The obligation of the host sequencing family on both calls (48_host_sequencing.md R231): the lines an encode
call writes, split again and decoded record by record, fill a buffer with the bytes they were written from. -/

namespace Sys2Proof.Machine

/-! ### The characters of written lines -/

/-- An upper-case digit is a digit under either setting of `HEX_LOWER` (R79, R100). -/
theorem DigitValue.anyCase {c : Byte} {n : Nat} (h : DigitValue false c n) (lower : Bool) : DigitValue lower c n := by
  obtain h | h | ⟨-, -, -, h⟩ := h
  · exact .inl h
  · exact .inr (.inl h)
  · exact nomatch h

theorem digitValue_decimal (lower : Bool) {n : Nat} (h : n < 10) : DigitValue lower (BitVec.ofNat 8 (0x30 + n)) n :=
  .inl ⟨h, by rw [BitVec.toNat_ofNat]; omega⟩

/-- A text of upper-case digits (R79). -/
def UpperDigits (text : List Byte) : Prop := ∀ c ∈ text, ∃ n, DigitValue false c n

theorem UpperDigits.append {a b : List Byte} (ha : UpperDigits a) (hb : UpperDigits b) : UpperDigits (a ++ b) :=
  fun c hc => (List.mem_append.mp hc).elim (ha c) (hb c)

theorem upperDigits_of_forall₂ {cs : List Byte} {ds : List Nat} (h : List.Forall₂ (DigitValue false) cs ds) :
    UpperDigits cs := by
  induction h with
  | nil => exact fun _ hc => nomatch hc
  | cons hd _ ih => exact List.forall_mem_cons.mpr ⟨⟨_, hd⟩, ih⟩

theorem hex2_upperDigits (v : Byte) : UpperDigits (hex2 v) := upperDigits_of_forall₂ (hex2_digits v)

theorem hex4_upperDigits (v : Half) : UpperDigits (hex4 v) := upperDigits_of_forall₂ (hex4_digits v)

theorem payload_upperDigits (payload : List Byte) : UpperDigits (payload.flatMap hex2) := by
  intro c hc
  obtain ⟨v, -, hv⟩ := List.mem_flatMap.mp hc
  exact hex2_upperDigits v c hv

/-- A written line holds no line feed: it is `S` and digits (R72, R79). -/
theorem lineFeed_notMem_record {digits : List Byte} (h : UpperDigits digits) : lineFeed ∉ sentinel :: digits := by
  intro hmem
  obtain heq | hmem := List.mem_cons.mp hmem
  · exact absurd heq (by decide)
  · obtain ⟨n, hn⟩ := h _ hmem
    have hval : lineFeed.toNat = 10 := rfl
    rcases hn with hn | hn | hn <;> omega

theorem announcementText_eq (idx : Half) (k : Byte) :
    announcementText idx k = sentinel :: 0x30 :: (hex2 0x02 ++ hex4 0x0000 ++ hex4 idx ++ hex2 k) := rfl

theorem lineFeed_notMem_announcementText (idx : Half) (k : Byte) : lineFeed ∉ announcementText idx k := by
  rw [announcementText_eq]
  refine lineFeed_notMem_record (List.forall_mem_cons.mpr ⟨⟨0, digitValue_decimal _ (by decide)⟩, ?_⟩)
  exact (((hex2_upperDigits _).append (hex4_upperDigits _)).append (hex4_upperDigits idx)).append (hex2_upperDigits k)

/-- What follows the length field of a data record: its address, its payload and its checksum (R77). -/
abbrev dataField (a16 : Half) (payload : List Byte) (k : Byte) : List Byte :=
  hex4 a16 ++ payload.flatMap hex2 ++ hex2 k

theorem dataField_upperDigits (a16 : Half) (payload : List Byte) (k : Byte) : UpperDigits (dataField a16 payload k) :=
  ((hex4_upperDigits a16).append (payload_upperDigits payload)).append (hex2_upperDigits k)

theorem dataText_eq (a16 : Half) (payload : List Byte) (k : Byte) : dataText a16 payload k =
    sentinel :: 0x31 :: (hex2 (BitVec.ofNat 8 (payload.length + 3)) ++ dataField a16 payload k) := by
  simp [dataText, dataField]

theorem lineFeed_notMem_dataText (a16 : Half) (payload : List Byte) (k : Byte) :
    lineFeed ∉ dataText a16 payload k := by
  rw [dataText_eq]
  refine lineFeed_notMem_record (List.forall_mem_cons.mpr ⟨⟨1, digitValue_decimal _ (by decide)⟩, ?_⟩)
  exact (hex2_upperDigits _).append (dataField_upperDigits a16 payload k)

theorem length_dataText (a16 : Half) (payload : List Byte) (k : Byte) :
    (dataText a16 payload k).length = 10 + 2 * payload.length := by
  simp [dataText, hex4, hex2]
  omega

/-! ### The lines of a written text -/

/-- A written line is the first line of the stream it begins (R81). -/
theorem splitLines_withLineFeed {l : List Byte} (h : lineFeed ∉ l) (stream : List Byte) :
    splitLines (withLineFeed l ++ stream) = l :: splitLines stream := by
  induction l with
  | nil => exact if_pos rfl
  | cons c l ih =>
    obtain ⟨hc, hl⟩ := not_or.mp (mt List.mem_cons.mpr h)
    rw [withLineFeed, List.cons_append, List.cons_append, splitLines, if_neg (Ne.symm hc), ← withLineFeed, ih hl]

/-- The lines of a text that writes a buffer's bytes from an address to the end of the range: data records of 1 to 32
bytes, announcements anywhere among them, then the terminator (R222 to R229). -/
inductive WrittenLines (source : Memory) (start stop : Nat) : Nat → List (List Byte) → Prop where
  | terminator : WrittenLines source start stop stop [terminatorText]
  | announcement {address : Nat} {lines : List (List Byte)} (idx : Half) (k : Byte)
      (rest : WrittenLines source start stop address lines) :
      WrittenLines source start stop address (announcementText idx k :: lines)
  | data {address n : Nat} {lines : List (List Byte)} (k : Byte) (pos : 1 ≤ n) (cap : n ≤ 32)
      (range : address + n ≤ stop) (rest : WrittenLines source start stop (address + n) lines) :
      WrittenLines source start stop address
        (dataText (lowAddress address) (bufferBytes source (address - start) n) k :: lines)

theorem splitLines_terminatorLine : splitLines terminatorLine = [terminatorText] := by decide

/-- The lines of the text an encode call writes from a cursor on (R222 to R229). -/
theorem encodedFrom_writtenLines (cfg : Config) (source : Memory) (start stop fuel : Nat) : ∀ {address : Nat}
    {base : Option Nat}, address ≤ stop → stop - address ≤ fuel →
      WrittenLines source start stop address (splitLines (encodedFrom cfg source start stop fuel address base)) := by
  induction fuel with
  | zero =>
    intro address base hle hfuel
    obtain rfl : address = stop := by omega
    rw [encodedFrom, splitLines_terminatorLine]
    exact .terminator
  | succ fuel ih =>
    intro address base hle hfuel
    obtain hlt | rfl := Nat.lt_or_eq_of_le hle
    · obtain ⟨hpos, hmax, hrange, -⟩ := chunkLength_bounds hlt
      have hrest := ih (base := some (address / 65536)) hrange (by omega)
      have hdata : ∀ k, WrittenLines source start stop address
          (dataText (lowAddress address) (bufferBytes source (address - start) (chunkLength address stop)) k :: _) :=
        fun k => .data k hpos hmax hrange hrest
      rw [encodedFrom, if_neg hlt.ne, dataLine_eq]
      split
      · rw [announcementLine_eq, List.append_assoc, splitLines_withLineFeed (lineFeed_notMem_announcementText _ _),
          splitLines_withLineFeed (lineFeed_notMem_dataText _ _ _)]
        exact .announcement _ _ (hdata _)
      · rw [List.nil_append, splitLines_withLineFeed (lineFeed_notMem_dataText _ _ _)]
        exact hdata _
    · rw [encodedFrom_stop, splitLines_terminatorLine]
      exact .terminator

/-- A written line is no longer than a decoder takes (R81, R204). -/
theorem WrittenLines.length_le {source : Memory} {start stop address : Nat} {lines : List (List Byte)}
    (h : WrittenLines source start stop address lines) : ∀ l ∈ lines, l.length ≤ 255 := by
  induction h with
  | terminator => decide
  | announcement idx k _ ih => exact List.forall_mem_cons.mpr ⟨by simp [announcementText, hex4, hex2], ih⟩
  | data k pos cap _ _ ih =>
    exact List.forall_mem_cons.mpr ⟨by rw [length_dataText, bufferBytes_length]; omega, ih⟩

/-! ### Written lines decoded -/

/-- A record that is neither a data nor a count record is skipped (R208, R219). -/
theorem reaches_skipped {s : State} {d : DecodeCall} {l : List Byte} {rest : List (List Byte)} {n l1 l2 a : Nat}
    (hr : s.resetInput = []) (hh : s.host = .decoding d) (hp : d.phase = .nextLine) (hl : d.lines = l :: rest)
    (h0 : l.head? = some 0x53) (h1 : DigitValue s.cfg.hexLower (charAt l 1) n)
    (h2 : DigitValue s.cfg.hexLower (charAt l 2) l1) (h3 : DigitValue s.cfg.hexLower (charAt l 3) l2)
    (h4 : DigitValue s.cfg.hexLower (charAt l 4) a) (hn : n = 0 ∨ n = 4 ∨ 6 ≤ n) :
    ∃ t, Reaches s t ∧ SameForCaller s t ∧ t.host = .decoding (d.lineTaken l rest .nextLine) := by
  obtain ⟨t, hsame, hok, hreach⟩ := reaches_dispatch hr hh hp hl h0 h1 h2 h3 h4
  obtain ⟨hdata, hcount⟩ := class_of_other (digit_lt h1) hn
  exact ⟨_, hreach _ (dispatch_other hok hdata hcount), hsame.withHost _, rfl⟩

/-- The pair of digits `HEX2` writes (R230). -/
def hexPair (v : Byte) : Byte × Byte := (hexDigit (v.extractLsb' 4 4), hexDigit (v.extractLsb' 0 4))

theorem pairValue_hexPair (lower : Bool) (v : Byte) : PairValue lower (hexPair v) v := by
  refine ⟨_, _, (digitValue_hexDigit _).anyCase lower, (digitValue_hexDigit _).anyCase lower, ?_⟩
  rw [toNat_extract, toNat_extract]
  have := v.isLt
  omega

theorem pairValue_hexPairs (lower : Bool) (payload : List Byte) :
    List.Forall₂ (PairValue lower) (payload.map hexPair) payload := by
  rw [List.forall₂_map_left_iff, List.forall₂_same]
  exact fun v _ => pairValue_hexPair lower v

theorem flatMap_hexPair (payload : List Byte) :
    (payload.map hexPair).flatMap (fun q => [q.1, q.2]) = payload.flatMap hex2 := by
  rw [List.flatMap_map]; rfl

/-- Four digits of a half-word are its value (R12, R230). -/
theorem hexValue_hex4 (v : Half) :
    hexValue [v.toNat / 4096, v.toNat / 256 % 16, v.toNat / 16 % 16, v.toNat % 16] = v.toNat := by
  have := v.isLt
  simp only [hexValue, List.length_cons, List.length_nil]
  omega

/-- The call after a data record that left this buffer and ended at this address (R215). -/
abbrev DecodeCall.dataTaken (d : DecodeCall) (l : List Byte) (rest : List (List Byte)) (m : Memory) (upper : Nat) :
    DecodeCall :=
  { d with
    buffer := m, lines := rest, line := l
    scan := { d.scan with
      lineNumber := d.scan.lineNumber + 1, dataRecordsSeen := d.scan.dataRecordsSeen + 1
      highestAddressWritten := max d.scan.highestAddressWritten upper } }

/-- A written data record with a payload fills the buffer under every setting of the parameters: its address, one byte
and its checksum are the eight digits of the window (R77, R123). -/
theorem reaches_dataTaken {s : State} {d : DecodeCall} {a16 : Half} {payload : List Byte} {k : Byte}
    {rest : List (List Byte)} (hr : s.resetInput = []) (hh : s.host = .decoding d) (hp : d.phase = .nextLine)
    (hok : d.Ok) (hl : d.lines = dataText a16 payload k :: rest) (hpos : 1 ≤ payload.length)
    (hmax : payload.length ≤ 32) (hrange : d.start ≤ a16.toNat ∧ a16.toNat + payload.length ≤ d.stop) :
    ∃ t m, Reaches s t ∧ SameForCaller s t ∧
      t.host = .decoding (d.dataTaken (dataText a16 payload k) rest m (a16.toNat + payload.length)) ∧
      m.wf = true ∧ m.size = d.buffer.size ∧
      (∀ j (h : j < payload.length), m.read (a16.toNat - d.start + j) = some payload[j]) ∧
      (∀ j, (∀ i < payload.length, j ≠ a16.toNat - d.start + i) → m.read j = d.buffer.read j) := by
  have hlen : (BitVec.ofNat 8 (payload.length + 3)).toNat = payload.length + 3 := by rw [BitVec.toNat_ofNat]; omega
  obtain ⟨l1, l2, h1, h2, hvalue⟩ := pairValue_hexPair s.cfg.hexLower (BitVec.ofNat 8 (payload.length + 3))
  have hfield : List.Forall₂ (DigitValue s.cfg.hexLower) (hex4 a16) _ := (hex4_digits a16).imp fun _ _ h => h.anyCase _
  have hfull : ∀ j < 8, ∃ n, DigitValue s.cfg.hexLower ((dataField a16 payload k).getD j 0x0A) n := by
    intro j hj
    have hj' : j < (dataField a16 payload k).length := by
      simp [dataField, hex4, hex2]
      omega
    rw [List.getD_eq_getElem _ _ hj']
    obtain ⟨n, hn⟩ := dataField_upperDigits a16 payload k _ (List.getElem_mem hj')
    exact ⟨n, hn.anyCase _⟩
  rw [dataField, ← flatMap_hexPair] at hfull
  have hfill := dataRecordFillsTheBuffer s d 1 0x31 _ _ l1 l2 (hex4 a16) _ (payload.map hexPair) payload (hex2 k) rest
    hr hh hp hok (by rw [hl, flatMap_hexPair]; rfl) (by decide) (digitValue_decimal _ (by decide)) h1 h2
    (hvalue.symm.trans hlen) hfield rfl (pairValue_hexPairs _ payload) (.inr hfull) (fun _ => by rwa [hexValue_hex4])
  rw [flatMap_hexPair, hexValue_hex4, if_pos hpos] at hfill
  obtain ⟨t, m, hreach, hhost, hwf, hsize, hread, hframe, hcfg, hport, hreset, hresult, herrs, hill, hckacc⟩ := hfill
  exact ⟨t, m, hreach, ⟨herrs, hill, hckacc, hcfg, hresult, hport, hreset.trans hr.symm⟩, hhost, hwf, hsize, hread,
    hframe⟩

/-- The call is between two lines, has seen no count record, and its buffer holds the source's bytes up to an
address. -/
structure DecodeCall.FilledTo (d : DecodeCall) (source : Memory) (address : Nat) : Prop where
  ok : d.Ok
  phase : d.phase = .nextLine
  noCount : d.scan.expectedDataRecords = none
  highest : d.scan.highestAddressWritten = address
  filled : ∀ j < address - d.start, d.buffer.read j = source.read j

section
variable {source : Memory} {d : DecodeCall} {l : List Byte} {rest : List (List Byte)} {address : Nat}

/-- A skipped line leaves the buffer as far filled as it was. -/
theorem DecodeCall.FilledTo.lineTaken (h : d.FilledTo source address) (hl : d.lines = l :: rest) :
    (d.lineTaken l rest .nextLine).FilledTo source address := by
  obtain ⟨⟨hcall, hlines, hlo, hhi, -⟩, -, hnone, hhighest, hfilled⟩ := h
  exact ⟨⟨hcall, linesOk_tail (hl ▸ hlines), hlo, hhi, trivial⟩, rfl, hnone, hhighest, hfilled⟩

/-- A data record of the source's next bytes fills the buffer further. -/
theorem DecodeCall.FilledTo.dataTaken (h : d.FilledTo source address) (hl : d.lines = l :: rest)
    (hsize : source.size = d.stop - d.start) {m : Memory} {n : Nat} (hrange : address + n ≤ d.stop)
    (hwf : m.wf = true) (hmsize : m.size = d.buffer.size)
    (hread : ∀ j < n, m.read (address - d.start + j) = some (cellsRead source.cells (address - d.start + j)))
    (hframe : ∀ j, (∀ i < n, j ≠ address - d.start + i) → m.read j = d.buffer.read j) :
    (d.dataTaken l rest m (address + n)).FilledTo source (address + n) := by
  obtain ⟨⟨hcall, hlines, hlo, hhi, hphase⟩, hp, hnone, hhighest, hfilled⟩ := h
  obtain ⟨hle, hmax, hbuffer, -⟩ := callOk_iff.mp hcall
  refine ⟨⟨callOk_iff.mpr ⟨hle, hmax, hmsize.trans hbuffer, hwf⟩, linesOk_tail (hl ▸ hlines),
    hlo.trans (Nat.le_max_left _ _), Nat.max_le.mpr ⟨hhi, hrange⟩, ?_⟩, hp, hnone,
    Nat.max_eq_right (hhighest.trans_le (Nat.le_add_right _ _)), fun j hj => ?_⟩
  · rw [DecodeCall.PhaseOk, hp]; trivial
  · dsimp only at hj ⊢
    obtain hold | hnew := Nat.lt_or_ge j (address - d.start)
    · rw [hframe j (fun i _ => by omega)]
      exact hfilled j hold
    · obtain ⟨i, rfl⟩ := Nat.exists_eq_add_of_le hnew
      rw [hread i (by omega), Memory.read, if_pos (by omega)]

end

section
variable {source : Memory} {start stop : Nat} (hstop : stop ≤ 65536) (hsize : source.size = stop - start)
  (hwf : source.wf = true)
include hstop hsize hwf

/-- Written lines decoded: each announcement is skipped, each data record fills the buffer further, and after the
terminator the buffer is the source (R208, R215, R217). -/
theorem WrittenLines.reaches_decoded {address : Nat} {lines : List (List Byte)}
    (h : WrittenLines source start stop address lines) : ∀ {s : State} {d : DecodeCall}, s.resetInput = [] →
      s.host = .decoding d → d.start = start → d.stop = stop → d.lines = lines → d.FilledTo source address →
      ∃ t, Reaches s t ∧ t.host = .idle ∧ t.port = s.port ∧ t.result = some (.decoded (stop - start) source) := by
  induction h with
  | terminator =>
    rintro s d hr hh rfl rfl hl hd
    obtain ⟨t, ht, hsame, hhost⟩ := reaches_skipped (l := terminatorText) hr hh hd.phase hl rfl
      (digitValue_decimal _ (show 9 < 10 by decide)) (digitValue_decimal _ (show 0 < 10 by decide))
      (digitValue_decimal _ (show 3 < 10 by decide)) (digitValue_decimal _ (show 0 < 10 by decide)) (by decide)
    obtain ⟨⟨hcall, -⟩, -, hnone, hhighest, hfilled⟩ := hd.lineTaken hl
    obtain ⟨-, -, hbuffer, hbwf⟩ := callOk_iff.mp hcall
    have hsource : d.buffer = source :=
      Memory.ext_read hbwf hwf (hbuffer.trans hsize.symm) fun j hj => hfilled j (hbuffer ▸ hj)
    have hend := (endOfStreamGivesTheResult t _ (hsame.resetInput.trans hr) hhost rfl rfl).2
      fun n hn => nomatch hnone.symm.trans hn
    refine ⟨_, ht.trans (.one hend), rfl, hsame.port, ?_⟩
    dsimp only at hhighest ⊢
    rw [hhighest, hsource]
  | announcement idx k _ ih =>
    intro s d hr hh hstart hend hl hd
    obtain ⟨t, ht, hsame, hhost⟩ := reaches_skipped (l := announcementText idx k) hr hh hd.phase hl rfl
      (digitValue_decimal _ (show 0 < 10 by decide)) (digitValue_decimal _ (show 0 < 10 by decide))
      (digitValue_decimal _ (show 2 < 10 by decide)) (digitValue_decimal _ (show 0 < 10 by decide)) (by decide)
    obtain ⟨u, hu, hidle, hport, hresult⟩ := ih (hsame.resetInput.trans hr) hhost hstart hend rfl (hd.lineTaken hl)
    exact ⟨u, ht.trans hu, hidle, hport.trans hsame.port, hresult⟩
  | @data address n lines k pos cap range _ ih =>
    rintro s d hr hh rfl rfl hl hd
    obtain ⟨-, -, hlo, -, -⟩ := hd.ok
    rw [hd.highest] at hlo
    have haddress : (lowAddress address).toNat = address := by
      rw [lowAddress, BitVec.toNat_ofNat, blockSize]; omega
    obtain ⟨t, m, ht, hsame, hhost, hmwf, hmsize, hread, hframe⟩ := reaches_dataTaken hr hh hd.phase hd.ok hl
      (by rwa [bufferBytes_length]) (by rwa [bufferBytes_length])
      (by rw [haddress, bufferBytes_length]; exact ⟨hlo, range⟩)
    simp only [haddress, bufferBytes_length] at hhost hread hframe
    obtain ⟨u, hu, hidle, hport, hresult⟩ := ih (hsame.resetInput.trans hr) hhost rfl rfl rfl
      (hd.dataTaken hl hsize range hmwf hmsize (fun j hj => by simpa [bufferBytes] using hread j hj) hframe)
    exact ⟨u, ht.trans hu, hidle, hport.trans hsame.port, hresult⟩

end

/-- A decode call before its first line (R201). -/
def DecodeCall.atFirstLine (buffer : Memory) (start stop : Nat) (lines : List (List Byte)) : DecodeCall :=
  { start := start, stop := stop, buffer := buffer, lines := lines, line := []
    scan := { lineNumber := 0, dataRecordsSeen := 0, expectedDataRecords := none, highestAddressWritten := start }
    phase := .nextLine }

/-- A decode call starts and clears the block before its first line (R200 to R202). -/
theorem reaches_firstLine {s : State} {stream : List Byte} {buffer : Memory} {start stop : Nat}
    {rest : List HostAction} (hh : s.host = .idle) (hr : s.resetInput = [])
    (hp : s.port = .decodeCall stream buffer start stop :: rest) (hcall : CallPrecondition buffer start stop)
    (hlines : ∀ l ∈ splitLines stream, l.length ≤ 255) :
    ∃ t, Reaches s t ∧ t.resetInput = [] ∧ t.port = rest ∧
      t.host = .decoding (.atFirstLine buffer start stop (splitLines stream)) := by
  have hstart := (decodeCallStartsOrIsRefused.1 s stream buffer start stop rest hh hr hp).1 hcall hlines
  have hclear := callsClearTheBlockFirst.1
    { s with
      port := rest
      host := .decoding { DecodeCall.atFirstLine buffer start stop (splitLines stream) with phase := .callClrst } }
    _ hr rfl rfl
  exact ⟨_, .head hstart ⟨3, hclear⟩, hr, rfl, rfl⟩

/-- Before the first line nothing of the buffer need be filled. -/
theorem atFirstLine_filledTo (source : Memory) {buffer : Memory} {start stop : Nat} {lines : List (List Byte)}
    (hcall : CallPrecondition buffer start stop) (hlines : ∀ l ∈ lines, l.length ≤ 255) :
    (DecodeCall.atFirstLine buffer start stop lines).FilledTo source start where
  ok := ⟨callOk_iff.mpr hcall, List.all_eq_true.mpr fun l hl => decide_eq_true (hlines l hl), le_rfl, hcall.1, trivial⟩
  phase := rfl
  noCount := rfl
  highest := rfl
  filled j hj := absurd hj (by simp [DecodeCall.atFirstLine])

/-- Settles O60: the encode call's text is written lines, and a decode call on them starts, clears the block, and reads
them into its buffer. -/
theorem encodedTextDecodesToTheSameBuffer : Obligations.EncodedTextDecodesToTheSameBuffer := by
  intro s source start stop rest hh hr hp hle hstop hsize hwf
  have hmax : stop ≤ 2 ^ 32 := hstop.trans (by decide)
  obtain ⟨t, ht, hidle, hport, hresult, -⟩ :=
    encodeWritesTheWholeText s source start stop rest hh hr hp hle hmax hsize hwf
  refine ⟨t, _, ht, hidle, hport, hresult, fun u target next huh hur hup htsize htwf => ?_⟩
  have hlines : WrittenLines source start stop start (splitLines (encodedText s.cfg source start stop)) :=
    encodedFrom_writtenLines s.cfg source start stop _ hle le_rfl
  have hcall : CallPrecondition target start stop := ⟨hle, hmax, htsize, htwf⟩
  obtain ⟨v, hv, hvr, hvport, hvhost⟩ := reaches_firstLine huh hur hup hcall hlines.length_le
  obtain ⟨w, hw, hwidle, hwport, hwresult⟩ := hlines.reaches_decoded hstop hsize hwf hvr hvhost rfl rfl rfl
    (atFirstLine_filledTo source hcall hlines.length_le)
  exact ⟨w, hv.trans hw, hwidle, hwport.trans hvport, hwresult⟩

end Sys2Proof.Machine
end

section
/-! PROOFS. The obligation on the illegal-command outcome (60_exceptions.md R262): what sets `ILL`, and what alone
clears it (10_state.md R31). -/

namespace Sys2Proof.Machine

/-- The only word of CLRST is its opcode alone (R61, R65). -/
theorem eq_of_decode_clrst {w : Word} (h : decode w = .ok .clrst) : w = 0xC0000000 :=
  (encodeReturnsEveryDecodedWord w .clrst h).1.symm

/-- Every command but CLRST keeps `ILL` set: half of what sets it after a command (R31, R263). -/
theorem exec_keeps_ill {i : Instr} {s t : State} (hi : i ≠ .clrst) (hill : s.ill = true) (h : exec i s = .next t) :
    t.ill = true := by
  obtain ⟨hflags, -⟩ := flagsFollowTheCauseOfEachCommand
  obtain ⟨-, hillIff, -⟩ := hflags i s t h
  exact hillIff.mpr ⟨hi, .inl hill⟩

/-- Every word but CLRST's keeps `ILL` set: the decoder rejects it, or it is another command (R31, R262). -/
theorem command_keeps_ill {w : Word} {s t : State} (hw : w ≠ 0xC0000000) (hill : s.ill = true)
    (h : command w s = .next t) : t.ill = true := by
  cases hd : decode w with
  | error e =>
    obtain rfl := Host.Outcome.next.inj ((command_of_decode_error hd s).symm.trans h)
    rfl
  | ok i =>
    have hi : i ≠ .clrst := by rintro rfl; exact hw (eq_of_decode_clrst hd)
    exact exec_keeps_ill hi hill ((command_of_decode_ok hd s).symm.trans h)

/-- CLRST's word clears the sticky flags (R171). -/
theorem command_clrst (s : State) : command 0xC0000000 s = .next (clearSticky s) :=
  (command_encode (i := .clrst) rfl s).trans (exec_clrst s)

/-- Settles O4: an illegal word has the illegal-command outcome, every word but CLRST's keeps `ILL`, and CLRST and the
reset event clear it. -/
theorem illegalWordSetsIllAndNothingElse : Obligations.IllegalWordSetsIllAndNothingElse := by
  refine ⟨fun w s h => command_of_illegalWord h s, fun w s t hill hw h => command_keeps_ill hw hill h, fun s => ?_,
    fun s rest h => ?_⟩
  · exact ⟨_, command_clrst s, clearSticky_ill s⟩
  · exact ⟨_, step_of_reset h, resetBlock_ill _⟩

end Sys2Proof.Machine
end

section
/-! PROOFS. The obligations on reset and on the start of a call (70_reset_and_hazards.md): the reset input sampled low
and high (R290), and the three commands that clear the block (R293). -/

namespace Sys2Proof.Machine

/-- A low sample of the reset input is taken off, and the host makes its step (R290). -/
theorem step_of_resetLow {s : State} {rest : List Bool} (h : s.resetInput = false :: rest) :
    step s = hostStep { s with resetInput := rest } := by
  unfold step sampleReset; rw [h]

/-- Settles O7: a low sample is no reset. -/
theorem resetInputLowIsNoReset : Obligations.ResetInputLowIsNoReset :=
  fun _ _ h => step_of_resetLow h

/-- After reset every field of the `STATUS` port shows a cleared register (R32, R290). -/
theorem readStatus_resetBlock (s : State) : readStatus (resetBlock s) = 0 :=
  BitVec.eq_of_toNat_eq (by simp [statusPortShowsEveryFlag (resetBlock s)])

/-- Settles O8: the step at a high sample is the reset event, after which both output ports read zero. -/
theorem resetSetsEveryRegister : Obligations.ResetSetsEveryRegister := by
  intro s rest h
  exact ⟨_, step_of_reset h, rfl, readStatus_resetBlock _, resetBlock_res _⟩

/-- Settles O37: CLRST clears the sticky flags, WCLR the window, and CKCLR the accumulator and `RES`; the successes of
the last two raise `OK` and leave the cleared `ERRS` as it is. -/
theorem callStartCommandsClearTheBlock : Obligations.CallStartCommandsClearTheBlock := by
  intro s
  rw [runCommands_cons (exec_clrst _), runCommands_cons (exec_wclr _), runCommands_cons (exec_ckclr _)]
  rfl

end Sys2Proof.Machine
end
